-- ==== Sys2Proof/Word.lean ====
section
/-! DEFINITION. The words of the block: the byte, the one-bit operand, and the two kinds of instruction word
(an inward operation descriptor and an outward bus write, 30_encoding.md rules R52, R54 and R63). -/

namespace Sys2Proof

/-- A framebuffer byte, a glyph column or a byte on the bus: the `u8` of 00_scope.md section 5.1. -/
abbrev Byte := BitVec 8

/-- A one-bit operand (`color`, `filled`, `flag`, `wrap`): the `u1` of rule R53, `1` = set = true. -/
abbrev Bit := BitVec 1

/-- A pixel `(x, y)`; coordinates are unbounded integers (rule R76). -/
abbrev Pixel := Int × Int

/-- An operand value as the host presents it. Rule R52 defines no packing into bits: coordinates are unbounded
integers and strings are finite sequences of integer character codes (rule R53). -/
inductive Operand where
  | int (v : Int)
  | str (codes : List Int)
deriving DecidableEq, Repr

/-- An instruction word. Rule R63 divides `opcode_table.json` into two disjoint spaces, told apart by direction:
a descriptor goes from the host to the block (rule R52), a bus write from the block to the controller (rule R54). -/
inductive InstrWord where
  /-- The 4-bit select code and the operands present, in order; omitted operands are absent (rule R53). -/
  | descriptor (op : BitVec 4) (operands : List Operand)
  /-- The bytes the row's `encoding` gives, in the order sent. -/
  | busWrite (bytes : List Byte)
deriving DecidableEq, Repr

end Sys2Proof
end

