-- ==== Sys2Proof/Config.lean ====
section
/-! DEFINITION. What the spec leaves open (92_eei_decisions.md, "Notes on the OPEN parameters";
93_implementation_defined.md): each is an opaque constant, so a claim holds whatever its value is. Parameters with a
stated property are given in the form that admits exactly the values the property allows. -/

namespace Sys2Proof

/-- The two delays of the reset pulse (42_session.md rule R116). -/
inductive ResetDelay where
  | tRstLow
  | tRstHigh
deriving DecidableEq, Repr

/-- The Bus Transport's answer to one write (60_exceptions.md rule R168). -/
inductive BusResult where
  | ok
  | err
deriving DecidableEq, Repr, Inhabited

namespace Config

/-- `GLYPH` (rules R19, R90): 96 finite byte sequences, entry `i` for character code `i + 32`. OPEN, D27. -/
opaque glyph : Fin 96 → List Byte

/-- `SIN` (rule R20): entry `i` stands for the angle of `2 i` degrees. OPEN, D21. -/
opaque sin : Fin 180 → Rat

/-- `COS` (rule R20). OPEN, D21. -/
opaque cos : Fin 180 → Rat

/-- On an exact tie, whether `CIRCLE_ROUND` goes to the upper neighbour (rule R72, U16). OPEN, D21. -/
opaque circleTieUp : Rat → Bool

/-- On a non-integer value, whether `LINE_RND` goes to the upper neighbour (rule R71, U17). OPEN, D20. -/
opaque lineRoundsUp : Rat → Bool

/-- The pixels the smoothing of TEXT_2X adds to the two output columns of a source column, from the column to the
left, the column itself and the column to the right (rule R97 (b), U18). OPEN, D26. -/
opaque smoothExtra : Option Byte → Byte → Option Byte → BitVec 16 × BitVec 16

/-- A delay's duration less one time unit; the durations themselves are OPEN and positive (rule R116, D8, U13). -/
opaque delayLessOne : ResetDelay → Nat

/-- `T_RST_LOW`, `T_RST_HIGH`: positive, otherwise unknown. No rule depends on them (rule R205). -/
def delay (d : ResetDelay) : Nat := delayLessOne d + 1

/-- The transport's answer to the `n`-th bus write since power-on, where the state's script of answers has run out
(rule R168, U9: "any value, drawn from an oracle"). -/
opaque transportAnswer : Nat → BusResult

/-- `W` while there is no session: the register has no value, which is any value, and a new one for each discarded
session `n` (rules R25, R111; U7, U8). -/
opaque unspecifiedW : Nat → Int

/-- `H` while there is no session (U7, U8). -/
opaque unspecifiedH : Nat → Int

/-- `ADDR` while there is no session (U7, U8). -/
opaque unspecifiedAddr : Nat → BitVec 7

/-- `CX` while there is no session (U7, U8). -/
opaque unspecifiedCX : Nat → Int

/-- `CY` while there is no session (U7, U8). -/
opaque unspecifiedCY : Nat → Int

end Config

end Sys2Proof
end

