-- ==== Sys2Proof/Syntax.lean ====
section
/-! DEFINITION. The instructions: one constructor per row of spec/opcode_table.json, the 13 operations of rule R51
in the order of their select codes, then the 20 bus writes of 43_wire_protocol.md in the order of rule R151. -/

namespace Sys2Proof

/-- An instruction of the block with its operands. -/
inductive Instr where
  -- 13 operations, host to block (30_encoding.md rules R50, R51)
  | init (addr w h : Int)
  | home
  | move (x y : Int)
  | plot (x y : Int) (color : Bit)
  | line (x0 y0 x1 y1 thickness : Int) (color : Bit)
  | circle (cx cy radius : Int) (color filled : Bit)
  | rect (x y w h : Int) (color filled : Bit)
  | text (codes : List Int) (wrap : Bit)
  | text2x (codes : List Int) (wrap : Bit)
  | lengthOfString (codes : List Int)
  | clear
  | draw
  | setInverse (flag : Bit)
  -- 20 bus writes, block to controller (43_wire_protocol.md rules R131 to R150); an operand stands for each
  -- argument byte the table writes with letters, a payload is never one (the frame is read from the framebuffer)
  | displayoff
  | clockdiv
  | multiplex (a : Byte)
  | displayoffset
  | startline
  | chargepump
  | memorymode
  | segremap
  | comscandec
  | setcompins (a : Byte)
  | contrast
  | precharge
  | vcomdetect
  | displayallonResume
  | normaldisplay
  | displayon
  | columnaddr (b : Byte)
  | pageaddr (b : Byte)
  | invertdisplay
  | data
deriving DecidableEq, Repr

end Sys2Proof
end

