-- ==== Sys2Proof/Machine/Operands.lean ====
section
/-! DEFINITION. What the operations compute from their operands, as pure functions: the pixel address (rule R32), the
legal dimensions (rule R111), the computed argument bytes (rule R56), the pixel lists of LINE, CIRCLE and RECT (rules
R71 to R73), the glyph columns and the layout of text (rules R90 to R98). The OPEN parameters are arguments here; the
meanings pass the constants of `Config`. -/

namespace Sys2Proof.Machine

/-! ## Pixels (rule R32) -/

/-- `index(x, y) = (y >> 3) * W + x`. -/
def pixelIndex (w x y : Int) : Nat := (y / 8 * w + x).toNat

/-- `bit(y) = y mod 8`. -/
def pixelBit (y : Int) : Nat := (y % 8).toNat

/-- `v | (1 << b)` for colour 1, `v & ~(1 << b)` for colour 0 (rules R39, R70). -/
def putBit (v : Byte) (b : Nat) (c : Bit) : Byte :=
  if c = 1 then v ||| (1#8 <<< b) else v &&& ~~~(1#8 <<< b)

/-- The bounds test of rule R70. -/
abbrev inSurface (w h : Int) (p : Pixel) : Prop := 0 ≤ p.1 ∧ p.1 < w ∧ 0 ≤ p.2 ∧ p.2 < h

/-- The integers `a..b` in ascending order, none when `b < a` (00_scope.md section 5.1). -/
def intRange (a b : Int) : List Int := (List.range (b - a + 1).toNat).map fun k : Nat => a + (k : Int)

/-! ## INIT's operands (rules R56, R111) -/

/-- `0 <= addr <= 127` (D6). -/
abbrev addrLegal (addr : Int) : Prop := 0 ≤ addr ∧ addr ≤ 127

/-- `DimsLegal(w, h)` of rule R111 (D5). -/
abbrev dimsLegal (w h : Int) : Prop := 1 ≤ w ∧ w ≤ 128 ∧ 8 ≤ h ∧ h ≤ 64 ∧ h % 8 = 0

/-- `N = W * (H/8)` (rule R30). -/
def surfaceBytes (w h : Int) : Nat := (w * (h / 8)).toNat

/-- MULTIPLEX: `a = H - 1`. -/
def multiplexArg (h : Int) : Byte := BitVec.ofInt 8 (h - 1)

/-- SETCOMPINS: `a = 0x02` if `H` is 16 or 32, otherwise `0x12`. -/
def comPinsArg (h : Int) : Byte := if h = 16 ∨ h = 32 then 0x02 else 0x12

/-- COLUMNADDR: `b = W - 1`. -/
def lastColumnArg (w : Int) : Byte := BitVec.ofInt 8 (w - 1)

/-- PAGEADDR: `b = H/8 - 1`. -/
def lastPageArg (h : Int) : Byte := BitVec.ofInt 8 (h / 8 - 1)

/-- `Cmd[1..18]` of rule R151, in order. -/
def initCommands (w h : Int) : List Instr :=
  [.displayoff, .clockdiv, .multiplex (multiplexArg h), .displayoffset, .startline, .chargepump, .memorymode,
   .segremap, .comscandec, .setcompins (comPinsArg h), .contrast, .precharge, .vcomdetect, .displayallonResume,
   .normaldisplay, .displayon, .columnaddr (lastColumnArg w), .pageaddr (lastPageArg h)]

/-! ## LINE (rule R71) -/

/-- `LINE_RND` on the exact rational `num / den`, `den > 0`: itself where it is an integer, otherwise one of its two
integer neighbours. These are exactly the values `|LINE_RND(v) - v| < 1` with identity on integers allows. -/
def lineRound (up : Rat → Bool) (num den : Int) : Int :=
  if num % den = 0 then num / den
  else if up (mkRat num den.toNat) then num / den + 1
  else num / den

/-- The y-major branch (`x0 = x1`): passes `0..thickness-1` offset along `x`, rows `min..max`, both included. -/
def verticalPixels (x y0 y1 thickness : Int) : List Pixel :=
  (intRange 0 (thickness - 1)).flatMap fun i => (intRange (min y0 y1) (max y0 y1)).map fun j => (x + i, j)

/-- The x-major branch with `x0 < x1`: one pixel per column, passes offset along `y`. -/
def slopePixels (up : Rat → Bool) (x0 y0 x1 y1 thickness : Int) : List Pixel :=
  (intRange 0 (thickness - 1)).flatMap fun i =>
    (intRange x0 x1).map fun j => (j, y0 + lineRound up ((y1 - y0) * (j - x0)) (x1 - x0) + i)

/-- LINE's pixels: the branch is chosen by `x0 = x1` alone, a zero-length line has none, and the x-major branch
swaps whole endpoints to ascend. -/
def linePixels (up : Rat → Bool) (x0 y0 x1 y1 thickness : Int) : List Pixel :=
  if x0 = x1 then
    if y0 = y1 then [] else verticalPixels x0 y0 y1 thickness
  else if x0 > x1 then slopePixels up x1 y1 x0 y0 thickness
  else slopePixels up x0 y0 x1 y1 thickness

/-! ## CIRCLE (rule R72) -/

/-- `CIRCLE_ROUND` on the exact rational `num / den`, `den > 0`: the nearest integer, and on an exact tie one of the
two neighbours. These are exactly the values `|CIRCLE_ROUND(v) - v| <= 1/2` allows. -/
def circleRound (up : Rat → Bool) (num : Int) (den : Nat) : Int :=
  if 2 * (num % den) < den then num / den
  else if 2 * (num % den) > den then num / den + 1
  else if up (mkRat num den) then num / den + 1
  else num / den

/-- `CIRCLE_ROUND(radius * q)` for a table entry `q`. -/
def circleOffset (up : Rat → Bool) (radius : Int) (q : Rat) : Int := circleRound up (radius * q.num) q.den

/-- Sample `i`: `(cx - round(r sin), cy - round(r cos))`. -/
def circleSample (sin cos : Fin 180 → Rat) (up : Rat → Bool) (cx cy radius : Int) (i : Fin 180) : Pixel :=
  (cx - circleOffset up radius (sin i), cy - circleOffset up radius (cos i))

/-- The pixels of one sample: itself, or in filled mode the run from the centre column to it, both ends included. -/
def samplePixels (cx : Int) (filled : Bit) (p : Pixel) : List Pixel :=
  if filled = 0 then [p] else (intRange (min cx p.1) (max cx p.1)).map fun j => (j, p.2)

/-- CIRCLE's pixels over the 180 samples. -/
def circlePixels (sin cos : Fin 180 → Rat) (up : Rat → Bool) (cx cy radius : Int) (filled : Bit) : List Pixel :=
  (List.finRange 180).flatMap fun i => samplePixels cx filled (circleSample sin cos up cx cy radius i)

/-- The property a claim may assume of the trigonometric tables (rule R20): every entry is within `eps` of the true
sine or cosine of `2 i` degrees. -/
def TablesWithin (eps : Rat) (sin cos : Fin 180 → Rat) : Prop :=
  ∀ i : Fin 180, |(sin i : Real) - Real.sin (i.val * (Real.pi / 90))| ≤ eps ∧
    |(cos i : Real) - Real.cos (i.val * (Real.pi / 90))| ≤ eps

/-! ## RECT (rule R73) -/

/-- All pixels of columns `xa..xb`, rows `ya..yb`. -/
def boxPixels (xa ya xb yb : Int) : List Pixel :=
  (intRange ya yb).flatMap fun r => (intRange xa xb).map fun c => (c, r)

/-- The clipped extent along one axis: the origin clamps to 0, the size is cut at the edge and not reduced by the
clamped amount (D17). -/
structure Extent where
  first : Int
  size  : Int
deriving DecidableEq, Repr

def clip (origin size limit : Int) : Extent :=
  { first := max 0 origin, size := min size (limit - max 0 origin) }

/-- The fill pass: the whole clipped rectangle. -/
def fillPixels (x y : Extent) : List Pixel :=
  boxPixels x.first y.first (x.first + x.size - 1) (y.first + y.size - 1)

/-- The erase pass of outline mode: its strict interior. -/
def interiorPixels (x y : Extent) : List Pixel :=
  boxPixels (x.first + 1) (y.first + 1) (x.first + x.size - 2) (y.first + y.size - 2)

/-! ## Glyphs (rules R90, R91, R96, R97) -/

/-- `flip8(v)`: bit `i` is bit `7 - i` of `v`. -/
def flip8 (v : Byte) : Byte := v.reverse

/-- Bits `2 i` and `2 i + 1` both equal bit `i` of `v`, for the lowest `n` bits. -/
def stretchBits (v : Byte) : Nat → BitVec 16
  | 0 => 0
  | n + 1 => if v.getLsbD n then stretchBits v n ||| (3#16 <<< (2 * n)) else stretchBits v n

/-- `stretch16(v)` (rule R96). -/
def stretch16 (v : Byte) : BitVec 16 := stretchBits v 8

/-- `Glyph(c)` for a code in `32..127`, none otherwise (rule R90). -/
def glyphOf (table : Fin 96 → List Byte) (c : Int) : Option (List Byte) :=
  if h : 32 ≤ c ∧ c ≤ 127 then some (table ⟨(c - 32).toNat, by omega⟩) else none

/-- The glyphs of a string, none when any code has no glyph: the whole operation is then refused. -/
def glyphsOf (table : Fin 96 → List Byte) : List Int → Option (List (List Byte))
  | [] => some []
  | c :: cs =>
    match glyphOf table c, glyphsOf table cs with
    | some g, some gs => some (g :: gs)
    | _, _ => none

/-- The rows of one output column whose bit is set, as pixels relative to the character's top-left corner. -/
def columnPixels {n : Nat} (col : Int) (bits : BitVec n) : List Pixel :=
  (List.range n).filterMap fun k => if bits.getLsbD k then some (col, (k : Int)) else none

/-- The set pixels of a single-size character: column `j`, row `k` where bit `k` of the reversed glyph byte is set. -/
def glyphPixels (g : List Byte) : List Pixel :=
  g.zipIdx.flatMap fun (v, j) => columnPixels (j : Int) (flip8 v)

/-- `SMOOTH2X(f, j)` from the reversed column and its neighbours where they exist (rule R97): no smoothing where the
glyph has one column or both neighbours equal the column (property (c)); otherwise some pixels are added to the
stretched column (property (a)). These are exactly the functions the three properties allow. -/
def smooth2x (extra : Option Byte → Byte → Option Byte → BitVec 16 × BitVec 16)
    (left : Option Byte) (v : Byte) (right : Option Byte) : BitVec 16 × BitVec 16 :=
  if (left = none ∧ right = none) ∨ (left = some v ∧ right = some v) then (stretch16 v, stretch16 v)
  else (stretch16 v ||| (extra left v right).1, stretch16 v ||| (extra left v right).2)

/-- The set pixels of a double-size character: source column `j` becomes columns `2 j` and `2 j + 1`. -/
def glyph2xPixels (extra : Option Byte → Byte → Option Byte → BitVec 16 × BitVec 16) (g : List Byte) : List Pixel :=
  let f := g.map flip8
  f.zipIdx.flatMap fun (v, j) =>
    let out := smooth2x extra (if j = 0 then none else f[j - 1]?) v f[j + 1]?
    columnPixels (2 * (j : Int)) out.1 ++ columnPixels (2 * (j : Int) + 1) out.2

/-! ## Text layout (rules R92, R93, R95) -/

/-- The verdict of the wrap step. -/
inductive Verdict where
  | go
  | stop
deriving DecidableEq, Repr

/-- `WrapStep(x, y, wpx, row, wrap)` on a surface `w` by `h` (rule R95, D22). -/
def wrapStep (w h x y wpx row : Int) (wrap : Bit) : Int × Int × Verdict :=
  if x + wpx > w then
    if wrap = 1 then
      if y + 2 * row ≤ h then (0, y + row, .go) else (x, y, .stop)
    else if x ≥ w then (x, y, .stop)
    else (x, y, .go)
  else (x, y, .go)

/-- What distinguishes the two text sizes: the drawn width and the advance of a glyph, the row height, and the set
pixels of a character. -/
structure TextSize where
  width   : List Byte → Int
  advance : List Byte → Int
  row     : Int
  cell    : List Byte → List Pixel

/-- Single size (rule R92): advance by the glyph's width and 1 pixel of spacing, rows of 8. -/
def singleSize : TextSize where
  width g := g.length
  advance g := g.length + 1
  row := 8
  cell := glyphPixels

/-- Double size (rule R93): advance by the doubled width and 4 pixels of spacing (90_conflicts.md C1), rows of 16. -/
def doubleSize (extra : Option Byte → Byte → Option Byte → BitVec 16 × BitVec 16) : TextSize where
  width g := 2 * g.length
  advance g := 2 * g.length + 4
  row := 16
  cell := glyph2xPixels extra

/-- Where a text operation ends: the pixels it sets and the running position. -/
structure Layout where
  pixels : List Pixel
  x : Int
  y : Int
deriving DecidableEq, Repr

/-- The character loop of rules R92 and R93: wrap, place the character, advance; a `stop` ends it. -/
def layout (size : TextSize) (w h : Int) (wrap : Bit) : List (List Byte) → Int → Int → Layout
  | [], x, y => { pixels := [], x := x, y := y }
  | g :: gs, x, y =>
    match wrapStep w h x y (size.width g) size.row wrap with
    | (x', y', .stop) => { pixels := [], x := x', y := y' }
    | (x', y', .go) =>
      let rest := layout size w h wrap gs (x' + size.advance g) y'
      { rest with pixels := (size.cell g).map (fun p => (x' + p.1, y' + p.2)) ++ rest.pixels }

/-- `LENGTH_OF_STRING`: every glyph's width and one spacing pixel each (rule R94). -/
def stringLength : List (List Byte) → Int
  | [] => 0
  | g :: gs => g.length + 1 + stringLength gs

end Sys2Proof.Machine
end

