-- ==== Sys2Proof/WellFormed.lean ====
section
/-! DEFINITION. Well-formed instructions: the operand ranges the spec fixes beyond an operand's type. Coordinates,
sizes and INIT's operands are any integers (rule R53); only character codes and the four computed argument bytes
of rule R56 have a range. -/

namespace Sys2Proof

/-- A character code of the glyph table: `32..127` (41_text.md rule R90). -/
def printable (c : Int) : Bool := decide (32 ≤ c) && decide (c ≤ 127)

/-- Every character code has a glyph (rule R90); every computed argument byte lies in the range rule R56 gives it
for legal `W` and `H`. -/
def Instr.wellFormed : Instr → Bool
  | .init _ _ _ => true
  | .home => true
  | .move _ _ => true
  | .plot _ _ _ => true
  | .line _ _ _ _ _ _ => true
  | .circle _ _ _ _ _ => true
  | .rect _ _ _ _ _ _ => true
  | .text codes _ => codes.all printable
  | .text2x codes _ => codes.all printable
  | .lengthOfString codes => codes.all printable
  | .clear => true
  | .draw => true
  | .setInverse _ => true
  | .displayoff => true
  | .clockdiv => true
  | .multiplex a => decide (7 ≤ a.toNat) && decide (a.toNat ≤ 63) && decide ((a.toNat + 1) % 8 = 0)
  | .displayoffset => true
  | .startline => true
  | .chargepump => true
  | .memorymode => true
  | .segremap => true
  | .comscandec => true
  | .setcompins a => decide (a = 0x02) || decide (a = 0x12)
  | .contrast => true
  | .precharge => true
  | .vcomdetect => true
  | .displayallonResume => true
  | .normaldisplay => true
  | .displayon => true
  | .columnaddr b => decide (b.toNat ≤ 127)
  | .pageaddr b => decide (b.toNat ≤ 7)
  | .invertdisplay => true
  | .data => true

end Sys2Proof
end

