-- ==== Sys2Proof/Decode.lean ====
section
/-! DEFINITION. The decoder, total on every instruction word and rejecting by name, and the encoder, both from
30_encoding.md (rules R51 to R63) and the bytes of 43_wire_protocol.md (rules R131 to R151). -/

namespace Sys2Proof

/-- Why a word names no instruction. -/
inductive DecodeError where
  /-- Select codes `0xD`, `0xE`, `0xF` name no operation (rule R58). -/
  | reservedOp (op : BitVec 4)
  /-- The operands are not, in number and kind, those of the operation (rules R52, R53, R58). -/
  | operands (op : BitVec 4)
  /-- A one-bit operand is neither `0` nor `1` (rule R58). -/
  | oneBit (v : Int)
  /-- A bus write has at least its control byte (rule R54). -/
  | emptyWrite
  /-- A control byte other than `0x00` and `0x40` (rules R55, R59). -/
  | controlByte (b : Byte)
  /-- A command write without its command byte (rule R54). -/
  | noCommand
  /-- A command byte outside the set of rule R59. -/
  | commandByte (c : Byte)
  /-- The number of argument bytes is not the one the command byte fixes (rule R54). -/
  | writeLength (c : Byte)
  /-- A constant argument byte has another value than rules R132 to R148 give it. -/
  | argument (c : Byte)
  /-- The word of DATA is its control byte alone; its payload is the framebuffer, not an operand (rule R63). -/
  | dataPayload
deriving DecidableEq, Repr

/-! ## Decoding a descriptor -/

/-- A one-bit operand: `1` = set = true, `0` = clear = false, nothing else (rules R53, R58). -/
def decodeBit (v : Int) : Except DecodeError Bit :=
  if v = 0 then .ok 0 else if v = 1 then .ok 1 else .error (.oneBit v)

/-- An operation whose operands end in one one-bit operand. -/
def withBit (v : Int) (build : Bit → Instr) : Except DecodeError Instr :=
  match decodeBit v with
  | .ok b => .ok (build b)
  | .error e => .error e

/-- An operation whose operands end in two one-bit operands. -/
def withBits (v u : Int) (build : Bit → Bit → Instr) : Except DecodeError Instr :=
  match decodeBit v with
  | .ok b => withBit u (build b)
  | .error e => .error e

/-- INIT takes three integers, none with a default (rule R53). -/
def decodeInit : List Operand → Except DecodeError Instr
  | [.int addr, .int w, .int h] => .ok (.init addr w h)
  | _ => .error (.operands 0x0)

def decodeMove : List Operand → Except DecodeError Instr
  | [.int x, .int y] => .ok (.move x y)
  | _ => .error (.operands 0x2)

/-- PLOT: `color` defaults to `1` (rule R53). -/
def decodePlot : List Operand → Except DecodeError Instr
  | [.int x, .int y] => .ok (.plot x y 1)
  | [.int x, .int y, .int c] => withBit c (.plot x y)
  | _ => .error (.operands 0x3)

/-- LINE: `thickness` defaults to `1`, `color` to `1` (rule R53). -/
def decodeLine : List Operand → Except DecodeError Instr
  | [.int x0, .int y0, .int x1, .int y1] => .ok (.line x0 y0 x1 y1 1 1)
  | [.int x0, .int y0, .int x1, .int y1, .int t] => .ok (.line x0 y0 x1 y1 t 1)
  | [.int x0, .int y0, .int x1, .int y1, .int t, .int c] => withBit c (.line x0 y0 x1 y1 t)
  | _ => .error (.operands 0x4)

/-- CIRCLE: `color` defaults to `1`, `filled` to `0` (rule R53). -/
def decodeCircle : List Operand → Except DecodeError Instr
  | [.int cx, .int cy, .int r] => .ok (.circle cx cy r 1 0)
  | [.int cx, .int cy, .int r, .int c] => withBit c fun b => .circle cx cy r b 0
  | [.int cx, .int cy, .int r, .int c, .int f] => withBits c f (.circle cx cy r)
  | _ => .error (.operands 0x5)

/-- RECT: `color` defaults to `1`, `filled` to `0` (rule R53). -/
def decodeRect : List Operand → Except DecodeError Instr
  | [.int x, .int y, .int w, .int h] => .ok (.rect x y w h 1 0)
  | [.int x, .int y, .int w, .int h, .int c] => withBit c fun b => .rect x y w h b 0
  | [.int x, .int y, .int w, .int h, .int c, .int f] => withBits c f (.rect x y w h)
  | _ => .error (.operands 0x6)

/-- TEXT and TEXT_2X: `wrap` defaults to `1`, enabled (rule R53). -/
def decodeText (op : BitVec 4) (build : List Int → Bit → Instr) : List Operand → Except DecodeError Instr
  | [.str s] => .ok (build s 1)
  | [.str s, .int v] => withBit v (build s)
  | _ => .error (.operands op)

def decodeLengthOfString : List Operand → Except DecodeError Instr
  | [.str s] => .ok (.lengthOfString s)
  | _ => .error (.operands 0x9)

def decodeSetInverse : List Operand → Except DecodeError Instr
  | [.int v] => withBit v .setInverse
  | _ => .error (.operands 0xC)

/-- An operation without operands. -/
def decodeNone (op : BitVec 4) (i : Instr) : List Operand → Except DecodeError Instr
  | [] => .ok i
  | _ :: _ => .error (.operands op)

/-- Reads the select code (rule R51), then the operands of that operation (rule R52). -/
def decodeDescriptor (op : BitVec 4) (args : List Operand) : Except DecodeError Instr :=
  match op.toNat with
  | 0x0 => decodeInit args
  | 0x1 => decodeNone op .home args
  | 0x2 => decodeMove args
  | 0x3 => decodePlot args
  | 0x4 => decodeLine args
  | 0x5 => decodeCircle args
  | 0x6 => decodeRect args
  | 0x7 => decodeText op .text args
  | 0x8 => decodeText op .text2x args
  | 0x9 => decodeLengthOfString args
  | 0xA => decodeNone op .clear args
  | 0xB => decodeNone op .draw args
  | 0xC => decodeSetInverse args
  | _ => .error (.reservedOp op)

/-! ## Decoding a bus write -/

/-- Format WC1: no argument byte. -/
def decodeWC1 (c : Byte) (i : Instr) : List Byte → Except DecodeError Instr
  | [] => .ok i
  | _ :: _ => .error (.writeLength c)

/-- Format WC2 with a constant argument. -/
def decodeWC2const (c k : Byte) (i : Instr) : List Byte → Except DecodeError Instr
  | [a] => if a = k then .ok i else .error (.argument c)
  | _ => .error (.writeLength c)

/-- Format WC2 with a computed argument. -/
def decodeWC2 (c : Byte) (build : Byte → Instr) : List Byte → Except DecodeError Instr
  | [a] => .ok (build a)
  | _ => .error (.writeLength c)

/-- Format WC3: the first argument is the constant `0x00`, the second is computed (rules R147, R148). -/
def decodeWC3 (c : Byte) (build : Byte → Instr) : List Byte → Except DecodeError Instr
  | [a, b] => if a = 0x00 then .ok (build b) else .error (.argument c)
  | _ => .error (.writeLength c)

/-- The 19 command bytes (rule R59) with their formats (rule R54). -/
def decodeCommand (c : Byte) (args : List Byte) : Except DecodeError Instr :=
  match c.toNat with
  | 0xAE => decodeWC1 c .displayoff args
  | 0xD5 => decodeWC2const c 0x80 .clockdiv args
  | 0xA8 => decodeWC2 c .multiplex args
  | 0xD3 => decodeWC2const c 0x00 .displayoffset args
  | 0x40 => decodeWC1 c .startline args
  | 0x8D => decodeWC2const c 0x14 .chargepump args
  | 0x20 => decodeWC2const c 0x00 .memorymode args
  | 0xA1 => decodeWC1 c .segremap args
  | 0xC8 => decodeWC1 c .comscandec args
  | 0xDA => decodeWC2 c .setcompins args
  | 0x81 => decodeWC2const c 0x8F .contrast args
  | 0xD9 => decodeWC2const c 0xF1 .precharge args
  | 0xDB => decodeWC2const c 0x40 .vcomdetect args
  | 0xA4 => decodeWC1 c .displayallonResume args
  | 0xA6 => decodeWC1 c .normaldisplay args
  | 0xAF => decodeWC1 c .displayon args
  | 0x21 => decodeWC3 c .columnaddr args
  | 0x22 => decodeWC3 c .pageaddr args
  | 0xA7 => decodeWC1 c .invertdisplay args
  | _ => .error (.commandByte c)

/-- The control byte first (rule R55): `0x00` before a command, `0x40` for the data frame. Position decides, so
`[0x00, 0x40]` is STARTLINE. -/
def decodeWrite : List Byte → Except DecodeError Instr
  | [] => .error .emptyWrite
  | k :: rest =>
    if k = 0x00 then
      match rest with
      | [] => .error .noCommand
      | c :: args => decodeCommand c args
    else if k = 0x40 then
      match rest with
      | [] => .ok .data
      | _ :: _ => .error .dataPayload
    else .error (.controlByte k)

/-- The decoder, total on every word. -/
def decode : InstrWord → Except DecodeError Instr
  | .descriptor op args => decodeDescriptor op args
  | .busWrite bytes => decodeWrite bytes

/-! ## Encoding -/

/-- A one-bit operand as the integer the host passes. -/
def bitOperand (b : Bit) : Operand := .int b.toNat

/-- The word of an instruction: the descriptor with every operand present (rules R51, R52), or the bytes of the
bus write (rules R131 to R150). -/
def encode : Instr → InstrWord
  | .init addr w h => .descriptor 0x0 [.int addr, .int w, .int h]
  | .home => .descriptor 0x1 []
  | .move x y => .descriptor 0x2 [.int x, .int y]
  | .plot x y c => .descriptor 0x3 [.int x, .int y, bitOperand c]
  | .line x0 y0 x1 y1 t c => .descriptor 0x4 [.int x0, .int y0, .int x1, .int y1, .int t, bitOperand c]
  | .circle cx cy r c f => .descriptor 0x5 [.int cx, .int cy, .int r, bitOperand c, bitOperand f]
  | .rect x y w h c f => .descriptor 0x6 [.int x, .int y, .int w, .int h, bitOperand c, bitOperand f]
  | .text s v => .descriptor 0x7 [.str s, bitOperand v]
  | .text2x s v => .descriptor 0x8 [.str s, bitOperand v]
  | .lengthOfString s => .descriptor 0x9 [.str s]
  | .clear => .descriptor 0xA []
  | .draw => .descriptor 0xB []
  | .setInverse f => .descriptor 0xC [bitOperand f]
  | .displayoff => .busWrite [0x00, 0xAE]
  | .clockdiv => .busWrite [0x00, 0xD5, 0x80]
  | .multiplex a => .busWrite [0x00, 0xA8, a]
  | .displayoffset => .busWrite [0x00, 0xD3, 0x00]
  | .startline => .busWrite [0x00, 0x40]
  | .chargepump => .busWrite [0x00, 0x8D, 0x14]
  | .memorymode => .busWrite [0x00, 0x20, 0x00]
  | .segremap => .busWrite [0x00, 0xA1]
  | .comscandec => .busWrite [0x00, 0xC8]
  | .setcompins a => .busWrite [0x00, 0xDA, a]
  | .contrast => .busWrite [0x00, 0x81, 0x8F]
  | .precharge => .busWrite [0x00, 0xD9, 0xF1]
  | .vcomdetect => .busWrite [0x00, 0xDB, 0x40]
  | .displayallonResume => .busWrite [0x00, 0xA4]
  | .normaldisplay => .busWrite [0x00, 0xA6]
  | .displayon => .busWrite [0x00, 0xAF]
  | .columnaddr b => .busWrite [0x00, 0x21, 0x00, b]
  | .pageaddr b => .busWrite [0x00, 0x22, 0x00, b]
  | .invertdisplay => .busWrite [0x00, 0xA7]
  | .data => .busWrite [0x40]

/-- The bytes of a command write; none for an operation. -/
def commandBytes (i : Instr) : List Byte :=
  match encode i with
  | .busWrite bytes => bytes
  | .descriptor _ _ => []

/-- How many bytes the bus write with command byte `c` has (rules R54, R57); `none` where no command has it. -/
def commandLength (c : Byte) : Option Nat :=
  if c ∈ [0xAE, 0x40, 0xA1, 0xC8, 0xA4, 0xA6, 0xA7, 0xAF] then some 2
  else if c ∈ [0xD5, 0xA8, 0xD3, 0x8D, 0x20, 0xDA, 0x81, 0xD9, 0xDB] then some 3
  else if c ∈ [0x21, 0x22] then some 4
  else none

/-! ## The textual form -/

/-- The select code of the source's lower-case operation name (rules R51, R60). -/
def opOfName (name : String) : Option (BitVec 4) :=
  if name == "init" then some 0x0
  else if name == "home" then some 0x1
  else if name == "move" then some 0x2
  else if name == "plot" then some 0x3
  else if name == "line" then some 0x4
  else if name == "circle" then some 0x5
  else if name == "rect" then some 0x6
  else if name == "text" then some 0x7
  else if name == "text_2x" then some 0x8
  else if name == "length_of_string" then some 0x9
  else if name == "clear" then some 0xA
  else if name == "draw" then some 0xB
  else if name == "set_inverse" then some 0xC
  else none

/-- The call `name(operands)` of rule R60 as a descriptor; trailing operands with defaults may be left out. -/
def callWord (name : String) (operands : List Operand) : Option InstrWord :=
  (opOfName name).map fun op => .descriptor op operands

/-! ## The host's numbering of a table row -/

/-- The operands of operation `op` with every value zero (and strings empty): what a table word's bits above the
select code stand for. -/
def zeroOperands (op : Nat) : List Operand :=
  match op with
  | 0x0 => [.int 0, .int 0, .int 0]
  | 0x2 => [.int 0, .int 0]
  | 0x3 => [.int 0, .int 0, .int 0]
  | 0x4 => [.int 0, .int 0, .int 0, .int 0, .int 0, .int 0]
  | 0x5 => [.int 0, .int 0, .int 0, .int 0, .int 0]
  | 0x6 => [.int 0, .int 0, .int 0, .int 0, .int 0, .int 0]
  | 0x7 => [.str [], .int 0]
  | 0x8 => [.str [], .int 0]
  | 0x9 => [.str []]
  | 0xC => [.int 0]
  | _ => []

/-- The `n` bytes of `w` read as one big-endian number: the first byte sent is the most significant (rule R63). -/
def bigEndianBytes : Nat → Nat → List Byte
  | 0, _ => []
  | n + 1, w => BitVec.ofNat 8 (w >>> (8 * n)) :: bigEndianBytes n w

/-- The word a table row numbers `w` in `nbits` bits. Rows of one byte or less are operations when below 16 and
the control byte of DATA otherwise; longer rows are the bytes of a bus write (rule R63). -/
def tableWord (nbits w : Nat) : InstrWord :=
  if nbits ≤ 8 then
    if w < 16 then .descriptor (BitVec.ofNat 4 w) (zeroOperands w) else .busWrite [BitVec.ofNat 8 w]
  else .busWrite (bigEndianBytes (nbits / 8) w)

/-- The instruction the decoder reads from a table word. -/
def decodeTableWord (nbits w : Nat) : Option Instr :=
  match decode (tableWord nbits w) with
  | .ok i => some i
  | .error _ => none

end Sys2Proof
end

