-- ==== Sys2Proof/Machine/State.lean ====
section
/-! DEFINITION. The state as plain data: the block's architectural state, exactly the inventory of 10_state.md rule
R10; what stands on its two sides (the host's requests and the statuses it receives, the Bus Transport's answers and
the trace an observer sees), which rule R23 says is not the block's; and one counter of the model's own. -/

namespace Sys2Proof.Machine

/-- The session state `ST` (rules R11, R110). -/
inductive SessionState where
  | uninitialized
  | initializing
  | ready
deriving DecidableEq, Repr

/-- A level of the reset line (rule R15). -/
inductive Level where
  | low
  | high
deriving DecidableEq, Repr

/-- The four error conditions (rule R160). -/
inductive Condition where
  | configurationError
  | outOfRange
  | invalidArgument
  | busError
deriving DecidableEq, Repr

/-- How an operation ends (rule R160): `OK`, or exactly one condition. -/
inductive Status where
  | ok
  | raised (c : Condition)
deriving DecidableEq, Repr

/-- What the host receives when an operation ends: the status and, for LENGTH_OF_STRING, a value (rules R51, R94). -/
structure Reply where
  status : Status
  value  : Option Int
deriving DecidableEq, Repr

/-- An outward event (00_scope.md section 5.3). -/
inductive Event where
  | resetLine (level : Level)
  | delay (d : ResetDelay)
  | busWrite (addr : BitVec 7) (bytes : List Byte) (answer : BusResult)
deriving DecidableEq, Repr

/-- What the transport does with a write it is given: it answers, or it stays silent for ever (rules R168, R199). -/
inductive Answer where
  | answered (r : BusResult)
  | silent
deriving DecidableEq, Repr

/-- A request the host has ready. `chained` says that it is written on the session the request before it returns, so
that it is not issued when that one ends with an error status (rule R62). -/
structure Request where
  word    : InstrWord
  chained : Bool
deriving DecidableEq, Repr

/-- The framebuffer `FB` (rules R16, R30): `size` is its length `N`, `0` while it does not exist; `cells` lists the
bytes that are not zero, addresses strictly rising. -/
structure Memory where
  size  : Nat
  cells : List Host.Cell
deriving DecidableEq, Repr

/-- No framebuffer: the state before INIT allocates one (rule R25) and after a failed INIT discards it (D10). -/
def Memory.absent : Memory := { size := 0, cells := [] }

/-- The whole state. -/
structure State where
  /-- `ST` (rule R11). -/
  st : SessionState
  /-- `W`, an `Int` (rules R10, R12). -/
  w : Int
  /-- `H`, an `Int` (rules R10, R12). -/
  h : Int
  /-- `ADDR`, a `u7` (rule R13). -/
  addr : BitVec 7
  /-- `CX`, an `Int` (rule R14). -/
  cx : Int
  /-- `CY`, an `Int` (rule R14). -/
  cy : Int
  /-- `RST`, whose type in rule R10 is "`{low, high}` or no value". -/
  rst : Option Level
  /-- `FB` (rule R16). -/
  fb : Memory
  /-- The host's requests not yet taken, oldest first (rules R17, R41). Outside the block. -/
  requests : List Request
  /-- The statuses delivered to the host, oldest first (rules R23, R171). Outside the block. -/
  replies : List Reply
  /-- The transport's next answers; after these it answers with `Config.transportAnswer`. Outside the block. -/
  answers : List Answer
  /-- How many bus writes the transport has been given: the argument of `Config.transportAnswer`. Outside the block. -/
  writes : Nat
  /-- The trace, in the order performed (00_scope.md section 5.3, rule R23). Outside the block. -/
  trace : List Event
  /-- How many sessions were discarded by a failed INIT: the argument of the unspecified register values. The
  model's own. -/
  discards : Nat
deriving DecidableEq, Repr

/-- The machine stops. -/
inductive Fault where
  /-- The transport never answers a write (rule R199, U11: `stuck`), so the operation that made it never ends. Raised
  by INIT, DRAW, SET_INVERSE and every bus write when the script's next answer is `silent`. Safe: nothing is claimed
  of what follows. -/
  | transportSilent
deriving DecidableEq, Repr

/-- The spec gives the situation no meaning: `refuse` (00_scope.md section 5.4). All safe: no next state. -/
inductive Refusal where
  /-- An instruction whose meaning is not written. No arm of `exec` answers it. -/
  | notModelled (mnemonic : String)
  /-- The request is no instruction: a reserved select code, an operand outside its type, or bytes that are no bus
  write of the block (rules R58, R59; U3, U4). Raised by `step`. -/
  | notAnInstruction (e : DecodeError)
  /-- INIT while `ST` is not `Uninitialized` (rule R117; U1). Raised by INIT. -/
  | initNotAccepted
  /-- An operation other than INIT while `ST` is not `Ready` (rule R117; U2, U6). Raised by the other 12. -/
  | operationNotAccepted
  /-- A bus write while there is no session: `ADDR` has no value, so there is no address to write to (rules R13,
  R33). Raised by the 20 bus writes. -/
  | noSession
  /-- A bus write the block does not make in this session state: in `Ready` one of the 17 commands that only INIT
  sends (rules R131 to R148, R177), during INIT INVERTDISPLAY, which INIT never sends (rule R149). Raised by the bus
  writes other than NORMALDISPLAY and DATA. -/
  | notEmitted
  /-- A string with a character code outside `32..127` (rule R90; U5). Raised by TEXT, TEXT_2X and
  LENGTH_OF_STRING. -/
  | characterCode
deriving DecidableEq, Repr

/-- Power-on (rules R25, R190): `ST = Uninitialized`, `RST` without a value, no framebuffer; the other registers have
no value, which is any value (U7): opaque constants, never zero. Nothing has been requested, answered or sent. -/
def State.reset : State where
  st := .uninitialized
  w := Config.unspecifiedW 0
  h := Config.unspecifiedH 0
  addr := Config.unspecifiedAddr 0
  cx := Config.unspecifiedCX 0
  cy := Config.unspecifiedCY 0
  rst := none
  fb := Memory.absent
  requests := []
  replies := []
  answers := []
  writes := 0
  trace := []
  discards := 0

end Sys2Proof.Machine
end

