-- ==== Sys2Proof/Machine/Ops.lean ====
section
/-! DEFINITION. The named operations over the state: framebuffer bytes (20_memory.md), pixels (rule R70), ending an
operation and raising a condition (60_exceptions.md rule R171), bus writes and their answers (rule R168), and the life
of a session (42_session.md). -/

namespace Sys2Proof.Machine

/-! ## Framebuffer bytes (rules R30, R38 to R40) -/

/-- What an existing byte that is not listed reads as: INIT allocates the framebuffer and clears it before any read
(rules R26, R111). -/
def unlistedByte : Byte := 0x00

/-- The byte listed at `i`, or the unlisted value. -/
def lookupCell : List Host.Cell → Nat → Byte
  | [], _ => unlistedByte
  | c :: cs, i => if c.1 = i then c.2 else lookupCell cs i

/-- Lists byte `v` at `i`, keeping the canonical form. -/
def insertCell (i : Nat) (v : Byte) : List Host.Cell → List Host.Cell
  | [] => if v = unlistedByte then [] else [(i, v)]
  | c :: cs =>
    if i < c.1 then if v = unlistedByte then c :: cs else (i, v) :: c :: cs
    else if c.1 = i then if v = unlistedByte then cs else (i, v) :: cs
    else c :: insertCell i v cs

/-- The canonical form: addresses strictly rise, no listed byte equals the unlisted value, and every listed address
exists. -/
abbrev Memory.wf (m : Memory) : Prop :=
  m.cells.Pairwise (fun a b => a.1 < b.1) ∧ ∀ c ∈ m.cells, c.2 ≠ unlistedByte ∧ c.1 < m.size

/-- `FB[i]` for `i` in `0..N-1`; `none` where there is no such byte. -/
def Memory.read (m : Memory) (i : Nat) : Option Byte :=
  if i < m.size then some (lookupCell m.cells i) else none

/-- `FB[i] <- v`; no change where there is no such byte (an index rule R38 says is never generated). -/
def Memory.write (m : Memory) (i : Nat) (v : Byte) : Memory :=
  if i < m.size then { m with cells := insertCell i v m.cells } else m

/-- A framebuffer of `n` bytes, all zero. -/
def Memory.allocate (n : Nat) : Memory := { size := n, cells := [] }

/-- CLEAR: every byte `0x00`, the length unchanged (rule R74). -/
def Memory.clear (m : Memory) : Memory := { m with cells := [] }

/-- `FB[0], FB[1], ..., FB[N-1]` in ascending index order (rule R35). -/
def Memory.bytes (m : Memory) : List Byte := (List.range m.size).map (lookupCell m.cells)

/-! ## Pixels (rules R32, R70) -/

/-- Changes bit `b` of byte `i`: a read of one byte, then a write of the same byte (rule R39). -/
def Memory.putPixel (m : Memory) (i b : Nat) (c : Bit) : Memory :=
  match m.read i with
  | some v => m.write i (putBit v b c)
  | none => m

/-- `PlotPixel(x, y, c)`: an off-surface pixel is dropped (rule R70). -/
def plotPixel (c : Bit) (s : State) (p : Pixel) : State :=
  if inSurface s.w s.h p then { s with fb := s.fb.putPixel (pixelIndex s.w p.1 p.2) (pixelBit p.2) c } else s

/-- `PlotPixel` on each pixel of a list, in one colour. -/
def drawPixels (pixels : List Pixel) (c : Bit) (s : State) : State := pixels.foldl (plotPixel c) s

/-- Whether pixel `(x, y)` is set (rule R32); for an observer, no operation reads it (rule R31). -/
def State.pixel (s : State) (p : Pixel) : Bool :=
  (lookupCell s.fb.cells (pixelIndex s.w p.1 p.2)).getLsbD (pixelBit p.2)

/-! ## Ending an operation (rules R160, R171, R172) -/

/-- Ends an operation with status `OK` and perhaps a value. -/
def completeWith (value : Option Int) (s : State) : State :=
  { s with replies := s.replies ++ [{ status := .ok, value := value }] }

/-- Ends an operation with status `OK`. -/
def complete (s : State) : State := completeWith none s

/-- `raise E`, the block's whole "trap entry" (rule R171): the host receives the condition as the operation's status.
Nothing is saved, no mode changes, and what the operation did before stays done. Requests chained to the failed one
are not issued (rule R62). There is no return from it (rule R172): the next operation starts clean. -/
def raise (e : Condition) (s : State) : State :=
  { s with replies := s.replies ++ [{ status := .raised e, value := none }],
           requests := s.requests.dropWhile (·.chained) }

/-- Acceptance of an operation other than INIT (rule R117): only in `Ready`. -/
def whenReady (s : State) (run : State → Host.Outcome State Fault Refusal) : Host.Outcome State Fault Refusal :=
  if s.st = .ready then run s else .refused .operationNotAccepted

/-! ## The bus (rules R54, R168, R199) -/

/-- Appends an event to the trace. -/
def emit (e : Event) (s : State) : State := { s with trace := s.trace ++ [e] }

/-- The transport's answer to the next write, and the state with that answer used up. -/
def takeAnswer (s : State) : Answer × State :=
  match s.answers with
  | [] => (.answered (Config.transportAnswer s.writes), { s with writes := s.writes + 1 })
  | a :: rest => (a, { s with answers := rest, writes := s.writes + 1 })

/-- `BusWrite(ADDR, bytes)`: one event with its answer; `none` where the transport never answers. -/
def busWrite (bytes : List Byte) (s : State) : Option (BusResult × State) :=
  match takeAnswer s with
  | (.answered r, t) => some (r, emit (.busWrite s.addr bytes r) t)
  | (.silent, _) => none

/-- The writes in order, up to and including the first that answers `err` (rules R111, R167). -/
def sendAll : List (List Byte) → State → Option (BusResult × State)
  | [], s => some (.ok, s)
  | bytes :: rest, s =>
    match busWrite bytes s with
    | some (.ok, t) => sendAll rest t
    | some (.err, t) => some (.err, t)
    | none => none

/-- The data frame `[0x40] ++ [FB[0], ..., FB[N-1]]` (rules R35, R150). -/
def frame (s : State) : List Byte := 0x40 :: s.fb.bytes

/-- How an operation ends whose last act is one bus write (rules R114, R115, D14). -/
def finishWrite : BusResult → State → State
  | .ok, s => complete s
  | .err, s => raise .busError s

/-- An operation that makes one bus write. -/
def writeOperation (bytes : List Byte) (s : State) : Host.Outcome State Fault Refusal :=
  match busWrite bytes s with
  | some (r, t) => .next (finishWrite r t)
  | none => .fault .transportSilent

/-! ## The life of a session (rules R110, R111, R116) -/

/-- A failed INIT discards the session (D10): `ST = Uninitialized`, the registers have no value again, the
framebuffer is gone; `RST` keeps its level. -/
def discardSession (s : State) : State :=
  { s with st := .uninitialized
           w := Config.unspecifiedW (s.discards + 1)
           h := Config.unspecifiedH (s.discards + 1)
           addr := Config.unspecifiedAddr (s.discards + 1)
           cx := Config.unspecifiedCX (s.discards + 1)
           cy := Config.unspecifiedCY (s.discards + 1)
           fb := Memory.absent
           discards := s.discards + 1 }

/-- INIT after validation: the registers are written, the cursor is `(0, 0)` (D12), the framebuffer is allocated. -/
def openSession (addr w h : Int) (s : State) : State :=
  { s with w := w
           h := h
           addr := BitVec.ofInt 7 addr
           cx := 0
           cy := 0
           fb := Memory.allocate (surfaceBytes w h) }

/-- `ResetLine(level)`; the latch `RST` follows (rules R15, R192). -/
def driveResetLine (level : Level) (s : State) : State :=
  emit (.resetLine level) { s with rst := some level }

/-- The reset pulse (rule R116): low, delay, high, delay. -/
def resetPulse (s : State) : State :=
  emit (.delay .tRstHigh) (driveResetLine .high (emit (.delay .tRstLow) (driveResetLine .low s)))

/-- What an error of a bus write does to the operation that made it (rules R110, R165): during INIT the session is
discarded, in `Ready` nothing of the block changes. -/
def failWrite (s : State) : State :=
  if s.st = .initializing then raise .busError (discardSession s) else raise .busError s

/-- How one of the block's bus writes by itself ends: answered `ok` the emitting operation goes on, answered `err` it
ends with `BusError` (43_wire_protocol.md, "Common to all"). -/
def afterWrite : BusResult → State → State
  | .ok, s => s
  | .err, s => failWrite s

/-- Whether the instruction is one of the 13 operations of the host (rule R50), not a bus write. -/
def isOperation (i : Instr) : Bool :=
  match encode i with
  | .descriptor _ _ => true
  | .busWrite _ => false

/-- Whether the block makes bus write `i` while `ST` is `st`. INIT makes the 18 commands and the frame (rule R151) and
never INVERTDISPLAY (rule R149); in `Ready` only SET_INVERSE and DRAW write, so DISPLAYOFF, DISPLAYON and the other
commands are sent only inside INIT (rules R114, R115, R177). -/
def emittedIn (st : SessionState) (i : Instr) : Bool :=
  match st with
  | .uninitialized => false
  | .initializing => decide (i ≠ .invertdisplay)
  | .ready => decide (i = .normaldisplay ∨ i = .invertdisplay ∨ i = .data)

/-- The bytes of bus write `i`: those its encoding fixes, and for DATA the whole frame (rules R131 to R150). -/
def writeBytes (i : Instr) (s : State) : List Byte := if i = .data then frame s else commandBytes i

/-- One of the block's bus writes by itself, `BusWrite(ADDR, bytes)`, where the block makes it. -/
def wireWrite (i : Instr) (s : State) : Host.Outcome State Fault Refusal :=
  if s.st = .uninitialized then .refused .noSession
  else if emittedIn s.st i = true then
    match busWrite (writeBytes i s) s with
    | some (r, t) => .next (afterWrite r t)
    | none => .fault .transportSilent
  else .refused .notEmitted

/-- A session on the smallest surface of the spec's programs (8 by 8 at `0x3C`, vector V63) after the reset pulse of
INIT: with `ST = Ready` as INIT leaves it (rule R26), with `ST = Initializing` while INIT sends its commands. -/
def exampleSession (st : SessionState) (s : State) : State :=
  { openSession 0x3C 8 8 s with st := st, rst := some .high }

end Sys2Proof.Machine
end

