-- ==== Sys2Proof/Machine/Raster.lean ====
section
/-! DEFINITION. The framebuffer and rasterizer operations: PLOT, LINE, CIRCLE, RECT, CLEAR (40_raster.md). Each is
accepted only in `Ready`, makes no bus write, changes only `FB`, and always ends with `OK` (rule R75). -/

namespace Sys2Proof.Machine

/-- A drawing operation in one colour over a list of pixels. -/
def drawOperation (pixels : List Pixel) (c : Bit) (s : State) : Host.Outcome State Fault Refusal :=
  whenReady s fun s => .next (complete (drawPixels pixels c s))

/-- PLOT (rule R70). -/
def execPlot (x y : Int) (color : Bit) (s : State) : Host.Outcome State Fault Refusal :=
  whenReady s fun s => .next (complete (plotPixel color s (x, y)))

/-- LINE (rule R71) with a given rounding. -/
def lineWith (up : Rat → Bool) (x0 y0 x1 y1 thickness : Int) (color : Bit) (s : State) :
    Host.Outcome State Fault Refusal :=
  drawOperation (linePixels up x0 y0 x1 y1 thickness) color s

/-- LINE (rule R71). -/
def execLine (x0 y0 x1 y1 thickness : Int) (color : Bit) (s : State) : Host.Outcome State Fault Refusal :=
  lineWith Config.lineRoundsUp x0 y0 x1 y1 thickness color s

/-- CIRCLE (rule R72) with given tables and tie rule. -/
def circleWith (sin cos : Fin 180 → Rat) (up : Rat → Bool) (cx cy radius : Int) (color filled : Bit) (s : State) :
    Host.Outcome State Fault Refusal :=
  drawOperation (circlePixels sin cos up cx cy radius filled) color s

/-- CIRCLE (rule R72). -/
def execCircle (cx cy radius : Int) (color filled : Bit) (s : State) : Host.Outcome State Fault Refusal :=
  circleWith Config.sin Config.cos Config.circleTieUp cx cy radius color filled s

/-- The two passes of RECT: fill, then in outline mode erase the strict interior with colour 0 (D18). -/
def drawRect (x y w h : Int) (color filled : Bit) (s : State) : State :=
  let ex := clip x w s.w
  let ey := clip y h s.h
  let t := drawPixels (fillPixels ex ey) color s
  if filled = 0 then drawPixels (interiorPixels ex ey) 0 t else t

/-- RECT (rule R73). -/
def execRect (x y w h : Int) (color filled : Bit) (s : State) : Host.Outcome State Fault Refusal :=
  whenReady s fun s => .next (complete (drawRect x y w h color filled s))

/-- Zeroes the framebuffer (rule R74). -/
def clearFramebuffer (s : State) : State := { s with fb := s.fb.clear }

/-- CLEAR (rule R74). -/
def execClear (s : State) : Host.Outcome State Fault Refusal :=
  whenReady s fun s => .next (complete (clearFramebuffer s))

end Sys2Proof.Machine
end

