-- ==== Sys2Proof/Machine/Session.lean ====
section
/-! DEFINITION. The Display Session operations: INIT, HOME, MOVE, SET_INVERSE, DRAW (42_session.md). -/

namespace Sys2Proof.Machine

/-- The bytes of `Cmd[1..18]` (rule R151). -/
def initWrites (w h : Int) : List (List Byte) := (initCommands w h).map commandBytes

/-- The last step of INIT, S22 of rule R111: the frame; answered `ok`, the session is `Ready`. -/
def firstFrame (s : State) : Host.Outcome State Fault Refusal :=
  match busWrite (frame s) s with
  | none => .fault .transportSilent
  | some (.err, t) => .next (failWrite t)
  | some (.ok, t) => .next (complete { t with st := .ready })

/-- INIT from the reset pulse on (steps S0 to S22 of rule R111): the 18 command writes, CLEAR, the frame. A write that
answers `err` ends it with `BusError` and discards the session. -/
def construct (s : State) : Host.Outcome State Fault Refusal :=
  match sendAll (initWrites s.w s.h) (resetPulse s) with
  | none => .fault .transportSilent
  | some (.err, t) => .next (failWrite t)
  | some (.ok, t) => firstFrame (clearFramebuffer t)

/-- INIT (rule R111), accepted only in `Uninitialized` (rule R117). Validation precedes every event; `fail(E)` puts
`ST` back to `Uninitialized`. -/
def execInit (addr w h : Int) (s : State) : Host.Outcome State Fault Refusal :=
  if s.st = .uninitialized then
    if addrLegal addr ∧ dimsLegal w h then construct (openSession addr w h { s with st := .initializing })
    else .next (raise .configurationError { s with st := .uninitialized })
  else .refused .initNotAccepted

/-- `MOVE(x, y)`: the cursor is written only when the whole target is on the surface (rule R113, D16). -/
def moveTo (x y : Int) (s : State) : State :=
  if inSurface s.w s.h (x, y) then complete { s with cx := x, cy := y } else raise .outOfRange s

/-- HOME (rule R112): `MOVE(0, 0)`. -/
def execHome (s : State) : Host.Outcome State Fault Refusal :=
  whenReady s fun s => .next (moveTo 0 0 s)

/-- MOVE (rule R113). -/
def execMove (x y : Int) (s : State) : Host.Outcome State Fault Refusal :=
  whenReady s fun s => .next (moveTo x y s)

/-- SET_INVERSE (rule R114): INVERTDISPLAY for 1, NORMALDISPLAY for 0. -/
def execSetInverse (flag : Bit) (s : State) : Host.Outcome State Fault Refusal :=
  whenReady s (writeOperation (if flag = 1 then commandBytes .invertdisplay else commandBytes .normaldisplay))

/-- DRAW (rule R115): the whole framebuffer in one write. -/
def execDraw (s : State) : Host.Outcome State Fault Refusal :=
  whenReady s fun s => writeOperation (frame s) s

end Sys2Proof.Machine
end

