-- ==== Sys2Proof/Machine/Text.lean ====
section
/-! DEFINITION. The text operations: TEXT, TEXT_2X, LENGTH_OF_STRING (41_text.md). The `…With` forms take the glyph
table (and the smoothing) as arguments; the meanings pass the OPEN constants of `Config`. -/

namespace Sys2Proof.Machine

/-- Draws the laid-out pixels with colour 1 and writes the cursor back: `CX <- min(x, W - 1)`, `CY <- y` (rule R98). -/
def placeText (l : Layout) (s : State) : State :=
  { drawPixels l.pixels 1 s with cx := min l.x (s.w - 1), cy := l.y }

/-- The common body of TEXT and TEXT_2X (rules R92, R93): a code without a glyph refuses the whole operation (rule
R90), the empty string raises `InvalidArgument` before any change, otherwise the text is drawn from the cursor. -/
def drawText (size : TextSize) (table : Fin 96 → List Byte) (codes : List Int) (wrap : Bit) (s : State) :
    Host.Outcome State Fault Refusal :=
  match glyphsOf table codes with
  | none => .refused .characterCode
  | some [] => .next (raise .invalidArgument s)
  | some (g :: gs) => .next (complete (placeText (layout size s.w s.h wrap (g :: gs) s.cx s.cy) s))

/-- TEXT with a given glyph table. -/
def textWith (table : Fin 96 → List Byte) (codes : List Int) (wrap : Bit) (s : State) :
    Host.Outcome State Fault Refusal :=
  whenReady s (drawText singleSize table codes wrap)

/-- TEXT (rule R92). -/
def execText (codes : List Int) (wrap : Bit) (s : State) : Host.Outcome State Fault Refusal :=
  textWith Config.glyph codes wrap s

/-- TEXT_2X with a given glyph table and smoothing. -/
def text2xWith (extra : Option Byte → Byte → Option Byte → BitVec 16 × BitVec 16) (table : Fin 96 → List Byte)
    (codes : List Int) (wrap : Bit) (s : State) : Host.Outcome State Fault Refusal :=
  whenReady s (drawText (doubleSize extra) table codes wrap)

/-- TEXT_2X (rule R93). -/
def execText2x (codes : List Int) (wrap : Bit) (s : State) : Host.Outcome State Fault Refusal :=
  text2xWith Config.smoothExtra Config.glyph codes wrap s

/-- LENGTH_OF_STRING with a given glyph table: the value, status `OK`, nothing else (rule R94). -/
def lengthWith (table : Fin 96 → List Byte) (codes : List Int) (s : State) : Host.Outcome State Fault Refusal :=
  whenReady s fun s =>
    match glyphsOf table codes with
    | none => .refused .characterCode
    | some gs => .next (completeWith (some (stringLength gs)) s)

/-- LENGTH_OF_STRING (rule R94). -/
def execLengthOfString (codes : List Int) (s : State) : Host.Outcome State Fault Refusal :=
  lengthWith Config.glyph codes s

end Sys2Proof.Machine
end

