-- ==== Sys2Proof/Machine/Wire.lean ====
section
/-! DEFINITION. The 20 bus writes of 43_wire_protocol.md, each by itself: one `BusWrite` to `ADDR` of the bytes its row
gives, in the session states in which the block makes it (rule R177). INIT, DRAW and SET_INVERSE make them in the orders
of rules R111, R114 and R115. -/

namespace Sys2Proof.Machine

/-- DISPLAYOFF (rule R131). -/
def execDisplayoff (s : State) : Host.Outcome State Fault Refusal := wireWrite .displayoff s

/-- CLOCKDIV (rule R132). -/
def execClockdiv (s : State) : Host.Outcome State Fault Refusal := wireWrite .clockdiv s

/-- MULTIPLEX (rule R133). -/
def execMultiplex (a : Byte) (s : State) : Host.Outcome State Fault Refusal := wireWrite (.multiplex a) s

/-- DISPLAYOFFSET (rule R134). -/
def execDisplayoffset (s : State) : Host.Outcome State Fault Refusal := wireWrite .displayoffset s

/-- STARTLINE (rule R135). -/
def execStartline (s : State) : Host.Outcome State Fault Refusal := wireWrite .startline s

/-- CHARGEPUMP (rule R136). -/
def execChargepump (s : State) : Host.Outcome State Fault Refusal := wireWrite .chargepump s

/-- MEMORYMODE (rule R137). -/
def execMemorymode (s : State) : Host.Outcome State Fault Refusal := wireWrite .memorymode s

/-- SEGREMAP (rule R138). -/
def execSegremap (s : State) : Host.Outcome State Fault Refusal := wireWrite .segremap s

/-- COMSCANDEC (rule R139). -/
def execComscandec (s : State) : Host.Outcome State Fault Refusal := wireWrite .comscandec s

/-- SETCOMPINS (rule R140). -/
def execSetcompins (a : Byte) (s : State) : Host.Outcome State Fault Refusal := wireWrite (.setcompins a) s

/-- CONTRAST (rule R141). -/
def execContrast (s : State) : Host.Outcome State Fault Refusal := wireWrite .contrast s

/-- PRECHARGE (rule R142). -/
def execPrecharge (s : State) : Host.Outcome State Fault Refusal := wireWrite .precharge s

/-- VCOMDETECT (rule R143). -/
def execVcomdetect (s : State) : Host.Outcome State Fault Refusal := wireWrite .vcomdetect s

/-- DISPLAYALLON_RESUME (rule R144). -/
def execDisplayallonResume (s : State) : Host.Outcome State Fault Refusal := wireWrite .displayallonResume s

/-- NORMALDISPLAY (rule R145). -/
def execNormaldisplay (s : State) : Host.Outcome State Fault Refusal := wireWrite .normaldisplay s

/-- DISPLAYON (rule R146). -/
def execDisplayon (s : State) : Host.Outcome State Fault Refusal := wireWrite .displayon s

/-- COLUMNADDR (rule R147). -/
def execColumnaddr (b : Byte) (s : State) : Host.Outcome State Fault Refusal := wireWrite (.columnaddr b) s

/-- PAGEADDR (rule R148). -/
def execPageaddr (b : Byte) (s : State) : Host.Outcome State Fault Refusal := wireWrite (.pageaddr b) s

/-- INVERTDISPLAY (rule R149). -/
def execInvertdisplay (s : State) : Host.Outcome State Fault Refusal := wireWrite .invertdisplay s

/-- DATA (rule R150): the control byte `0x40` and all `N` framebuffer bytes in ascending index order. -/
def execData (s : State) : Host.Outcome State Fault Refusal := wireWrite .data s

end Sys2Proof.Machine
end

