-- ==== Sys2Proof/Machine/Dispatch.lean ====
section
/-! DEFINITION. The dispatch: one arm per instruction, each one call of its meaning. -/

namespace Sys2Proof.Machine

/-- The meaning of an instruction at a state. -/
def exec (i : Instr) (s : State) : Host.Outcome State Fault Refusal :=
  match i with
  | .init addr w h => Sys2Proof.Machine.execInit addr w h s
  | .home => Sys2Proof.Machine.execHome s
  | .move x y => Sys2Proof.Machine.execMove x y s
  | .plot x y color => Sys2Proof.Machine.execPlot x y color s
  | .line x0 y0 x1 y1 thickness color => Sys2Proof.Machine.execLine x0 y0 x1 y1 thickness color s
  | .circle cx cy radius color filled => Sys2Proof.Machine.execCircle cx cy radius color filled s
  | .rect x y w h color filled => Sys2Proof.Machine.execRect x y w h color filled s
  | .text codes wrap => Sys2Proof.Machine.execText codes wrap s
  | .text2x codes wrap => Sys2Proof.Machine.execText2x codes wrap s
  | .lengthOfString codes => Sys2Proof.Machine.execLengthOfString codes s
  | .clear => Sys2Proof.Machine.execClear s
  | .draw => Sys2Proof.Machine.execDraw s
  | .setInverse flag => Sys2Proof.Machine.execSetInverse flag s
  | .displayoff => Sys2Proof.Machine.execDisplayoff s
  | .clockdiv => Sys2Proof.Machine.execClockdiv s
  | .multiplex a => Sys2Proof.Machine.execMultiplex a s
  | .displayoffset => Sys2Proof.Machine.execDisplayoffset s
  | .startline => Sys2Proof.Machine.execStartline s
  | .chargepump => Sys2Proof.Machine.execChargepump s
  | .memorymode => Sys2Proof.Machine.execMemorymode s
  | .segremap => Sys2Proof.Machine.execSegremap s
  | .comscandec => Sys2Proof.Machine.execComscandec s
  | .setcompins a => Sys2Proof.Machine.execSetcompins a s
  | .contrast => Sys2Proof.Machine.execContrast s
  | .precharge => Sys2Proof.Machine.execPrecharge s
  | .vcomdetect => Sys2Proof.Machine.execVcomdetect s
  | .displayallonResume => Sys2Proof.Machine.execDisplayallonResume s
  | .normaldisplay => Sys2Proof.Machine.execNormaldisplay s
  | .displayon => Sys2Proof.Machine.execDisplayon s
  | .columnaddr b => Sys2Proof.Machine.execColumnaddr b s
  | .pageaddr b => Sys2Proof.Machine.execPageaddr b s
  | .invertdisplay => Sys2Proof.Machine.execInvertdisplay s
  | .data => Sys2Proof.Machine.execData s

end Sys2Proof.Machine
end

