-- ==== Sys2Proof/Machine/Step.lean ====
section
/-! DEFINITION. One step: the block takes the host's next request, decodes it and runs it to completion (10_state.md
rule R17, 20_memory.md rule R41). It fetches nothing and has no program counter. -/

namespace Sys2Proof.Machine

/-- With no request the block waits and nothing changes; otherwise the request is taken, decoded and run. -/
def step (s : State) : Host.Outcome State Fault Refusal :=
  match s.requests with
  | [] => .next s
  | r :: rest =>
    match decode r.word with
    | .ok i => exec i { s with requests := rest }
    | .error e => .refused (.notAnInstruction e)

/-- A session state in which `i` runs: `Uninitialized` for INIT, `Ready` for the other operations and for what they
write (rule R117), `Initializing` for the commands only INIT sends (rules R151, R177). -/
def acceptedIn (i : Instr) : SessionState :=
  match i with
  | .init _ _ _ => .uninitialized
  | _ => if isOperation i || emittedIn .ready i then .ready else .initializing

/-- What the very next step needs to accept `word`: INIT gets the state it is given, every other instruction a session
in the state it runs in, opened where the session is in another. -/
def readyFor (word : InstrWord) (s : State) : State :=
  match decode word with
  | .ok i => if acceptedIn i = .uninitialized ∨ s.st = acceptedIn i then s else exampleSession (acceptedIn i) s
  | .error _ => s

/-- `s` with the table word as the request the next step takes, and with a session where that word needs one. -/
def State.withFetchWord (s : State) (nbits w : Nat) : State :=
  let t := readyFor (tableWord nbits w) s
  { t with requests := { word := tableWord nbits w, chained := false } :: t.requests }

end Sys2Proof.Machine
end

