-- ==== Sys2Proof/Machine/Flags.lean ====
section
/-! DEFINITION. The block has no status flags, condition codes or predicates (10_state.md rule R18), so no operation
computes one. What it reports instead is a status per operation, delivered to the host and not kept (rule R161). -/

namespace Sys2Proof.Machine

/-- The number of a condition (rule R161, D15). -/
def Condition.code : Condition → Nat
  | .configurationError => 1
  | .outOfRange => 2
  | .invalidArgument => 3
  | .busError => 4

/-- The number of a status (rule R161): `OK` is 0. -/
def Status.code : Status → Nat
  | .ok => 0
  | .raised c => c.code

end Sys2Proof.Machine
end

