-- ==== Sys2Proof/Safety.lean ====
section
/-! DEFINITION. The terms claims are stated in: the invariant of the machine (10_state.md rules R14, R24), what two
states share, and what a safe run is. -/

namespace Sys2Proof.Machine

/-- What holds while `ST = Ready` (rule R24); `ADDR` in `0..127` is its type. -/
structure State.SessionInv (s : State) : Prop where
  dims   : dimsLegal s.w s.h
  bytes  : s.fb.size = surfaceBytes s.w s.h
  cursor : inSurface s.w s.h (s.cx, s.cy)
  line   : s.rst = some .high

/-- The invariant every step keeps: no operation is in progress between steps (rules R17, R110), memory is in
canonical form, there is no framebuffer outside a session (rules R25, R111), and rule R24 in a session. -/
structure State.Inv (s : State) : Prop where
  settled   : s.st ≠ .initializing
  memory    : s.fb.wf
  noSession : s.st = .uninitialized → s.fb = Memory.absent
  session   : s.st = .ready → s.SessionInv

/-- `ST`, `W`, `H`, `ADDR`, `RST` and the session counter are the same in both states. -/
structure State.SameSession (s t : State) : Prop where
  st       : t.st = s.st
  w        : t.w = s.w
  h        : t.h = s.h
  addr     : t.addr = s.addr
  rst      : t.rst = s.rst
  discards : t.discards = s.discards

/-- The cursor is the same in both states. -/
structure State.SameCursor (s t : State) : Prop where
  cx : t.cx = s.cx
  cy : t.cy = s.cy

/-- No event, no write given to the transport, no answer used: no outward effect. -/
structure State.Silent (s t : State) : Prop where
  trace   : t.trace = s.trace
  writes  : t.writes = s.writes
  answers : t.answers = s.answers

/-- The operation ended with `OK` and no value, and the host's requests are as they were. -/
structure State.EndsOk (s t : State) : Prop where
  replies  : t.replies = s.replies ++ [{ status := .ok, value := none }]
  requests : t.requests = s.requests

/-- The operation ended with condition `e`: the host receives it, and the requests chained to the failed operation are
not issued (rules R62, R171). -/
structure State.EndsWith (e : Condition) (s t : State) : Prop where
  replies  : t.replies = s.replies ++ [{ status := .raised e, value := none }]
  requests : t.requests = s.requests.dropWhile (·.chained)

/-- No byte of the framebuffer differs, nor its length. -/
structure State.SameFrame (s t : State) : Prop where
  size : t.fb.size = s.fb.size
  byte : ∀ a : Nat, t.fb.read a = s.fb.read a

/-- Only framebuffer bytes that hold an on-surface pixel of the list `ps` may differ; the length is the same. -/
structure State.OnlyBytesOf (ps : List Pixel) (s t : State) : Prop where
  size : t.fb.size = s.fb.size
  byte : ∀ a : Nat, (∀ q ∈ ps, inSurface s.w s.h q → pixelIndex s.w q.1 q.2 ≠ a) → t.fb.read a = s.fb.read a

/-- What every drawing operation leaves alone, and how it ends: session, cursor, outward side, status `OK`
(40_raster.md, "Common to all five"). -/
structure State.DrawingFrame (s t : State) : Prop where
  session : s.SameSession t
  cursor  : s.SameCursor t
  silent  : s.Silent t
  ends    : s.EndsOk t
  size    : t.fb.size = s.fb.size

/-! ## What a request may hold -/

/-- The type of an operand of an operation (rule R53). -/
inductive OperandType where
  | int
  | oneBit
  | str
deriving DecidableEq, Repr

/-- The operand is of the type: a one-bit operand is 0 or 1 (rule R58, D4). -/
def OperandType.Admits : OperandType → Operand → Prop
  | .int, .int _ => True
  | .oneBit, .int v => v = 0 ∨ v = 1
  | .str, .str _ => True
  | .int, .str _ | .oneBit, .str _ | .str, .int _ => False

/-- The operands of each select code (rule R51) with their types, those without a default first (rule R53); none for a
reserved code. -/
def operandTypes (op : BitVec 4) : Option (List OperandType × List OperandType) :=
  match op.toNat with
  | 0x0 => some ([.int, .int, .int], [])
  | 0x1 => some ([], [])
  | 0x2 => some ([.int, .int], [])
  | 0x3 => some ([.int, .int], [.oneBit])
  | 0x4 => some ([.int, .int, .int, .int], [.int, .oneBit])
  | 0x5 => some ([.int, .int, .int], [.oneBit, .oneBit])
  | 0x6 => some ([.int, .int, .int, .int], [.oneBit, .oneBit])
  | 0x7 => some ([.str], [.oneBit])
  | 0x8 => some ([.str], [.oneBit])
  | 0x9 => some ([.str], [])
  | 0xA => some ([], [])
  | 0xB => some ([], [])
  | 0xC => some ([.oneBit], [])
  | _ => none

/-- The descriptor is one of an operation: its select code is assigned and its operands are those of rule R51, each of
its type, with none but trailing operands with a default left out. -/
def FitsAnOperation (op : BitVec 4) (args : List Operand) : Prop :=
  ∃ required defaulted, operandTypes op = some (required, defaulted) ∧
    ∃ given, given <+: defaulted ∧ List.Forall₂ OperandType.Admits (required ++ given) args

/-- The bytes match one of the 20 patterns of 43_wire_protocol.md (rule R59). -/
def IsBlockWrite (bytes : List Byte) : Prop :=
  bytes ∈ [[0x00, 0xAE], [0x00, 0xD5, 0x80], [0x00, 0xD3, 0x00], [0x00, 0x40], [0x00, 0x8D, 0x14], [0x00, 0x20, 0x00],
    [0x00, 0xA1], [0x00, 0xC8], [0x00, 0x81, 0x8F], [0x00, 0xD9, 0xF1], [0x00, 0xDB, 0x40], [0x00, 0xA4], [0x00, 0xA6],
    [0x00, 0xAF], [0x00, 0xA7]] ∨
  (∃ a, bytes = [0x00, 0xA8, a]) ∨ (∃ a, bytes = [0x00, 0xDA, a]) ∨
  (∃ b, bytes = [0x00, 0x21, 0x00, b]) ∨ (∃ b, bytes = [0x00, 0x22, 0x00, b]) ∨ ∃ payload, bytes = 0x40 :: payload

/-! ## Where the block writes -/

/-- In the session state of `s` some operation of the block makes bus write `i`: INIT, in progress, all but
INVERTDISPLAY; in `Ready` SET_INVERSE the two polarity commands and DRAW the frame (rules R114, R115, R149, R151, R177). -/
def State.Makes (s : State) (i : Instr) : Prop :=
  isOperation i = false ∧
    ((s.st = .initializing ∧ i ≠ .invertdisplay) ∨
      (s.st = .ready ∧ (i = .normaldisplay ∨ i = .invertdisplay ∨ i = .data)))

/-! ## What text draws -/

/-- Pixel `(dx, dy)` of a single-size character, from its top-left corner, is set (rules R91, R92). -/
def SingleSizePixel (g : List Byte) (dx dy : Int) : Prop :=
  ∃ (j k : Nat) (b : Byte), g[j]? = some b ∧ k < 8 ∧ dx = j ∧ dy = k ∧ b.getLsbD (7 - k) = true

/-- Pixel `(dx, dy)` of a double-size character is set (rules R93, R97): source column `j`, smoothed from itself and the
columns to its left and right where they exist, becomes columns `2 j` and `2 j + 1`. -/
def DoubleSizePixel (extra : Option Byte → Byte → Option Byte → BitVec 16 × BitVec 16) (g : List Byte) (dx dy : Int) :
    Prop :=
  ∃ (j k : Nat) (b : Byte), g[j]? = some b ∧ k < 16 ∧ dy = k ∧
    let left := if j = 0 then none else g[j - 1]?.map flip8
    let out := smooth2x extra left (flip8 b) (g[j + 1]?.map flip8)
    ((dx = 2 * j ∧ out.1.getLsbD k = true) ∨ (dx = 2 * j + 1 ∧ out.2.getLsbD k = true))

/-- The course of a text operation over the glyphs `gs` on a surface `w` by `h` (rules R92, R93, R95): `m` characters are
drawn; `position n` is the running position before character `n`, `origin n` where it is drawn. A column of a glyph is `scale`
pixels wide, a row of characters `row` pixels high. -/
structure TextRun (w h : Int) (wrap : Bit) (scale row spacing : Int) (gs : List (List Byte)) (start : Pixel)
    (m : Nat) (position origin : Nat → Pixel) : Prop where
  first : position 0 = start
  count : m ≤ gs.length
  place : ∀ n g, n < m → gs[n]? = some g →
    (origin n = position n ∧
        ((position n).1 + scale * g.length ≤ w ∨ (wrap = 0 ∧ (position n).1 < w))) ∨
      (origin n = (0, (position n).2 + row) ∧ w < (position n).1 + scale * g.length ∧ wrap = 1 ∧
        (position n).2 + 2 * row ≤ h)
  next : ∀ n g, n < m → gs[n]? = some g →
    position (n + 1) = ((origin n).1 + scale * g.length + spacing, (origin n).2)
  stop : ∀ g, gs[m]? = some g →
    w < (position m).1 + scale * g.length ∧ (wrap = 1 → h < (position m).2 + 2 * row) ∧ (wrap = 0 → w ≤ (position m).1)

/-! ## Runs -/

/-- The transport answers every write (the premise rule R199 asks a claim to state). -/
def State.Answering (s : State) : Prop := ∀ a ∈ s.answers, a ≠ .silent

/-- `k` steps from `s` raise no fault; a refused request ends the run. -/
def State.Safe : Nat → State → Prop
  | 0, _ => True
  | k + 1, s =>
    match step s with
    | .next t => t.Safe k
    | .fault _ => False
    | .refused _ => True

end Sys2Proof.Machine
end

