-- ==== Sys2Proof/Certificates/Slice0/Obligations.lean ====
section
/-! DEFINITION. The statements for the provers, from the numbered rules of spec/. Each says which rule or section it
formalises; a statement that rests on a decision of the spec (92_eei_decisions.md) or on an entry of the model's
assumption log says so. -/

open Sys2Proof Sys2Proof.Machine

/-! ## Encoding -/

/-- 30_encoding.md rules R52, R54, R63: decoding the word of an instruction gives the instruction back, for every
instruction and every operand value. -/
def Obligations.DecodeInvertsEncode : Prop :=
  ∀ i : Instr, decode (encode i) = .ok i

/-- Rules R54, R63: a bus write that decodes is exactly the encoding of what it decodes to, so no byte is dropped and no
two writes share an instruction. DATA's word is its control byte alone, and `[0x40, payload...]`, the form rules R54 and
R150 give the write on the bus, decodes to nothing: the model's choice, log entry 19. -/
def Obligations.BusWriteWordsAreExact : Prop :=
  ∀ (bytes : List Byte) (i : Instr), decode (.busWrite bytes) = .ok i → encode i = .busWrite bytes

/-- Rules R52, R53: a descriptor decodes to an instruction exactly when it is the encoding of that instruction with
trailing operands left out, or none, and those left out have the defaults of rule R53 (`thickness` 1, `color` 1, `filled`
0, `wrap` 1; decisions D4, D22). So every omission rule R53 allows decodes, and no other. -/
def Obligations.DescriptorsOmitOnlyDefaults : Prop :=
  ∀ (op : BitVec 4) (args : List Operand) (i : Instr), decode (.descriptor op args) = .ok i ↔
    ∃ rest : List Operand, encode i = .descriptor op (args ++ rest) ∧
      rest <:+ (match op.toNat with
        | 0x3 => [.int 1]
        | 0x4 => [.int 1, .int 1]
        | 0x5 => [.int 1, .int 0]
        | 0x6 => [.int 1, .int 0]
        | 0x7 => [.int 1]
        | 0x8 => [.int 1]
        | _ => [])

/-- Words written out from rule R51's table (the codes are decision D2), rule R151's table and rule R63 decode to the
instructions they stand for. The omitted colour of PLOT and wrap of TEXT are 1 by rule R53 (decisions D4, D22); that
DATA's word is the control byte alone is rule R63's layout of the table and log entry 19. -/
def Obligations.WordsOfTheTableDecode : Prop :=
  decode (.descriptor 0b0000 [.int 60, .int 128, .int 64]) = .ok (.init 60 128 64) ∧
  decode (.descriptor 0b0011 [.int 3, .int 4]) = .ok (.plot 3 4 1) ∧
  decode (.descriptor 0b0110 [.int 10, .int 10, .int 20, .int 20, .int 1, .int 1]) = .ok (.rect 10 10 20 20 1 1) ∧
  decode (.descriptor 0b0111 [.str [65, 33]]) = .ok (.text [65, 33] 1) ∧
  decode (.busWrite [0b00000000, 0b10101110]) = .ok .displayoff ∧
  decode (.busWrite [0b00000000, 0b10101000, 0b00111111]) = .ok (.multiplex 63) ∧
  decode (.busWrite [0b00000000, 0b00100001, 0b00000000, 0b01111111]) = .ok (.columnaddr 127) ∧
  decode (.busWrite [0b00000000, 0b01000000]) = .ok .startline ∧
  decode (.busWrite [0b01000000]) = .ok .data

/-- Rules R52, R53, R58, R59 (decisions D2, D4): a request that is no instruction is refused by the step, whatever the
state: no next state, no status. That is a reserved select code; a one-bit operand of another value (refused under that
value's name; of two, the first); a descriptor with the wrong number or kind of operands; bytes outside the 20 patterns.
The last clause, a data frame with a payload of the host's, is the model's choice, log entry 19. -/
def Obligations.ReservedRequestsRefused : Prop :=
  (∀ (s : State) (op : BitVec 4) (args : List Operand) (c : Bool) (rest : List Request),
      13 ≤ op.toNat → s.requests = ⟨.descriptor op args, c⟩ :: rest →
        step s = .refused (.notAnInstruction (.reservedOp op))) ∧
  (∀ (s : State) (op : BitVec 4) (args : List Operand) (v : Int) (c : Bool) (rest : List Request),
      v ≠ 0 → v ≠ 1 → s.requests = ⟨.descriptor op args, c⟩ :: rest →
      ((∃ x y, op = 0x3 ∧ args = [.int x, .int y, .int v]) ∨
       (∃ a b d e t, op = 0x4 ∧ args = [.int a, .int b, .int d, .int e, .int t, .int v]) ∨
       (∃ a b r, op = 0x5 ∧ args = [.int a, .int b, .int r, .int v]) ∨
       (∃ a b r f, op = 0x5 ∧ args = [.int a, .int b, .int r, .int v, .int f]) ∨
       (∃ a b r, ∃ k : Bit, op = 0x5 ∧ args = [.int a, .int b, .int r, bitOperand k, .int v]) ∨
       (∃ x y w h, op = 0x6 ∧ args = [.int x, .int y, .int w, .int h, .int v]) ∨
       (∃ x y w h f, op = 0x6 ∧ args = [.int x, .int y, .int w, .int h, .int v, .int f]) ∨
       (∃ x y w h, ∃ k : Bit, op = 0x6 ∧ args = [.int x, .int y, .int w, .int h, bitOperand k, .int v]) ∨
       (∃ codes, op = 0x7 ∧ args = [.str codes, .int v]) ∨
       (∃ codes, op = 0x8 ∧ args = [.str codes, .int v]) ∨
       (op = 0xC ∧ args = [.int v])) →
        step s = .refused (.notAnInstruction (.oneBit v))) ∧
  (∀ (s : State) (op : BitVec 4) (args : List Operand) (c : Bool) (rest : List Request),
      ¬ FitsAnOperation op args → s.requests = ⟨.descriptor op args, c⟩ :: rest →
        ∃ e, step s = .refused (.notAnInstruction e)) ∧
  (∀ (s : State) (bytes : List Byte) (c : Bool) (rest : List Request),
      ¬ IsBlockWrite bytes → s.requests = ⟨.busWrite bytes, c⟩ :: rest →
        ∃ e, step s = .refused (.notAnInstruction e)) ∧
  (∀ (s : State) (payload : List Byte) (c : Bool) (rest : List Request),
      payload ≠ [] → s.requests = ⟨.busWrite (0x40 :: payload), c⟩ :: rest →
        step s = .refused (.notAnInstruction .dataPayload))

/-! ## The step -/

/-- Rules R17, R41: the step takes the host's next request, and is the meaning of the instruction it decodes to at the
state without that request; with no request nothing changes (log entry 4). -/
def Obligations.StepRunsTheDecodedRequest : Prop :=
  (∀ (s : State) (r : Request) (rest : List Request) (i : Instr),
      s.requests = r :: rest → decode r.word = .ok i → step s = exec i { s with requests := rest }) ∧
  (∀ s : State, s.requests = [] → step s = .next s)

/-- Rules R17, R52: a request that holds the encoding of an instruction runs that instruction. For the 13 operations the
request is the descriptor of rule R52; that requests form a list the step takes from is log entry 4, and that a request
may hold the bytes of one of the 20 bus writes, which the block emits and no host issues, is log entry 6. -/
def Obligations.EncodedRequestRunsItsInstruction : Prop :=
  ∀ (s : State) (i : Instr) (c : Bool) (rest : List Request),
    step { s with requests := ⟨encode i, c⟩ :: rest } = exec i { s with requests := rest }

/-- Rule R117 (decision D11): INIT is refused outside `Uninitialized`, each of the other 12 operations outside
`Ready`: no next state, so no status and no trace event. -/
def Obligations.OperationsRefusedInTheWrongState : Prop :=
  (∀ (s : State) (addr w h : Int), s.st ≠ .uninitialized → exec (.init addr w h) s = .refused .initNotAccepted) ∧
  (∀ (s : State) (i : Instr), isOperation i = true → (∀ addr w h, i ≠ .init addr w h) → s.st ≠ .ready →
      exec i s = .refused .operationNotAccepted)

/-- Rules R13, R33, R149, R177 and log entries 6 and 7: none of the 20 bus writes is made while there is no session; in
`Ready` none but the two polarity commands and the frame, so DISPLAYOFF and DISPLAYON are sent only inside INIT; during
INIT never INVERTDISPLAY. -/
def Obligations.BusWritesOnlyWhereTheBlockMakesThem : Prop :=
  (∀ (s : State) (i : Instr), isOperation i = false → s.st = .uninitialized → exec i s = .refused .noSession) ∧
  (∀ (s : State) (i : Instr), isOperation i = false → s.st = .ready →
    i ≠ .normaldisplay → i ≠ .invertdisplay → i ≠ .data → exec i s = .refused .notEmitted) ∧
  (∀ s : State, s.st = .initializing → exec .invertdisplay s = .refused .notEmitted)

/-- Rules R131 to R149, R177: from a state with the invariant the bytes of DISPLAYOFF, DISPLAYON and the other commands only
INIT sends are added to the trace only by an INIT, those of NORMALDISPLAY (decision D13) only by an INIT or a SET_INVERSE of 0, and
those of INVERTDISPLAY only by a SET_INVERSE of 1; the two polarity writes also as steps by themselves (log entry 6). -/
def Obligations.CommandsAreSentOnlyByTheirOperations : Prop :=
  ∀ (s t : State) (i : Instr) (es : List Event) (j : Instr) (a : BitVec 7) (r : BusResult),
    s.Inv → exec i s = .next t → t.trace = s.trace ++ es → isOperation j = false → j ≠ .data →
    Event.busWrite a (commandBytes j) r ∈ es →
    (j = .normaldisplay ∧ (i = .setInverse 0 ∨ i = .normaldisplay)) ∨
    (j = .invertdisplay ∧ (i = .setInverse 1 ∨ i = .invertdisplay)) ∨
    (j ≠ .invertdisplay ∧ ∃ addr w h, i = .init addr w h)

/-! ## Reset and the invariant -/

/-- Rule R190: at power-on `ST` is `Uninitialized`, the reset line has no value, no framebuffer byte exists; nothing
has been sent and no status delivered (log entry 10). -/
def Obligations.PowerOnState : Prop :=
  State.reset.st = .uninitialized ∧ State.reset.rst = none ∧ (∀ a, State.reset.fb.read a = none) ∧
    State.reset.trace = [] ∧ State.reset.replies = []

/-- Rules R24, R25: the power-on state meets the invariant. -/
def Obligations.PowerOnMeetsTheInvariant : Prop := State.reset.Inv

/-- Rule R24: while `ST = Ready`, `H mod 8 = 0`, `N = W * (H/8) = len(FB)`, the cursor is on the surface and `RST` is
high (`ADDR` is in `0..127` by its type); every step preserves this, and that the framebuffer is in canonical form, is
absent without a session, and that no operation is left in progress. -/
def Obligations.StepsKeepTheInvariant : Prop :=
  (∀ s t : State, s.Inv → step s = .next t → t.Inv) ∧
  (∀ (i : Instr) (s t : State), s.Inv → exec i s = .next t → t.Inv)

/-- Rule R110: no step leaves `Ready`; from `Uninitialized` a step leads to `Ready` only by an INIT that completed with
status `OK`. -/
def Obligations.SessionStateMovesOnlyByInit : Prop :=
  ∀ s t : State, s.Inv → step s = .next t →
    (s.st = .ready → t.st = .ready) ∧
    (s.st = .uninitialized → t.st = .uninitialized ∨
      (t.st = .ready ∧ t.replies = s.replies ++ [⟨.ok, none⟩] ∧
        ∃ r rest addr w h, s.requests = r :: rest ∧ decode r.word = .ok (.init addr w h)))

/-- Rule R199: while the transport answers every write, no run faults. The premise is on the script of answers alone; that
a write can go unanswered only by the script, and that the oracle of log entry 8 answers every write after it, is the
model's choice, log entry 9. -/
def Obligations.AnsweredRunsNeverFault : Prop :=
  ∀ (k : Nat) (s : State), s.Answering → s.Safe k

/-! ## Whole-machine rules -/

/-- Rule R27's table (which the spec derives from the operation rules), for every instruction that ends in a next state
from `Ready`: session registers are never written; the cursor only by HOME, MOVE, TEXT and TEXT_2X (rule R203); the
framebuffer only by the drawing and text operations; no operation but DRAW and SET_INVERSE has an outward effect. The
table is of the 13 operations; that the bus writes as steps by themselves (log entry 6) write no register and no byte of
the framebuffer is added here. -/
def Obligations.ReadyAccessTable : Prop :=
  ∀ (i : Instr) (s t : State), s.st = .ready → exec i s = .next t →
    s.SameSession t ∧
    ((i ≠ .home ∧ (∀ x y, i ≠ .move x y) ∧ (∀ c v, i ≠ .text c v) ∧ (∀ c v, i ≠ .text2x c v)) → s.SameCursor t) ∧
    (((∀ x y c, i ≠ .plot x y c) ∧ (∀ a b d e k c, i ≠ .line a b d e k c) ∧ (∀ a b r c f, i ≠ .circle a b r c f) ∧
      (∀ x y w h c f, i ≠ .rect x y w h c f) ∧ i ≠ .clear ∧ (∀ c v, i ≠ .text c v) ∧ (∀ c v, i ≠ .text2x c v)) →
        t.fb = s.fb) ∧
    ((isOperation i = true ∧ i ≠ .draw ∧ (∀ f, i ≠ .setInverse f)) → s.Silent t)

/-- Rules R18, R23, R171: a step never takes back an event or a delivered status. -/
def Obligations.StepsOnlyAppendToTraceAndReplies : Prop :=
  ∀ s t : State, step s = .next t → s.trace <+: t.trace ∧ s.replies <+: t.replies

/-- Rules R160, R166: every operation that ends, ends with exactly one status: `OK`, or its own condition; PLOT, LINE,
CIRCLE, RECT, CLEAR, HOME and LENGTH_OF_STRING end only with `OK`, as does text that is not empty, whether it fits or
not; no condition carries a value, and only LENGTH_OF_STRING returns one. -/
def Obligations.EveryOperationEndsWithOneOfItsStatuses : Prop :=
  ∀ (i : Instr) (s t : State), isOperation i = true → s.Inv → exec i s = .next t →
    ∃ r : Reply, t.replies = s.replies ++ [r] ∧
      ((∀ codes, i ≠ .lengthOfString codes) → r.value = none) ∧
      r.status ∈ (match i with
        | .init _ _ _ => [.ok, .raised .configurationError, .raised .busError]
        | .move _ _ => [.ok, .raised .outOfRange]
        | .text codes _ => if codes = [] then [.raised .invalidArgument] else [.ok]
        | .text2x codes _ => if codes = [] then [.raised .invalidArgument] else [.ok]
        | .draw => [.ok, .raised .busError]
        | .setInverse _ => [.ok, .raised .busError]
        | _ => [.ok] : List Status)

/-- Rules R33, R56, R57, R59: what an operation writes to the bus goes to `ADDR` alone, and is a data frame of `N + 1`
bytes or a command of the set of rule R59 with its arguments in the ranges of rule R56. -/
def Obligations.OperationsEmitOnlyTheTwentyWrites : Prop :=
  ∀ (i : Instr) (s t : State), isOperation i = true → s.Inv → exec i s = .next t →
    ∃ es : List Event, t.trace = s.trace ++ es ∧
      ∀ (a : BitVec 7) (bytes : List Byte) (r : BusResult), Event.busWrite a bytes r ∈ es →
        (a = match i with | .init addr _ _ => BitVec.ofInt 7 addr | _ => s.addr) ∧
        ((∃ payload, bytes = 0x40 :: payload ∧
            payload.length = match i with | .init _ w h => surfaceBytes w h | _ => surfaceBytes s.w s.h) ∨
          ∃ j : Instr, j ≠ .data ∧ decode (.busWrite bytes) = .ok j ∧ j.wellFormed = true)

/-- Rule R44: the framebuffer's contents never alter which operations run or what they do, except through the data they
leave: with another framebuffer, every instruction other than DRAW and DATA ends the same way in a state that differs in the
framebuffer alone. -/
def Obligations.FramebufferNeverSteersTheBlock : Prop :=
  ∀ (i : Instr) (s t : State) (m : Memory), i ≠ .draw → i ≠ .data → exec i s = .next t →
      ∃ m' : Memory, exec i { s with fb := m } = .next { t with fb := m' }

/-! ## The framebuffer -/

/-- Rule R32: in a session the pixels of the surface and the bits of the framebuffer correspond one to one, by
`index(x, y) = (y >> 3) * W + x` and `bit(y) = y mod 8`. -/
def Obligations.PixelsAreTheBitsOfTheFramebuffer : Prop :=
  ∀ s : State, s.Inv → s.st = .ready →
    (∀ x y : Int, inSurface s.w s.h (x, y) → (y / 8 * s.w + x).toNat < s.fb.size ∧
      s.pixel (x, y) = ((s.fb.read (y / 8 * s.w + x).toNat).getD 0).getLsbD (y % 8).toNat) ∧
    (∀ i b : Nat, i < s.fb.size → b < 8 →
      ∃! p : Pixel, inSurface s.w s.h p ∧ (p.2 / 8 * s.w + p.1).toNat = i ∧ (p.2 % 8).toNat = b)

/-- Rule R77: within one colour the order and the repetition of pixel writes are not observable: lists with the same
pixels leave equal states. -/
def Obligations.DrawingOrderIsUnobservable : Prop :=
  ∀ (s : State) (ps qs : List Pixel) (c : Bit), s.Inv → s.st = .ready → (∀ p, p ∈ ps ↔ p ∈ qs) →
    drawPixels ps c s = drawPixels qs c s

/-- Rule R70: PLOT sets or clears one bit of one byte, `FB[(y >> 3) * W + x]` bit `y mod 8`, and an off-surface pixel
changes nothing; everything else is as before and the status is `OK`. -/
def Obligations.PlotResult : Prop :=
  ∀ (s : State) (x y : Int) (c : Bit), s.Inv → s.st = .ready →
    ∃ t, exec (.plot x y c) s = .next t ∧ s.DrawingFrame t ∧
      ((x < 0 ∨ s.w ≤ x ∨ y < 0 ∨ s.h ≤ y) → t.fb = s.fb) ∧
      ((0 ≤ x ∧ x < s.w ∧ 0 ≤ y ∧ y < s.h) →
        ∃ v : Byte, s.fb.read (y / 8 * s.w + x).toNat = some v ∧
          t.fb.read (y / 8 * s.w + x).toNat =
            some (if c = 1 then v ||| (1#8 <<< (y % 8).toNat) else v &&& ~~~(1#8 <<< (y % 8).toNat)) ∧
          ∀ a, a ≠ (y / 8 * s.w + x).toNat → t.fb.read a = s.fb.read a)

/-- Rule R70 corner case (d), 90_conflicts.md C8: setting and then clearing an on-surface pixel that was clear restores
the framebuffer. -/
def Obligations.SetThenClearRestores : Prop :=
  ∀ (s : State) (x y : Int), s.Inv → s.st = .ready → inSurface s.w s.h (x, y) → s.pixel (x, y) = false →
    ∃ t u, exec (.plot x y 1) s = .next t ∧ exec (.plot x y 0) t = .next u ∧
      t.pixel (x, y) = true ∧ u.fb = s.fb

/-- Rule R71 (decisions D19, D20): LINE plots, in its colour, one pixel per row of the vertical branch or per column of
the sloped branch, end included, in `thickness` passes; the cross-axis offset is within 1 of the exact one and equals
it where that is an integer. Every other pixel keeps its value. -/
def Obligations.LineResult : Prop :=
  (∀ (s : State) (x0 y0 x1 y1 k : Int) (c : Bit), s.Inv → s.st = .ready →
    ∃ t, exec (.line x0 y0 x1 y1 k c) s = .next t ∧ s.DrawingFrame t ∧
      ∀ q : Pixel, inSurface s.w s.h q →
        let drawn : Prop :=
          (x0 = x1 ∧ y0 ≠ y1 ∧ x0 ≤ q.1 ∧ q.1 < x0 + k ∧ min y0 y1 ≤ q.2 ∧ q.2 ≤ max y0 y1) ∨
          (x0 < x1 ∧ x0 ≤ q.1 ∧ q.1 ≤ x1 ∧ ∃ i, 0 ≤ i ∧ i < k ∧
            q.2 = y0 + lineRound Config.lineRoundsUp ((y1 - y0) * (q.1 - x0)) (x1 - x0) + i) ∨
          (x1 < x0 ∧ x1 ≤ q.1 ∧ q.1 ≤ x0 ∧ ∃ i, 0 ≤ i ∧ i < k ∧
            q.2 = y1 + lineRound Config.lineRoundsUp ((y0 - y1) * (q.1 - x1)) (x0 - x1) + i)
        (drawn → t.pixel q = decide (c = 1)) ∧ (¬ drawn → t.pixel q = s.pixel q)) ∧
  (∀ num den : Int, 0 < den →
    |(lineRound Config.lineRoundsUp num den : Rat) - num / den| < 1 ∧
    (∀ z : Int, num = z * den → lineRound Config.lineRoundsUp num den = z))

/-- Rule R71 corner case (c): the direction of a line does not matter. -/
def Obligations.LineDirectionDoesNotMatter : Prop :=
  ∀ (s : State) (a b c d k : Int) (col : Bit), exec (.line a b c d k col) s = exec (.line c d a b k col) s

/-- Rule R71 corner cases (a) and (f): a zero-length line and a line of non-positive thickness change nothing and end
with `OK`. -/
def Obligations.DegenerateLinesDrawNothing : Prop :=
  ∀ (s : State) (x0 y0 x1 y1 k : Int) (c : Bit), s.st = .ready → ((x0 = x1 ∧ y0 = y1) ∨ k ≤ 0) →
    exec (.line x0 y0 x1 y1 k c) s = .next { s with replies := s.replies ++ [⟨.ok, none⟩] }

/-- Rule R72 (decision D21): CIRCLE plots, in its colour, the 180 samples `(cx - round(r sin), cy - round(r cos))`, or in
filled mode the runs from the centre column to each of them, both ends included; `round` is within 1/2. Every other
pixel keeps its value. -/
def Obligations.CircleResult : Prop :=
  (∀ (s : State) (cx cy r : Int) (c f : Bit), s.Inv → s.st = .ready →
    ∃ t, exec (.circle cx cy r c f) s = .next t ∧ s.DrawingFrame t ∧
      ∀ q : Pixel, inSurface s.w s.h q →
        let drawn : Prop := ∃ i : Fin 180,
          let x := cx - circleOffset Config.circleTieUp r (Config.sin i)
          let y := cy - circleOffset Config.circleTieUp r (Config.cos i)
          q.2 = y ∧ (f = 0 → q.1 = x) ∧ (f = 1 → min cx x ≤ q.1 ∧ q.1 ≤ max cx x)
        (drawn → t.pixel q = decide (c = 1)) ∧ (¬ drawn → t.pixel q = s.pixel q)) ∧
  (∀ (r : Int) (v : Rat), |(circleOffset Config.circleTieUp r v : Rat) - r * v| ≤ 1 / 2)

/-- Rule R72 corner case (a): with radius 0, in either mode, CIRCLE is PLOT of the centre, whatever the tables hold. -/
def Obligations.ZeroRadiusCircleIsItsCentre : Prop :=
  ∀ (s : State) (cx cy : Int) (c f : Bit), s.Inv → exec (.circle cx cy 0 c f) s = exec (.plot cx cy c) s

/-- Rule R72 corner case (b): for every table whose entries at 0, 90, 180 and 270 degrees are within `1/(2 |r|)` of the
true sine and cosine, the samples there are the top, left, bottom and right points. -/
def Obligations.CardinalSamples : Prop :=
  ∀ (sin cos : Fin 180 → Rat) (up : Rat → Bool) (cx cy r : Int), r ≠ 0 →
    (|sin 0| < 1 / (2 * |(r : Rat)|) ∧ |cos 0 - 1| < 1 / (2 * |(r : Rat)|) →
      circleSample sin cos up cx cy r 0 = (cx, cy - r)) ∧
    (|sin 45 - 1| < 1 / (2 * |(r : Rat)|) ∧ |cos 45| < 1 / (2 * |(r : Rat)|) →
      circleSample sin cos up cx cy r 45 = (cx - r, cy)) ∧
    (|sin 90| < 1 / (2 * |(r : Rat)|) ∧ |cos 90 + 1| < 1 / (2 * |(r : Rat)|) →
      circleSample sin cos up cx cy r 90 = (cx, cy + r)) ∧
    (|sin 135 + 1| < 1 / (2 * |(r : Rat)|) ∧ |cos 135| < 1 / (2 * |(r : Rat)|) →
      circleSample sin cos up cx cy r 135 = (cx + r, cy))

/-- Rules R20, R72 corner case (b) (decision D21): whatever tables the spec admits for a bound `TRIG_EPS` below
`1/(2 |r|)`, the four cardinal samples are the top, left, bottom and right points of the circle. -/
def Obligations.AccurateTablesGiveCardinalPoints : Prop :=
  ∀ (eps : Rat) (sin cos : Fin 180 → Rat) (up : Rat → Bool) (cx cy r : Int),
    TablesWithin eps sin cos → r ≠ 0 → eps < 1 / (2 * |(r : Rat)|) →
    circleSample sin cos up cx cy r 0 = (cx, cy - r) ∧ circleSample sin cos up cx cy r 45 = (cx - r, cy) ∧
    circleSample sin cos up cx cy r 90 = (cx, cy + r) ∧ circleSample sin cos up cx cy r 135 = (cx + r, cy)

/-- Rules R71, R72 (`LINE_RND`, `CIRCLE_ROUND`): the model's roundings leave nothing out: every function the properties
admit is the model's rounding for some choice of the OPEN parameter. -/
def Obligations.OpenRoundingsCoverAllTheSpecAllows : Prop :=
  (∀ f : Rat → Int, (∀ v, |(f v : Rat) - v| < 1) → (∀ z : Int, f z = z) →
    ∃ up : Rat → Bool, ∀ num den : Int, 0 < den → lineRound up num den = f (num / den)) ∧
  (∀ f : Rat → Int, (∀ v, |(f v : Rat) - v| ≤ 1 / 2) →
    ∃ up : Rat → Bool, ∀ (r : Int) (q : Rat), circleOffset up r q = f (r * q))

/-- Rule R73 (decisions D17, D18): RECT fills the clipped rectangle with its colour and in outline mode then clears its
strict interior; every other pixel keeps its value. -/
def Obligations.RectResult : Prop :=
  ∀ (s : State) (x y w h : Int) (c f : Bit), s.Inv → s.st = .ready →
    ∃ t, exec (.rect x y w h c f) s = .next t ∧ s.DrawingFrame t ∧
      ∀ q : Pixel, inSurface s.w s.h q →
        let xa := max 0 x
        let ya := max 0 y
        let wa := min w (s.w - xa)
        let ha := min h (s.h - ya)
        let inside : Prop := xa ≤ q.1 ∧ q.1 ≤ xa + wa - 1 ∧ ya ≤ q.2 ∧ q.2 ≤ ya + ha - 1
        let interior : Prop := xa + 1 ≤ q.1 ∧ q.1 ≤ xa + wa - 2 ∧ ya + 1 ≤ q.2 ∧ q.2 ≤ ya + ha - 2
        (¬ inside → t.pixel q = s.pixel q) ∧
        (inside → ¬ interior → t.pixel q = decide (c = 1)) ∧
        (interior → t.pixel q = (decide (c = 1) && decide (f = 1)))

/-- Rule R75: PLOT, LINE, CIRCLE, RECT and CLEAR never fault and are never refused in `Ready`, and end with `OK`, whatever
their operands and whatever the framebuffer holds. -/
def Obligations.DrawingNeverFails : Prop :=
  ∀ (s : State) (i : Instr), s.st = .ready →
    ((∃ x y c, i = .plot x y c) ∨ (∃ a b d e k c, i = .line a b d e k c) ∨ (∃ a b r c f, i = .circle a b r c f) ∨
      (∃ x y w h c f, i = .rect x y w h c f) ∨ i = .clear) →
    ∃ t, exec i s = .next t ∧ s.EndsOk t

/-- Rule R74: CLEAR makes every byte `0x00`, keeps the length, and moves nothing else, the cursor included. -/
def Obligations.ClearResult : Prop :=
  ∀ s : State, s.st = .ready →
    ∃ t, exec .clear s = .next t ∧ s.DrawingFrame t ∧ ∀ a, a < s.fb.size → t.fb.read a = some 0x00

/-- Rules R38, R39, R70 to R73, R92, R93: the bytes a drawing or text operation stores to are those of its own
on-surface pixels; every other byte reads as before. -/
def Obligations.DrawingLeavesOtherBytesAlone : Prop :=
  ∀ s t : State, s.Inv → s.st = .ready →
    (∀ x y c, exec (.plot x y c) s = .next t → s.OnlyBytesOf [(x, y)] t) ∧
    (∀ a b d e k c, exec (.line a b d e k c) s = .next t →
      s.OnlyBytesOf (linePixels Config.lineRoundsUp a b d e k) t) ∧
    (∀ a b r c f, exec (.circle a b r c f) s = .next t →
      s.OnlyBytesOf (circlePixels Config.sin Config.cos Config.circleTieUp a b r f) t) ∧
    (∀ x y w h c f, exec (.rect x y w h c f) s = .next t →
      s.OnlyBytesOf (fillPixels (clip x w s.w) (clip y h s.h)) t) ∧
    (∀ codes v gs, glyphsOf Config.glyph codes = some gs → exec (.text codes v) s = .next t →
      s.OnlyBytesOf (layout singleSize s.w s.h v gs s.cx s.cy).pixels t) ∧
    (∀ codes v gs, glyphsOf Config.glyph codes = some gs → exec (.text2x codes v) s = .next t →
      s.OnlyBytesOf (layout (doubleSize Config.smoothExtra) s.w s.h v gs s.cx s.cy).pixels t)

/-! ## Text -/

/-- Rules R92, R93, R98: for every non-empty string of codes with glyphs, whatever the glyph table, TEXT and TEXT_2X end
with `OK`, change only the framebuffer and the cursor, clear no pixel, and leave the cursor on the surface. -/
def Obligations.TextCompletes : Prop :=
  ∀ (s : State) (codes : List Int) (v : Bit) (i : Instr), s.Inv → s.st = .ready → codes ≠ [] →
    (∀ c ∈ codes, 32 ≤ c ∧ c ≤ 127) → (i = .text codes v ∨ i = .text2x codes v) →
    ∃ t, exec i s = .next t ∧ s.SameSession t ∧ s.Silent t ∧ s.EndsOk t ∧ t.fb.size = s.fb.size ∧
      inSurface t.w t.h (t.cx, t.cy) ∧ s.cy ≤ t.cy ∧
      ∀ q : Pixel, inSurface s.w s.h q → s.pixel q = true → t.pixel q = true

/-- Rules R90, R91, R92, R98, for every glyph table: a string whose characters all fit on the row of the cursor is drawn
there, transparently (decision D23), column `j` row `k` of a character set where bit `7 - k` of its glyph byte `j` is;
the cursor advances by what LENGTH_OF_STRING gives, clamped to the surface (decision D24). -/
def Obligations.TextOnOneRow : Prop :=
  (∀ codes v s, exec (.text codes v) s = textWith Config.glyph codes v s) ∧
  ∀ (table : Fin 96 → List Byte) (s : State) (codes : List Int) (v : Bit) (gs : List (List Byte)),
    s.Inv → s.st = .ready → codes ≠ [] → glyphsOf table codes = some gs →
    s.cx + (gs.map fun g => (g.length : Int) + 1).sum ≤ s.w + 1 →
    ∃ t, textWith table codes v s = .next t ∧
      t.cx = min (s.cx + (gs.map fun g => (g.length : Int) + 1).sum) (s.w - 1) ∧ t.cy = s.cy ∧
      ∀ q : Pixel, inSurface s.w s.h q →
        (t.pixel q = true ↔ s.pixel q = true ∨
          ∃ (n j k : Nat) (g : List Byte) (b : Byte), gs[n]? = some g ∧ g[j]? = some b ∧ k < 8 ∧
            q = (s.cx + ((gs.take n).map fun g => (g.length : Int) + 1).sum + j, s.cy + k) ∧
            b.getLsbD (7 - k) = true)

/-- Rules R92, R93, R95, R98 (decisions D22 to D24, D26), for every glyph table and every smoothing: TEXT and TEXT_2X of
any non-empty string draw the characters of the course the wrap step gives, one after the other from the cursor, up to the
first that it stops at, and no other pixel; the cursor ends at the running position, clamped. -/
def Obligations.TextFollowsTheWrapStep : Prop :=
  (∀ codes v s, exec (.text codes v) s = textWith Config.glyph codes v s) ∧
  (∀ codes v s, exec (.text2x codes v) s = text2xWith Config.smoothExtra Config.glyph codes v s) ∧
  ∀ (extra : Option Byte → Byte → Option Byte → BitVec 16 × BitVec 16) (table : Fin 96 → List Byte) (s : State)
    (codes : List Int) (v : Bit) (gs : List (List Byte)),
    s.Inv → s.st = .ready → codes ≠ [] → glyphsOf table codes = some gs →
    (∃ (t : State) (m : Nat) (position origin : Nat → Pixel), textWith table codes v s = .next t ∧
      s.SameSession t ∧ s.Silent t ∧ s.EndsOk t ∧
      TextRun s.w s.h v 1 8 1 gs (s.cx, s.cy) m position origin ∧
      t.cx = min (position m).1 (s.w - 1) ∧ t.cy = (position m).2 ∧
      ∀ q : Pixel, inSurface s.w s.h q → (t.pixel q = true ↔ s.pixel q = true ∨
        ∃ (n : Nat) (g : List Byte), n < m ∧ gs[n]? = some g ∧
          SingleSizePixel g (q.1 - (origin n).1) (q.2 - (origin n).2))) ∧
    (∃ (t : State) (m : Nat) (position origin : Nat → Pixel), text2xWith extra table codes v s = .next t ∧
      s.SameSession t ∧ s.Silent t ∧ s.EndsOk t ∧
      TextRun s.w s.h v 2 16 4 gs (s.cx, s.cy) m position origin ∧
      t.cx = min (position m).1 (s.w - 1) ∧ t.cy = (position m).2 ∧
      ∀ q : Pixel, inSurface s.w s.h q → (t.pixel q = true ↔ s.pixel q = true ∨
        ∃ (n : Nat) (g : List Byte), n < m ∧ gs[n]? = some g ∧
          DoubleSizePixel extra g (q.1 - (origin n).1) (q.2 - (origin n).2)))

/-- Rules R92, R93, R95 (decision D22), for every glyph table and every smoothing: what TEXT and TEXT_2X do with a single
character that does not fit: with wrapping it is drawn at column 0 of the next row, of 8 or of 16, if a further full row
fits, otherwise nothing changes but the status; without wrapping it is drawn at the cursor as far as it fits, and the
cursor ends in the last column. -/
def Obligations.TextWrapsOneCharacter : Prop :=
  (∀ (table : Fin 96 → List Byte) (s : State) (c : Int) (v : Bit) (g : List Byte),
    s.Inv → s.st = .ready → glyphOf table c = some g → s.w < s.cx + g.length →
    ∃ t, textWith table [c] v s = .next t ∧ s.EndsOk t ∧
      (v = 1 → s.cy + 16 ≤ s.h → t.cx = min ((g.length : Int) + 1) (s.w - 1) ∧ t.cy = s.cy + 8 ∧
        ∀ q : Pixel, inSurface s.w s.h q → (t.pixel q = true ↔ s.pixel q = true ∨
          ∃ (j k : Nat) (b : Byte), g[j]? = some b ∧ k < 8 ∧ q = ((j : Int), s.cy + 8 + k) ∧
            b.getLsbD (7 - k) = true)) ∧
      (v = 1 → s.h < s.cy + 16 → t.cx = s.cx ∧ t.cy = s.cy ∧ t.fb = s.fb) ∧
      (v = 0 → t.cx = s.w - 1 ∧ t.cy = s.cy ∧
        ∀ q : Pixel, inSurface s.w s.h q → (t.pixel q = true ↔ s.pixel q = true ∨
          ∃ (j k : Nat) (b : Byte), g[j]? = some b ∧ k < 8 ∧ q = (s.cx + j, s.cy + k) ∧
            b.getLsbD (7 - k) = true))) ∧
  (∀ (extra : Option Byte → Byte → Option Byte → BitVec 16 × BitVec 16) (table : Fin 96 → List Byte) (s : State) (c : Int)
    (v : Bit) (g : List Byte),
    s.Inv → s.st = .ready → glyphOf table c = some g → s.w < s.cx + 2 * g.length →
    ∃ t, text2xWith extra table [c] v s = .next t ∧ s.EndsOk t ∧
      (v = 1 → s.cy + 32 ≤ s.h → t.cx = min (2 * (g.length : Int) + 4) (s.w - 1) ∧ t.cy = s.cy + 16 ∧
        ∀ q : Pixel, inSurface s.w s.h q → (t.pixel q = true ↔ s.pixel q = true ∨
          DoubleSizePixel extra g q.1 (q.2 - (s.cy + 16)))) ∧
      (v = 1 → s.h < s.cy + 32 → t.cx = s.cx ∧ t.cy = s.cy ∧ t.fb = s.fb) ∧
      (v = 0 → t.cx = s.w - 1 ∧ t.cy = s.cy ∧
        ∀ q : Pixel, inSurface s.w s.h q → (t.pixel q = true ↔ s.pixel q = true ∨
          DoubleSizePixel extra g (q.1 - s.cx) (q.2 - s.cy))))

/-- Rules R93, R96, R97, R98, for every glyph table and every smoothing: a string whose double-size characters all fit on
the row of the cursor sets exactly the pixels of the smoothed columns, each from its own column and that column's own
neighbours; among them are the pixels of the plain enlargement (rule R93 corner case (a)) and none lies outside the
characters' cells of 16 rows; the cursor advances by `2 len + 4` per character, clamped. -/
def Obligations.DoubleTextOnOneRow : Prop :=
  (∀ codes v s, exec (.text2x codes v) s = text2xWith Config.smoothExtra Config.glyph codes v s) ∧
  ∀ (extra : Option Byte → Byte → Option Byte → BitVec 16 × BitVec 16) (table : Fin 96 → List Byte) (s : State)
    (codes : List Int) (v : Bit) (gs : List (List Byte)),
    s.Inv → s.st = .ready → codes ≠ [] → glyphsOf table codes = some gs →
    s.cx + (gs.map fun g => 2 * (g.length : Int) + 4).sum ≤ s.w + 4 →
    ∃ t, text2xWith extra table codes v s = .next t ∧
      t.cx = min (s.cx + (gs.map fun g => 2 * (g.length : Int) + 4).sum) (s.w - 1) ∧ t.cy = s.cy ∧
      (∀ q : Pixel, inSurface s.w s.h q → (t.pixel q = true ↔ s.pixel q = true ∨
        ∃ (n : Nat) (g : List Byte), gs[n]? = some g ∧
          DoubleSizePixel extra g (q.1 - (s.cx + ((gs.take n).map fun g => 2 * (g.length : Int) + 4).sum))
            (q.2 - s.cy))) ∧
      (∀ (n j k : Nat) (g : List Byte) (b : Byte) (q : Pixel), inSurface s.w s.h q →
        gs[n]? = some g → g[j]? = some b → k < 8 → b.getLsbD (7 - k) = true →
        (∃ dx dy : Int, (dx = 0 ∨ dx = 1) ∧ (dy = 0 ∨ dy = 1) ∧
          q = (s.cx + ((gs.take n).map fun g => 2 * (g.length : Int) + 4).sum + 2 * j + dx, s.cy + 2 * k + dy)) →
        t.pixel q = true) ∧
      (∀ q : Pixel, inSurface s.w s.h q →
        (∀ (n : Nat) (g : List Byte), gs[n]? = some g →
          ¬ (s.cx + ((gs.take n).map fun g => 2 * (g.length : Int) + 4).sum ≤ q.1 ∧
             q.1 < s.cx + ((gs.take n).map fun g => 2 * (g.length : Int) + 4).sum + 2 * g.length ∧
             s.cy ≤ q.2 ∧ q.2 < s.cy + 16)) →
        t.pixel q = s.pixel q)

/-- Rule R97: the model's smoothing has properties (a) and (c), and every function of the three columns that has them is
the model's smoothing for some choice of the OPEN parameter. -/
def Obligations.SmoothingIsExactlyTheOpenParameter : Prop :=
  (∀ (extra : Option Byte → Byte → Option Byte → BitVec 16 × BitVec 16) (l : Option Byte) (v : Byte) (r : Option Byte),
    (smooth2x extra l v r).1 &&& stretch16 v = stretch16 v ∧ (smooth2x extra l v r).2 &&& stretch16 v = stretch16 v) ∧
  (∀ (extra : Option Byte → Byte → Option Byte → BitVec 16 × BitVec 16) (v : Byte),
    smooth2x extra (some v) v (some v) = (stretch16 v, stretch16 v) ∧
    smooth2x extra none v none = (stretch16 v, stretch16 v)) ∧
  (∀ f : Option Byte → Byte → Option Byte → BitVec 16 × BitVec 16,
    (∀ l v r, (f l v r).1 &&& stretch16 v = stretch16 v ∧ (f l v r).2 &&& stretch16 v = stretch16 v) →
    (∀ v, f (some v) v (some v) = (stretch16 v, stretch16 v) ∧ f none v none = (stretch16 v, stretch16 v)) →
    ∃ extra, ∀ l v r, smooth2x extra l v r = f l v r)

/-- Rules R91, R96: `flip8` exchanges bit `i` with bit `7 - i`, and `stretch16` copies bit `i` to bits `2 i` and
`2 i + 1`. -/
def Obligations.GlyphBitTransforms : Prop :=
  ∀ (v : Byte) (i : Nat), i < 8 →
    (flip8 v).getLsbD i = v.getLsbD (7 - i) ∧
    (stretch16 v).getLsbD (2 * i) = v.getLsbD i ∧ (stretch16 v).getLsbD (2 * i + 1) = v.getLsbD i

/-- Rule R164: TEXT and TEXT_2X of the empty string end with `InvalidArgument` and change nothing of the block, nothing
else ends with that condition, and LENGTH_OF_STRING of the empty string gives 0. That the requests chained to the failed
operation are dropped is rule R62 and log entry 11. -/
def Obligations.EmptyStrings : Prop :=
  (∀ (s : State) (v : Bit), s.st = .ready →
    exec (.text [] v) s = .next { s with
      replies := s.replies ++ [⟨.raised .invalidArgument, none⟩], requests := s.requests.dropWhile (·.chained) } ∧
    exec (.text2x [] v) s = .next { s with
      replies := s.replies ++ [⟨.raised .invalidArgument, none⟩], requests := s.requests.dropWhile (·.chained) } ∧
    exec (.lengthOfString []) s = .next { s with replies := s.replies ++ [⟨.ok, some 0⟩] }) ∧
  (∀ (i : Instr) (s t : State) (x : Option Int), exec i s = .next t →
    t.replies = s.replies ++ [⟨.raised .invalidArgument, x⟩] → ∃ v, i = .text [] v ∨ i = .text2x [] v)

/-- Rule R90 (decision D25): a character code outside `32..127` anywhere in the string refuses the whole operation. -/
def Obligations.CodesWithoutAGlyphRefused : Prop :=
  ∀ (s : State) (codes : List Int) (v : Bit) (c : Int), s.st = .ready → c ∈ codes → (c < 32 ∨ 127 < c) →
    exec (.text codes v) s = .refused .characterCode ∧ exec (.text2x codes v) s = .refused .characterCode ∧
      exec (.lengthOfString codes) s = .refused .characterCode

/-- Rule R94: LENGTH_OF_STRING returns the sum of each glyph's column count and one, with status `OK`, and changes
nothing: no drawing, no cursor, no bus. -/
def Obligations.LengthOfStringResult : Prop :=
  ∀ (s : State) (codes : List Int), s.st = .ready → (∀ c ∈ codes, 32 ≤ c ∧ c ≤ 127) →
    exec (.lengthOfString codes) s = .next { s with
      replies := s.replies ++
        [⟨.ok, some (codes.map fun c => (((glyphOf Config.glyph c).getD []).length : Int) + 1).sum⟩] }

/-! ## The session -/

/-- Rule R112: HOME moves the cursor to `(0, 0)` with status `OK` and does nothing else. -/
def Obligations.HomeResult : Prop :=
  ∀ s : State, s.Inv → s.st = .ready →
    exec .home s = .next { s with cx := 0, cy := 0, replies := s.replies ++ [⟨.ok, none⟩] }

/-- Rule R113: MOVE onto the surface writes the cursor and does nothing else. -/
def Obligations.MoveResult : Prop :=
  ∀ (s : State) (x y : Int), s.st = .ready → 0 ≤ x → x < s.w → 0 ≤ y → y < s.h →
    exec (.move x y) s = .next { s with cx := x, cy := y, replies := s.replies ++ [⟨.ok, none⟩] }

/-- Rules R113, R163 (decision D16): MOVE off the surface in either coordinate ends with `OutOfRange`; the cursor and
everything else of the block keep their values. That the requests chained to the failed operation are dropped is rule R62
and log entry 11. -/
def Obligations.MoveOutOfRange : Prop :=
  ∀ (s : State) (x y : Int), s.st = .ready → (x < 0 ∨ s.w ≤ x ∨ y < 0 ∨ s.h ≤ y) →
    exec (.move x y) s = .next { s with
      replies := s.replies ++ [⟨.raised .outOfRange, none⟩], requests := s.requests.dropWhile (·.chained) }

/-- Rule R35: a data frame is the control byte `0x40` and the framebuffer bytes in ascending index order, all `N` of them:
the one write of DRAW, and the last write of an INIT that completes. -/
def Obligations.FrameIsTheFramebufferInOrder : Prop :=
  (∀ s t : State, s.Inv → s.st = .ready → exec .draw s = .next t →
    ∃ (bytes : List Byte) (r : BusResult), t.trace = s.trace ++ [.busWrite s.addr bytes r] ∧
      bytes.length = surfaceBytes s.w s.h + 1 ∧ bytes[0]? = some 0x40 ∧
      ∀ i, i < surfaceBytes s.w s.h → bytes[i + 1]? = s.fb.read i) ∧
  (∀ (s t : State) (addr w h : Int), exec (.init addr w h) s = .next t → t.st = .ready →
    ∃ bytes : List Byte, t.trace.getLast? = some (.busWrite t.addr bytes .ok) ∧
      bytes.length = surfaceBytes t.w t.h + 1 ∧ bytes[0]? = some 0x40 ∧
      ∀ i, i < surfaceBytes t.w t.h → bytes[i + 1]? = t.fb.read i)

/-- Rules R35, R115 (decision D14): DRAW makes one bus write to `ADDR`, the control byte `0x40` and all `N` framebuffer
bytes in ascending order; answered `ok` it ends with `OK`, answered `err` with `BusError`, and in both cases nothing of
the block changes.
`EndsWith` drops the requests chained to the failed operation (rule R62, log entry 11). -/
def Obligations.DrawResult : Prop :=
  ∀ (s : State) (r : BusResult), s.Inv → s.st = .ready → (takeAnswer s).1 = .answered r →
    ∃ (t : State) (bytes : List Byte), exec .draw s = .next t ∧
      bytes.length = surfaceBytes s.w s.h + 1 ∧ bytes[0]? = some 0x40 ∧
      (∀ i, i < surfaceBytes s.w s.h → bytes[i + 1]? = s.fb.read i) ∧
      t.trace = s.trace ++ [.busWrite s.addr bytes r] ∧
      t.answers = s.answers.tail ∧ s.SameSession t ∧ s.SameCursor t ∧ t.fb = s.fb ∧
      (r = .ok → s.EndsOk t) ∧ (r = .err → s.EndsWith .busError t)

/-- Rule R114 (decisions D13, D14): SET_INVERSE makes one bus write to `ADDR`, `[0x00, 0xA7]` for 1 and `[0x00, 0xA6]`
for 0; answered `ok` it ends with `OK`, answered `err` with `BusError`; nothing of the block changes.
`EndsWith` drops the requests chained to the failed operation (rule R62, log entry 11). -/
def Obligations.SetInverseResult : Prop :=
  ∀ (s : State) (f : Bit) (r : BusResult), s.st = .ready → (takeAnswer s).1 = .answered r →
    ∃ t, exec (.setInverse f) s = .next t ∧
      t.trace = s.trace ++ [.busWrite s.addr (if f = 1 then [0x00, 0xA7] else [0x00, 0xA6]) r] ∧
      t.answers = s.answers.tail ∧ s.SameSession t ∧ s.SameCursor t ∧ t.fb = s.fb ∧
      (r = .ok → s.EndsOk t) ∧ (r = .err → s.EndsWith .busError t)

/-- Rules R26, R111, R116, R151 (decisions D5 to D9, D12): INIT with a legal address and legal dimensions, all 19 writes
answered `ok`: the reset pulse, the 18 commands in order with their computed arguments, the frame of `N` zero bytes, all
to the address given; then `Ready`, the registers written, cursor `(0, 0)`, `RST` high, every byte zero. -/
def Obligations.InitResult : Prop :=
  ∀ (s : State) (addr w h : Int) (rest : List Answer), s.st = .uninitialized →
    0 ≤ addr → addr ≤ 127 → 1 ≤ w → w ≤ 128 → 8 ≤ h → h ≤ 64 → h % 8 = 0 →
    s.answers = List.replicate 19 (.answered .ok) ++ rest →
    ∃ t, exec (.init addr w h) s = .next t ∧
      t.st = .ready ∧ t.w = w ∧ t.h = h ∧ (t.addr.toNat : Int) = addr ∧ t.cx = 0 ∧ t.cy = 0 ∧ t.rst = some .high ∧
      (∀ a : Nat, t.fb.read a = if (a : Int) < w * (h / 8) then some 0x00 else none) ∧
      t.answers = rest ∧ s.EndsOk t ∧
      t.trace = s.trace ++
        [.resetLine .low, .delay .tRstLow, .resetLine .high, .delay .tRstHigh] ++
        ([[0x00, 0xAE], [0x00, 0xD5, 0x80], [0x00, 0xA8, BitVec.ofInt 8 (h - 1)], [0x00, 0xD3, 0x00], [0x00, 0x40],
          [0x00, 0x8D, 0x14], [0x00, 0x20, 0x00], [0x00, 0xA1], [0x00, 0xC8],
          [0x00, 0xDA, if h = 16 ∨ h = 32 then 0x02 else 0x12], [0x00, 0x81, 0x8F], [0x00, 0xD9, 0xF1],
          [0x00, 0xDB, 0x40], [0x00, 0xA4], [0x00, 0xA6], [0x00, 0xAF], [0x00, 0x21, 0x00, BitVec.ofInt 8 (w - 1)],
          [0x00, 0x22, 0x00, BitVec.ofInt 8 (h / 8 - 1)],
          0x40 :: List.replicate (w * (h / 8)).toNat 0x00].map fun b => Event.busWrite t.addr b .ok)

/-- Rules R111, R162 (decisions D5 to D7): INIT with an illegal address or illegal dimensions ends with
`ConfigurationError` and changes nothing: no trace event, `ST` still `Uninitialized`. That the requests chained to the
failed operation are dropped is rule R62 and log entry 11. -/
def Obligations.InitConfigurationError : Prop :=
  ∀ (s : State) (addr w h : Int), s.st = .uninitialized →
    (addr < 0 ∨ 127 < addr ∨ w < 1 ∨ 128 < w ∨ h < 8 ∨ 64 < h ∨ h % 8 ≠ 0) →
    exec (.init addr w h) s = .next { s with
      replies := s.replies ++ [⟨.raised .configurationError, none⟩], requests := s.requests.dropWhile (·.chained) }

/-- Rules R111, R165, R167, R171 (decision D10): when write `k + 1` of INIT's 19 is the first answered `err`, INIT ends
with `BusError`: the four reset events, `k` writes `ok`, that one `err`, none after it; `ST` is `Uninitialized` again,
`RST` high, the framebuffer gone.
`EndsWith` drops the requests chained to the failed operation (rule R62, log entry 11). -/
def Obligations.InitBusError : Prop :=
  ∀ (s : State) (addr w h : Int) (k : Nat) (rest : List Answer), s.st = .uninitialized →
    addrLegal addr → dimsLegal w h → k < 19 →
    s.answers = List.replicate k (.answered .ok) ++ .answered .err :: rest →
    ∃ (t : State) (writes : List (List Byte)), exec (.init addr w h) s = .next t ∧
      writes = (initWrites w h ++ [0x40 :: List.replicate (surfaceBytes w h) 0x00]).take (k + 1) ∧
      t.trace = s.trace ++
        [.resetLine .low, .delay .tRstLow, .resetLine .high, .delay .tRstHigh] ++
        (writes.take k).map (fun b => Event.busWrite (BitVec.ofInt 7 addr) b .ok) ++
        (writes.drop k).map (fun b => Event.busWrite (BitVec.ofInt 7 addr) b .err) ∧
      t.st = .uninitialized ∧ t.rst = some .high ∧ (∀ a, t.fb.read a = none) ∧ t.answers = rest ∧
      s.EndsWith .busError t

/-- Rule R199 (U11), as the fault of log entry 9: when the transport never answers a write, the operation that makes it
never ends: INIT at any of its 19 writes, DRAW, SET_INVERSE, and each bus write by itself (log entry 6) wherever the block
makes it, in `Ready` and during INIT. -/
def Obligations.SilentTransportStops : Prop :=
  (∀ (s : State) (addr w h : Int) (k : Nat) (rest : List Answer), s.st = .uninitialized → addrLegal addr →
    dimsLegal w h → k < 19 → s.answers = List.replicate k (.answered .ok) ++ .silent :: rest →
    exec (.init addr w h) s = .fault .transportSilent) ∧
  (∀ (s : State) (i : Instr) (rest : List Answer), s.answers = .silent :: rest →
    ((s.st = .ready ∧ (i = .draw ∨ ∃ f, i = .setInverse f)) ∨ s.Makes i) → exec i s = .fault .transportSilent)

/-! ## The bus writes -/

/-- Rules R131 to R150 (decisions D9, D13): each of the 20 bus writes, as a step by itself (log entry 6) where the block
makes it and answered `ok`, is one write to `ADDR` of exactly the bytes its rule gives, DATA with the framebuffer as
payload, and changes nothing of the block. -/
def Obligations.EachBusWriteSendsItsBytes : Prop :=
  ∀ (s : State) (i : Instr) (bytes : List Byte), s.Makes i → (takeAnswer s).1 = .answered .ok →
    (match i with
      | .displayoff => bytes = [0x00, 0xAE]
      | .clockdiv => bytes = [0x00, 0xD5, 0x80]
      | .multiplex a => bytes = [0x00, 0xA8, a]
      | .displayoffset => bytes = [0x00, 0xD3, 0x00]
      | .startline => bytes = [0x00, 0x40]
      | .chargepump => bytes = [0x00, 0x8D, 0x14]
      | .memorymode => bytes = [0x00, 0x20, 0x00]
      | .segremap => bytes = [0x00, 0xA1]
      | .comscandec => bytes = [0x00, 0xC8]
      | .setcompins a => bytes = [0x00, 0xDA, a]
      | .contrast => bytes = [0x00, 0x81, 0x8F]
      | .precharge => bytes = [0x00, 0xD9, 0xF1]
      | .vcomdetect => bytes = [0x00, 0xDB, 0x40]
      | .displayallonResume => bytes = [0x00, 0xA4]
      | .normaldisplay => bytes = [0x00, 0xA6]
      | .displayon => bytes = [0x00, 0xAF]
      | .columnaddr b => bytes = [0x00, 0x21, 0x00, b]
      | .pageaddr b => bytes = [0x00, 0x22, 0x00, b]
      | .invertdisplay => bytes = [0x00, 0xA7]
      | .data => bytes[0]? = some 0x40 ∧ bytes.length = s.fb.size + 1 ∧
          ∀ a, a < s.fb.size → bytes[a + 1]? = s.fb.read a
      | _ => False) →
    exec i s = .next { s with
      trace := s.trace ++ [.busWrite s.addr bytes .ok], writes := s.writes + 1, answers := s.answers.tail }

/-- 43_wire_protocol.md "Common to all", rule R165 (decisions D10, D14): a bus write, as a step by itself (log entry 6)
where the block makes it, answered `err` leaves one event with its own bytes and ends the emitting operation with
`BusError`: in `Ready` nothing of the block changes, during INIT the session is discarded and `RST` keeps its level.
`EndsWith` drops the requests chained to the failed operation (rule R62, log entry 11). -/
def Obligations.FailedBusWriteEndsTheOperation : Prop :=
  ∀ (s : State) (i : Instr), s.Makes i → (takeAnswer s).1 = .answered .err →
    ∃ t : State, exec i s = .next t ∧
      t.trace = s.trace ++ [.busWrite s.addr (if i = .data then frame s else commandBytes i) .err] ∧
      t.answers = s.answers.tail ∧ s.EndsWith .busError t ∧
      (s.st = .ready → s.SameSession t ∧ s.SameCursor t ∧ t.fb = s.fb) ∧
      (s.st = .initializing → t.st = .uninitialized ∧ t.rst = s.rst ∧ ∀ a, t.fb.read a = none)

/-- Rule R161 (decision D15): the status codes. -/
def Obligations.StatusCodes : Prop :=
  Status.ok.code = 0 ∧ (Status.raised .configurationError).code = 1 ∧ (Status.raised .outOfRange).code = 2 ∧
    (Status.raised .invalidArgument).code = 3 ∧ (Status.raised .busError).code = 4
end

