-- ==== Sys2Proof/Laws/State.lean ====
section
/-! SUPPORT. One lemma per field per update of the state, each true by definition, so that no proof unfolds a record
update; the reset pulse's two effects are stated as a whole. -/

namespace Sys2Proof.Machine

/-! ## emit -/

@[simp] theorem emit_st (e : Event) (s : State) : (emit e s).st = s.st := rfl
@[simp] theorem emit_w (e : Event) (s : State) : (emit e s).w = s.w := rfl
@[simp] theorem emit_h (e : Event) (s : State) : (emit e s).h = s.h := rfl
@[simp] theorem emit_addr (e : Event) (s : State) : (emit e s).addr = s.addr := rfl
@[simp] theorem emit_cx (e : Event) (s : State) : (emit e s).cx = s.cx := rfl
@[simp] theorem emit_cy (e : Event) (s : State) : (emit e s).cy = s.cy := rfl
@[simp] theorem emit_rst (e : Event) (s : State) : (emit e s).rst = s.rst := rfl
@[simp] theorem emit_fb (e : Event) (s : State) : (emit e s).fb = s.fb := rfl
@[simp] theorem emit_requests (e : Event) (s : State) : (emit e s).requests = s.requests := rfl
@[simp] theorem emit_replies (e : Event) (s : State) : (emit e s).replies = s.replies := rfl
@[simp] theorem emit_answers (e : Event) (s : State) : (emit e s).answers = s.answers := rfl
@[simp] theorem emit_writes (e : Event) (s : State) : (emit e s).writes = s.writes := rfl
@[simp] theorem emit_trace (e : Event) (s : State) : (emit e s).trace = s.trace ++ [e] := rfl
@[simp] theorem emit_discards (e : Event) (s : State) : (emit e s).discards = s.discards := rfl

/-! ## completeWith -/

@[simp] theorem completeWith_st (v : Option Int) (s : State) : (completeWith v s).st = s.st := rfl
@[simp] theorem completeWith_w (v : Option Int) (s : State) : (completeWith v s).w = s.w := rfl
@[simp] theorem completeWith_h (v : Option Int) (s : State) : (completeWith v s).h = s.h := rfl
@[simp] theorem completeWith_addr (v : Option Int) (s : State) : (completeWith v s).addr = s.addr := rfl
@[simp] theorem completeWith_cx (v : Option Int) (s : State) : (completeWith v s).cx = s.cx := rfl
@[simp] theorem completeWith_cy (v : Option Int) (s : State) : (completeWith v s).cy = s.cy := rfl
@[simp] theorem completeWith_rst (v : Option Int) (s : State) : (completeWith v s).rst = s.rst := rfl
@[simp] theorem completeWith_fb (v : Option Int) (s : State) : (completeWith v s).fb = s.fb := rfl
@[simp] theorem completeWith_requests (v : Option Int) (s : State) : (completeWith v s).requests = s.requests := rfl
@[simp] theorem completeWith_replies (v : Option Int) (s : State) : (completeWith v s).replies = s.replies ++ [{ status := .ok, value := v }] := rfl
@[simp] theorem completeWith_answers (v : Option Int) (s : State) : (completeWith v s).answers = s.answers := rfl
@[simp] theorem completeWith_writes (v : Option Int) (s : State) : (completeWith v s).writes = s.writes := rfl
@[simp] theorem completeWith_trace (v : Option Int) (s : State) : (completeWith v s).trace = s.trace := rfl
@[simp] theorem completeWith_discards (v : Option Int) (s : State) : (completeWith v s).discards = s.discards := rfl

/-! ## complete -/

@[simp] theorem complete_st (s : State) : (complete s).st = s.st := rfl
@[simp] theorem complete_w (s : State) : (complete s).w = s.w := rfl
@[simp] theorem complete_h (s : State) : (complete s).h = s.h := rfl
@[simp] theorem complete_addr (s : State) : (complete s).addr = s.addr := rfl
@[simp] theorem complete_cx (s : State) : (complete s).cx = s.cx := rfl
@[simp] theorem complete_cy (s : State) : (complete s).cy = s.cy := rfl
@[simp] theorem complete_rst (s : State) : (complete s).rst = s.rst := rfl
@[simp] theorem complete_fb (s : State) : (complete s).fb = s.fb := rfl
@[simp] theorem complete_requests (s : State) : (complete s).requests = s.requests := rfl
@[simp] theorem complete_replies (s : State) : (complete s).replies = s.replies ++ [{ status := .ok, value := none }] := rfl
@[simp] theorem complete_answers (s : State) : (complete s).answers = s.answers := rfl
@[simp] theorem complete_writes (s : State) : (complete s).writes = s.writes := rfl
@[simp] theorem complete_trace (s : State) : (complete s).trace = s.trace := rfl
@[simp] theorem complete_discards (s : State) : (complete s).discards = s.discards := rfl

/-! ## raise -/

@[simp] theorem raise_st (e : Condition) (s : State) : (raise e s).st = s.st := rfl
@[simp] theorem raise_w (e : Condition) (s : State) : (raise e s).w = s.w := rfl
@[simp] theorem raise_h (e : Condition) (s : State) : (raise e s).h = s.h := rfl
@[simp] theorem raise_addr (e : Condition) (s : State) : (raise e s).addr = s.addr := rfl
@[simp] theorem raise_cx (e : Condition) (s : State) : (raise e s).cx = s.cx := rfl
@[simp] theorem raise_cy (e : Condition) (s : State) : (raise e s).cy = s.cy := rfl
@[simp] theorem raise_rst (e : Condition) (s : State) : (raise e s).rst = s.rst := rfl
@[simp] theorem raise_fb (e : Condition) (s : State) : (raise e s).fb = s.fb := rfl
@[simp] theorem raise_requests (e : Condition) (s : State) : (raise e s).requests = s.requests.dropWhile (·.chained) := rfl
@[simp] theorem raise_replies (e : Condition) (s : State) : (raise e s).replies = s.replies ++ [{ status := .raised e, value := none }] := rfl
@[simp] theorem raise_answers (e : Condition) (s : State) : (raise e s).answers = s.answers := rfl
@[simp] theorem raise_writes (e : Condition) (s : State) : (raise e s).writes = s.writes := rfl
@[simp] theorem raise_trace (e : Condition) (s : State) : (raise e s).trace = s.trace := rfl
@[simp] theorem raise_discards (e : Condition) (s : State) : (raise e s).discards = s.discards := rfl

/-! ## openSession -/

@[simp] theorem openSession_st (a w h : Int) (s : State) : (openSession a w h s).st = s.st := rfl
@[simp] theorem openSession_w (a w h : Int) (s : State) : (openSession a w h s).w = w := rfl
@[simp] theorem openSession_h (a w h : Int) (s : State) : (openSession a w h s).h = h := rfl
@[simp] theorem openSession_addr (a w h : Int) (s : State) : (openSession a w h s).addr = BitVec.ofInt 7 a := rfl
@[simp] theorem openSession_cx (a w h : Int) (s : State) : (openSession a w h s).cx = 0 := rfl
@[simp] theorem openSession_cy (a w h : Int) (s : State) : (openSession a w h s).cy = 0 := rfl
@[simp] theorem openSession_rst (a w h : Int) (s : State) : (openSession a w h s).rst = s.rst := rfl
@[simp] theorem openSession_fb (a w h : Int) (s : State) : (openSession a w h s).fb = Memory.allocate (surfaceBytes w h) := rfl
@[simp] theorem openSession_requests (a w h : Int) (s : State) : (openSession a w h s).requests = s.requests := rfl
@[simp] theorem openSession_replies (a w h : Int) (s : State) : (openSession a w h s).replies = s.replies := rfl
@[simp] theorem openSession_answers (a w h : Int) (s : State) : (openSession a w h s).answers = s.answers := rfl
@[simp] theorem openSession_writes (a w h : Int) (s : State) : (openSession a w h s).writes = s.writes := rfl
@[simp] theorem openSession_trace (a w h : Int) (s : State) : (openSession a w h s).trace = s.trace := rfl
@[simp] theorem openSession_discards (a w h : Int) (s : State) : (openSession a w h s).discards = s.discards := rfl

/-! ## discardSession -/

@[simp] theorem discardSession_st (s : State) : (discardSession s).st = .uninitialized := rfl
@[simp] theorem discardSession_w (s : State) : (discardSession s).w = Config.unspecifiedW (s.discards + 1) := rfl
@[simp] theorem discardSession_h (s : State) : (discardSession s).h = Config.unspecifiedH (s.discards + 1) := rfl
@[simp] theorem discardSession_addr (s : State) : (discardSession s).addr = Config.unspecifiedAddr (s.discards + 1) := rfl
@[simp] theorem discardSession_cx (s : State) : (discardSession s).cx = Config.unspecifiedCX (s.discards + 1) := rfl
@[simp] theorem discardSession_cy (s : State) : (discardSession s).cy = Config.unspecifiedCY (s.discards + 1) := rfl
@[simp] theorem discardSession_rst (s : State) : (discardSession s).rst = s.rst := rfl
@[simp] theorem discardSession_fb (s : State) : (discardSession s).fb = Memory.absent := rfl
@[simp] theorem discardSession_requests (s : State) : (discardSession s).requests = s.requests := rfl
@[simp] theorem discardSession_replies (s : State) : (discardSession s).replies = s.replies := rfl
@[simp] theorem discardSession_answers (s : State) : (discardSession s).answers = s.answers := rfl
@[simp] theorem discardSession_writes (s : State) : (discardSession s).writes = s.writes := rfl
@[simp] theorem discardSession_trace (s : State) : (discardSession s).trace = s.trace := rfl
@[simp] theorem discardSession_discards (s : State) : (discardSession s).discards = s.discards + 1 := rfl

/-! ## driveResetLine -/

@[simp] theorem driveResetLine_st (l : Level) (s : State) : (driveResetLine l s).st = s.st := rfl
@[simp] theorem driveResetLine_w (l : Level) (s : State) : (driveResetLine l s).w = s.w := rfl
@[simp] theorem driveResetLine_h (l : Level) (s : State) : (driveResetLine l s).h = s.h := rfl
@[simp] theorem driveResetLine_addr (l : Level) (s : State) : (driveResetLine l s).addr = s.addr := rfl
@[simp] theorem driveResetLine_cx (l : Level) (s : State) : (driveResetLine l s).cx = s.cx := rfl
@[simp] theorem driveResetLine_cy (l : Level) (s : State) : (driveResetLine l s).cy = s.cy := rfl
@[simp] theorem driveResetLine_rst (l : Level) (s : State) : (driveResetLine l s).rst = some l := rfl
@[simp] theorem driveResetLine_fb (l : Level) (s : State) : (driveResetLine l s).fb = s.fb := rfl
@[simp] theorem driveResetLine_requests (l : Level) (s : State) : (driveResetLine l s).requests = s.requests := rfl
@[simp] theorem driveResetLine_replies (l : Level) (s : State) : (driveResetLine l s).replies = s.replies := rfl
@[simp] theorem driveResetLine_answers (l : Level) (s : State) : (driveResetLine l s).answers = s.answers := rfl
@[simp] theorem driveResetLine_writes (l : Level) (s : State) : (driveResetLine l s).writes = s.writes := rfl
@[simp] theorem driveResetLine_trace (l : Level) (s : State) : (driveResetLine l s).trace = s.trace ++ [.resetLine l] := rfl
@[simp] theorem driveResetLine_discards (l : Level) (s : State) : (driveResetLine l s).discards = s.discards := rfl

/-! ## clearFramebuffer -/

@[simp] theorem clearFramebuffer_st (s : State) : (clearFramebuffer s).st = s.st := rfl
@[simp] theorem clearFramebuffer_w (s : State) : (clearFramebuffer s).w = s.w := rfl
@[simp] theorem clearFramebuffer_h (s : State) : (clearFramebuffer s).h = s.h := rfl
@[simp] theorem clearFramebuffer_addr (s : State) : (clearFramebuffer s).addr = s.addr := rfl
@[simp] theorem clearFramebuffer_cx (s : State) : (clearFramebuffer s).cx = s.cx := rfl
@[simp] theorem clearFramebuffer_cy (s : State) : (clearFramebuffer s).cy = s.cy := rfl
@[simp] theorem clearFramebuffer_rst (s : State) : (clearFramebuffer s).rst = s.rst := rfl
@[simp] theorem clearFramebuffer_fb (s : State) : (clearFramebuffer s).fb = s.fb.clear := rfl
@[simp] theorem clearFramebuffer_requests (s : State) : (clearFramebuffer s).requests = s.requests := rfl
@[simp] theorem clearFramebuffer_replies (s : State) : (clearFramebuffer s).replies = s.replies := rfl
@[simp] theorem clearFramebuffer_answers (s : State) : (clearFramebuffer s).answers = s.answers := rfl
@[simp] theorem clearFramebuffer_writes (s : State) : (clearFramebuffer s).writes = s.writes := rfl
@[simp] theorem clearFramebuffer_trace (s : State) : (clearFramebuffer s).trace = s.trace := rfl
@[simp] theorem clearFramebuffer_discards (s : State) : (clearFramebuffer s).discards = s.discards := rfl

/-! ## resetPulse -/

@[simp] theorem resetPulse_st (s : State) : (resetPulse s).st = s.st := rfl
@[simp] theorem resetPulse_w (s : State) : (resetPulse s).w = s.w := rfl
@[simp] theorem resetPulse_h (s : State) : (resetPulse s).h = s.h := rfl
@[simp] theorem resetPulse_addr (s : State) : (resetPulse s).addr = s.addr := rfl
@[simp] theorem resetPulse_cx (s : State) : (resetPulse s).cx = s.cx := rfl
@[simp] theorem resetPulse_cy (s : State) : (resetPulse s).cy = s.cy := rfl
@[simp] theorem resetPulse_rst (s : State) : (resetPulse s).rst = some .high := rfl
@[simp] theorem resetPulse_fb (s : State) : (resetPulse s).fb = s.fb := rfl
@[simp] theorem resetPulse_requests (s : State) : (resetPulse s).requests = s.requests := rfl
@[simp] theorem resetPulse_replies (s : State) : (resetPulse s).replies = s.replies := rfl
@[simp] theorem resetPulse_answers (s : State) : (resetPulse s).answers = s.answers := rfl
@[simp] theorem resetPulse_writes (s : State) : (resetPulse s).writes = s.writes := rfl
@[simp] theorem resetPulse_trace (s : State) : (resetPulse s).trace =
    s.trace ++ [.resetLine .low, .delay .tRstLow, .resetLine .high, .delay .tRstHigh] := by simp [resetPulse]
@[simp] theorem resetPulse_discards (s : State) : (resetPulse s).discards = s.discards := rfl

end Sys2Proof.Machine
end

