-- ==== Sys2Proof/Laws/Bus.lean ====
section
/-! SUPPORT. The laws of bus writes: everything one write, a sequence of writes, a single-write operation and INIT's
construction can do (43_wire_protocol.md, 42_session.md rule R111). -/

namespace Sys2Proof.Machine

/-- The state after one answered write: one event, one answer used. -/
def wrote (bytes : List Byte) (r : BusResult) (s : State) : State :=
  { s with answers := s.answers.tail, writes := s.writes + 1, trace := s.trace ++ [.busWrite s.addr bytes r] }

@[simp] theorem wrote_st (b : List Byte) (r : BusResult) (s : State) : (wrote b r s).st = s.st := rfl
@[simp] theorem wrote_w (b : List Byte) (r : BusResult) (s : State) : (wrote b r s).w = s.w := rfl
@[simp] theorem wrote_h (b : List Byte) (r : BusResult) (s : State) : (wrote b r s).h = s.h := rfl
@[simp] theorem wrote_addr (b : List Byte) (r : BusResult) (s : State) : (wrote b r s).addr = s.addr := rfl
@[simp] theorem wrote_cx (b : List Byte) (r : BusResult) (s : State) : (wrote b r s).cx = s.cx := rfl
@[simp] theorem wrote_cy (b : List Byte) (r : BusResult) (s : State) : (wrote b r s).cy = s.cy := rfl
@[simp] theorem wrote_rst (b : List Byte) (r : BusResult) (s : State) : (wrote b r s).rst = s.rst := rfl
@[simp] theorem wrote_fb (b : List Byte) (r : BusResult) (s : State) : (wrote b r s).fb = s.fb := rfl
@[simp] theorem wrote_requests (b : List Byte) (r : BusResult) (s : State) : (wrote b r s).requests = s.requests := rfl
@[simp] theorem wrote_replies (b : List Byte) (r : BusResult) (s : State) : (wrote b r s).replies = s.replies := rfl
@[simp] theorem wrote_answers (b : List Byte) (r : BusResult) (s : State) : (wrote b r s).answers = s.answers.tail := rfl
@[simp] theorem wrote_writes (b : List Byte) (r : BusResult) (s : State) : (wrote b r s).writes = s.writes + 1 := rfl
@[simp] theorem wrote_trace (b : List Byte) (r : BusResult) (s : State) : (wrote b r s).trace = s.trace ++ [.busWrite s.addr b r] := rfl
@[simp] theorem wrote_discards (b : List Byte) (r : BusResult) (s : State) : (wrote b r s).discards = s.discards := rfl

/-- Everything one bus write can do. -/
theorem busWrite_cases (bytes : List Byte) (s : State) :
    (∃ r, (takeAnswer s).1 = .answered r ∧ busWrite bytes s = some (r, wrote bytes r s)) ∨
      ((takeAnswer s).1 = .silent ∧ busWrite bytes s = none) := by
  unfold busWrite takeAnswer
  cases hs : s.answers with
  | nil => exact .inl ⟨_, rfl, by simp [wrote, emit, hs]⟩
  | cons a rest =>
    cases a with
    | answered r => exact .inl ⟨r, rfl, by simp [wrote, emit, hs]⟩
    | silent => exact .inr ⟨rfl, rfl⟩

theorem busWrite_some {bytes : List Byte} {s t : State} {r : BusResult} (h : busWrite bytes s = some (r, t)) :
    t = wrote bytes r s := by
  rcases busWrite_cases bytes s with ⟨r', -, e⟩ | ⟨-, e⟩ <;> rw [e] at h
  · obtain ⟨rfl, rfl⟩ := Prod.mk.inj (Option.some.inj h); rfl
  · cases h

/-- A write whose answer the script gives. -/
theorem busWrite_scripted {s : State} {r : BusResult} {rest : List Answer} (h : s.answers = .answered r :: rest)
    (bytes : List Byte) : busWrite bytes s = some (r, wrote bytes r s) := by
  simp [busWrite, takeAnswer, wrote, emit, h]

/-- A write the transport never answers. -/
theorem busWrite_silent {s : State} {rest : List Answer} (h : s.answers = .silent :: rest) (bytes : List Byte) :
    busWrite bytes s = none := by
  simp [busWrite, takeAnswer, h]

/-- When the transport answers, every write gets an answer. -/
theorem busWrite_answering {s : State} (h : s.Answering) (bytes : List Byte) :
    ∃ r, busWrite bytes s = some (r, wrote bytes r s) := by
  rcases busWrite_cases bytes s with ⟨r, -, e⟩ | ⟨e, -⟩
  · exact ⟨r, e⟩
  · unfold takeAnswer at e
    cases hs : s.answers with
    | nil => simp [hs] at e
    | cons a rest => exact absurd (by simpa [hs] using e) (h a (by simp [hs]))

/-- Writes that were all answered `ok`, as events. -/
def okEvents (addr : BitVec 7) (ws : List (List Byte)) : List Event := ws.map fun b => .busWrite addr b .ok

/-- The state after `n` answered writes that left the events `es`. -/
def wroteAll (n : Nat) (es : List Event) (s : State) : State :=
  { s with answers := s.answers.drop n, writes := s.writes + n, trace := s.trace ++ es }

@[simp] theorem wroteAll_st (n : Nat) (es : List Event) (s : State) : (wroteAll n es s).st = s.st := rfl
@[simp] theorem wroteAll_w (n : Nat) (es : List Event) (s : State) : (wroteAll n es s).w = s.w := rfl
@[simp] theorem wroteAll_h (n : Nat) (es : List Event) (s : State) : (wroteAll n es s).h = s.h := rfl
@[simp] theorem wroteAll_addr (n : Nat) (es : List Event) (s : State) : (wroteAll n es s).addr = s.addr := rfl
@[simp] theorem wroteAll_cx (n : Nat) (es : List Event) (s : State) : (wroteAll n es s).cx = s.cx := rfl
@[simp] theorem wroteAll_cy (n : Nat) (es : List Event) (s : State) : (wroteAll n es s).cy = s.cy := rfl
@[simp] theorem wroteAll_rst (n : Nat) (es : List Event) (s : State) : (wroteAll n es s).rst = s.rst := rfl
@[simp] theorem wroteAll_fb (n : Nat) (es : List Event) (s : State) : (wroteAll n es s).fb = s.fb := rfl
@[simp] theorem wroteAll_requests (n : Nat) (es : List Event) (s : State) : (wroteAll n es s).requests = s.requests := rfl
@[simp] theorem wroteAll_replies (n : Nat) (es : List Event) (s : State) : (wroteAll n es s).replies = s.replies := rfl
@[simp] theorem wroteAll_answers (n : Nat) (es : List Event) (s : State) : (wroteAll n es s).answers = s.answers.drop n := rfl
@[simp] theorem wroteAll_writes (n : Nat) (es : List Event) (s : State) : (wroteAll n es s).writes = s.writes + n := rfl
@[simp] theorem wroteAll_trace (n : Nat) (es : List Event) (s : State) : (wroteAll n es s).trace = s.trace ++ es := rfl
@[simp] theorem wroteAll_discards (n : Nat) (es : List Event) (s : State) : (wroteAll n es s).discards = s.discards := rfl

theorem wroteAll_wrote (n : Nat) (es : List Event) (b : List Byte) (s : State) :
    wroteAll n es (wrote b .ok s) = wroteAll (n + 1) (.busWrite s.addr b .ok :: es) s := by
  simp [wroteAll, wrote, Nat.add_assoc, Nat.add_comm n 1, List.drop_tail]

theorem wroteAll_one_err (b : List Byte) (s : State) :
    wroteAll 1 [.busWrite s.addr b .err] s = wrote b .err s := by
  simp [wroteAll, wrote, List.drop_one]

/-- Everything a sequence of writes can do: all are made and answered `ok`, or it ends at the first that is answered
`err`, or some write is never answered. -/
theorem sendAll_cases (ws : List (List Byte)) (s : State) :
    sendAll ws s = some (.ok, wroteAll ws.length (okEvents s.addr ws) s) ∨
      (∃ k, ∃ h : k < ws.length, sendAll ws s =
        some (.err, wroteAll (k + 1) (okEvents s.addr (ws.take k) ++ [.busWrite s.addr ws[k] .err]) s)) ∨
      sendAll ws s = none := by
  induction ws generalizing s with
  | nil => exact .inl (by simp [sendAll, wroteAll, okEvents])
  | cons b ws ih =>
    rw [sendAll]
    rcases busWrite_cases b s with ⟨r, -, e⟩ | ⟨-, e⟩
    · rw [e]
      cases r with
      | ok =>
        rcases ih (wrote b .ok s) with h | ⟨k, hk, h⟩ | h
        · exact .inl (by simp only [h, wroteAll_wrote]; rfl)
        · exact .inr (.inl ⟨k + 1, by simpa using hk, by simp only [h, wroteAll_wrote]; rfl⟩)
        · exact .inr (.inr h)
      | err => exact .inr (.inl ⟨0, by simp, congrArg some (congrArg _ (wroteAll_one_err b s).symm)⟩)
    · rw [e]; exact .inr (.inr rfl)

/-- Every write answered `ok` by the script. -/
theorem sendAll_ok {ws : List (List Byte)} {s : State} {rest : List Answer}
    (h : s.answers = List.replicate ws.length (.answered .ok) ++ rest) :
    sendAll ws s = some (.ok, wroteAll ws.length (okEvents s.addr ws) s) := by
  induction ws generalizing s with
  | nil => simp [sendAll, wroteAll, okEvents]
  | cons b ws ih =>
    rw [List.length_cons, List.replicate_succ, List.cons_append] at h
    rw [sendAll, busWrite_scripted h]
    have := ih (s := wrote b .ok s) (by simp [wrote, h])
    simp only [this, wroteAll_wrote]; rfl

/-- The script answers `ok` to `k` writes and `err` to the next. -/
theorem sendAll_err {ws : List (List Byte)} {s : State} {rest : List Answer} {k : Nat} (hk : k < ws.length)
    (h : s.answers = List.replicate k (.answered .ok) ++ .answered .err :: rest) :
    sendAll ws s =
      some (.err, wroteAll (k + 1) (okEvents s.addr (ws.take k) ++ [.busWrite s.addr ws[k] .err]) s) := by
  induction ws generalizing s k with
  | nil => simp at hk
  | cons b ws ih =>
    cases k with
    | zero =>
      rw [sendAll, busWrite_scripted (by simpa using h)]
      exact congrArg some (congrArg _ (wroteAll_one_err b s).symm)
    | succ k =>
      rw [List.replicate_succ, List.cons_append] at h
      rw [sendAll, busWrite_scripted h]
      have := ih (s := wrote b .ok s) (k := k) (by simpa using hk) (by simp [wrote, h])
      simp only [this, wroteAll_wrote]; rfl

/-- When the transport answers, a sequence of writes comes to an end, and it still answers what follows. -/
theorem sendAll_answering {s : State} (h : s.Answering) (ws : List (List Byte)) :
    ∃ r t, sendAll ws s = some (r, t) ∧ t.Answering := by
  induction ws generalizing s with
  | nil => exact ⟨.ok, s, rfl, h⟩
  | cons b ws ih =>
    obtain ⟨r, e⟩ := busWrite_answering h b
    have next : (wrote b r s).Answering := fun a ha => h a (List.mem_of_mem_tail ha)
    rw [sendAll, e]
    cases r with
    | ok => exact ih next
    | err => exact ⟨.err, _, rfl, next⟩

/-! ## Operations that write -/

/-- Everything an operation with one bus write can do. -/
theorem writeOperation_cases (bytes : List Byte) (s : State) :
    writeOperation bytes s = .next (complete (wrote bytes .ok s)) ∨
      writeOperation bytes s = .next (raise .busError (wrote bytes .err s)) ∨
      writeOperation bytes s = .fault .transportSilent := by
  unfold writeOperation
  rcases busWrite_cases bytes s with ⟨r, -, e⟩ | ⟨-, e⟩ <;> rw [e]
  · cases r
    · exact .inl rfl
    · exact .inr (.inl rfl)
  · exact .inr (.inr rfl)

/-- Everything one of the block's bus writes by itself can do: refused without a session or where the block does not
make it, otherwise one write that is answered or never is. -/
theorem wireWrite_cases (i : Instr) (s : State) :
    (s.st = .uninitialized ∧ wireWrite i s = .refused .noSession) ∨
      (s.st ≠ .uninitialized ∧ emittedIn s.st i = false ∧ wireWrite i s = .refused .notEmitted) ∨
      (emittedIn s.st i = true ∧
        (wireWrite i s = .next (wrote (writeBytes i s) .ok s) ∨
          wireWrite i s = .next (failWrite (wrote (writeBytes i s) .err s)) ∨
          wireWrite i s = .fault .transportSilent)) := by
  unfold wireWrite
  by_cases h : s.st = .uninitialized
  · exact .inl ⟨h, if_pos h⟩
  · rw [if_neg h]
    by_cases e : emittedIn s.st i = true
    · rw [if_pos e]
      refine .inr (.inr ⟨e, ?_⟩)
      rcases busWrite_cases (writeBytes i s) s with ⟨r, -, e⟩ | ⟨-, e⟩ <;> rw [e]
      · cases r
        · exact .inl rfl
        · exact .inr (.inl rfl)
      · exact .inr (.inr rfl)
    · exact .inr (.inl ⟨h, by simpa using e, if_neg e⟩)

/-- A bus write the block makes, by the answer it gets. -/
theorem wireWrite_answered {i : Instr} {s : State} {r : BusResult} (e : emittedIn s.st i = true)
    (h : (takeAnswer s).1 = .answered r) : wireWrite i s = .next (afterWrite r (wrote (writeBytes i s) r s)) := by
  have hs : s.st ≠ .uninitialized := by
    intro hs
    rw [hs] at e
    cases e
  unfold wireWrite
  rw [if_neg hs, if_pos e]
  rcases busWrite_cases (writeBytes i s) s with ⟨r', h', e⟩ | ⟨h', -⟩ <;> rw [h] at h'
  · cases h'
    rw [e]
  · cases h'

@[simp] theorem initWrites_length (w h : Int) : (initWrites w h).length = 18 := rfl

/-- During INIT a failed write discards the session. -/
theorem failWrite_initializing {s : State} (h : s.st = .initializing) :
    failWrite s = raise .busError (discardSession s) := if_pos h

/-- In `Ready` a failed write changes nothing of the block. -/
theorem failWrite_ready {s : State} (h : s.st = .ready) : failWrite s = raise .busError s := by
  simp [failWrite, h]

/-- Everything the closing frame of INIT can do. -/
theorem firstFrame_cases {s : State} (hs : s.st = .initializing) :
    firstFrame s = .next (complete { wrote (frame s) .ok s with st := .ready }) ∨
      firstFrame s = .next (raise .busError (discardSession (wrote (frame s) .err s))) ∨
      firstFrame s = .fault .transportSilent := by
  unfold firstFrame
  rcases busWrite_cases (frame s) s with ⟨r, -, e⟩ | ⟨-, e⟩ <;> rw [e]
  · cases r with
    | ok => exact .inl rfl
    | err => exact .inr (.inl (congrArg Host.Outcome.next (failWrite_initializing (s := wrote (frame s) .err s) hs)))
  · exact .inr (.inr rfl)

/-- The state in which INIT sends its closing frame: all 18 commands answered `ok`, the framebuffer cleared. -/
def configured (s : State) : State :=
  clearFramebuffer (wroteAll 18 (okEvents s.addr (initWrites s.w s.h)) (resetPulse s))

@[simp] theorem configured_st (s : State) : (configured s).st = s.st := by simp [configured]
@[simp] theorem configured_w (s : State) : (configured s).w = s.w := by simp [configured]
@[simp] theorem configured_h (s : State) : (configured s).h = s.h := by simp [configured]
@[simp] theorem configured_addr (s : State) : (configured s).addr = s.addr := by simp [configured]
@[simp] theorem configured_cx (s : State) : (configured s).cx = s.cx := by simp [configured]
@[simp] theorem configured_cy (s : State) : (configured s).cy = s.cy := by simp [configured]
@[simp] theorem configured_rst (s : State) : (configured s).rst = some .high := by simp [configured]
@[simp] theorem configured_fb (s : State) : (configured s).fb = s.fb.clear := by simp [configured]
@[simp] theorem configured_requests (s : State) : (configured s).requests = s.requests := by simp [configured]
@[simp] theorem configured_replies (s : State) : (configured s).replies = s.replies := by simp [configured]
@[simp] theorem configured_answers (s : State) : (configured s).answers = s.answers.drop 18 := by simp [configured]
@[simp] theorem configured_writes (s : State) : (configured s).writes = s.writes + 18 := by simp [configured]
@[simp] theorem configured_trace (s : State) : (configured s).trace =
    s.trace ++ [.resetLine .low, .delay .tRstLow, .resetLine .high, .delay .tRstHigh] ++
      okEvents s.addr (initWrites s.w s.h) := by simp [configured]
@[simp] theorem configured_discards (s : State) : (configured s).discards = s.discards := by simp [configured]

/-- Everything INIT can do after validation: it ends `Ready` after 19 writes answered `ok`; or write `k + 1` of the 18
commands, or the frame, answers `err` and the session is discarded; or the transport is silent. -/
theorem construct_cases {s : State} (hs : s.st = .initializing) :
    construct s = .next (complete { wrote (frame (configured s)) .ok (configured s) with st := .ready }) ∨
      (∃ k, ∃ h : k < (initWrites s.w s.h).length, construct s = .next (raise .busError (discardSession
        (wroteAll (k + 1) (okEvents s.addr ((initWrites s.w s.h).take k) ++
          [.busWrite s.addr (initWrites s.w s.h)[k] .err]) (resetPulse s))))) ∨
      construct s = .next (raise .busError (discardSession (wrote (frame (configured s)) .err (configured s)))) ∨
      construct s = .fault .transportSilent := by
  unfold construct
  rcases sendAll_cases (initWrites s.w s.h) (resetPulse s) with e | ⟨k, hk, e⟩ | e <;> rw [e]
  · rcases firstFrame_cases (s := configured s) ((configured_st s).trans hs) with e' | e' | e'
    · exact .inl e'
    · exact .inr (.inr (.inl e'))
    · exact .inr (.inr (.inr e'))
  · exact .inr (.inl ⟨k, hk, congrArg Host.Outcome.next (failWrite_initializing
      (s := wroteAll _ _ (resetPulse s)) ((resetPulse_st s).trans hs))⟩)
  · exact .inr (.inr (.inr rfl))

end Sys2Proof.Machine
end

