-- ==== Sys2Proof/Laws/Memory.lean ====
section
/-! SUPPORT. The laws of the framebuffer: what a byte reads as after a write, that every operation keeps the canonical
form, and that memories in that form which read alike are equal. -/

namespace Sys2Proof.Machine

/-- A list of cells whose addresses strictly rise. -/
abbrev Rising (cs : List Host.Cell) : Prop := cs.Pairwise fun a b => a.1 < b.1

theorem lookupCell_of_not_listed {cs : List Host.Cell} {i : Nat} (h : ∀ c ∈ cs, c.1 ≠ i) :
    lookupCell cs i = unlistedByte := by
  induction cs with
  | nil => rfl
  | cons c cs ih =>
    rw [lookupCell, if_neg (h c (by simp))]
    exact ih fun d hd => h d (by simp [hd])

theorem lookupCell_below {cs : List Host.Cell} {i : Nat} (h : ∀ c ∈ cs, i < c.1) :
    lookupCell cs i = unlistedByte :=
  lookupCell_of_not_listed fun c hc => (h c hc).ne'

/-- A read after a write: the value at the written address, every other address as before. -/
theorem lookupCell_insertCell {cs : List Host.Cell} (h : Rising cs) (i j : Nat) (v : Byte) :
    lookupCell (insertCell i v cs) j = if j = i then v else lookupCell cs j := by
  induction cs with
  | nil => by_cases hv : v = unlistedByte <;> by_cases hj : i = j <;> simp [insertCell, lookupCell, *, eq_comm]
  | cons c cs ih =>
    obtain ⟨hc, hcs⟩ := List.pairwise_cons.1 h
    rw [insertCell]
    split
    · rename_i hlt
      have below : lookupCell (c :: cs) i = unlistedByte :=
        lookupCell_below (by
          intro d hd
          rcases List.mem_cons.1 hd with rfl | hd
          · exact hlt
          · exact hlt.trans (hc d hd))
      split
      · by_cases hj : j = i <;> simp_all
      · by_cases hj : i = j <;> simp [lookupCell, hj, eq_comm]
    · split
      · rename_i hge heq
        have below : lookupCell cs i = unlistedByte := lookupCell_below fun d hd => heq ▸ hc d hd
        split
        · by_cases hj : j = i
          · simp_all
          · simp [lookupCell, heq, hj, Ne.symm hj]
        · by_cases hj : i = j <;> simp [lookupCell, heq, hj, eq_comm]
      · rename_i hge hne
        rw [lookupCell, ih hcs, lookupCell]
        by_cases hj : c.1 = j
        · rw [if_pos hj, if_pos hj, if_neg fun e => hne (hj.trans e)]
        · simp [hj]

theorem mem_insertCell {cs : List Host.Cell} {i : Nat} {v : Byte} {c : Host.Cell} (h : c ∈ insertCell i v cs) :
    c ∈ cs ∨ (c = (i, v) ∧ v ≠ unlistedByte) := by
  induction cs with
  | nil =>
    rw [insertCell] at h
    split at h <;> simp_all
  | cons d ds ih =>
    rw [insertCell] at h
    split at h
    · split at h
      · exact .inl h
      · rcases List.mem_cons.1 h with rfl | h
        · exact .inr ⟨rfl, ‹_›⟩
        · exact .inl h
    · split at h
      · split at h
        · exact .inl (List.mem_cons_of_mem _ h)
        · rcases List.mem_cons.1 h with rfl | h
          · exact .inr ⟨rfl, ‹_›⟩
          · exact .inl (List.mem_cons_of_mem _ h)
      · rcases List.mem_cons.1 h with rfl | h
        · exact .inl (List.mem_cons_self ..)
        · rcases ih h with h | h
          · exact .inl (List.mem_cons_of_mem _ h)
          · exact .inr h

theorem rising_insertCell {cs : List Host.Cell} (h : Rising cs) (i : Nat) (v : Byte) : Rising (insertCell i v cs) := by
  induction cs with
  | nil => rw [insertCell]; split <;> simp
  | cons c cs ih =>
    obtain ⟨hc, hcs⟩ := List.pairwise_cons.1 h
    rw [insertCell]
    split
    · rename_i hlt
      split
      · exact h
      · refine List.pairwise_cons.2 ⟨fun d hd => ?_, h⟩
        rcases List.mem_cons.1 hd with rfl | hd
        · exact hlt
        · exact hlt.trans (hc d hd)
    · split
      · rename_i hge heq
        split
        · exact hcs
        · exact List.pairwise_cons.2 ⟨fun d hd => heq ▸ hc d hd, hcs⟩
      · rename_i hge hne
        refine List.pairwise_cons.2 ⟨fun d hd => ?_, ih hcs⟩
        rcases mem_insertCell hd with hd | ⟨rfl, -⟩
        · exact hc d hd
        · show c.1 < i
          omega

/-! ## The operations -/

@[simp] theorem Memory.read_absent (i : Nat) : Memory.absent.read i = none := rfl

@[simp] theorem Memory.write_size (m : Memory) (i : Nat) (v : Byte) : (m.write i v).size = m.size := by
  unfold Memory.write; split <;> rfl

@[simp] theorem Memory.clear_size (m : Memory) : m.clear.size = m.size := rfl

@[simp] theorem Memory.putPixel_size (m : Memory) (i b : Nat) (c : Bit) : (m.putPixel i b c).size = m.size := by
  unfold Memory.putPixel; split <;> simp

theorem Memory.absent_wf : Memory.absent.wf := by simp [Memory.wf, Memory.absent]

theorem Memory.allocate_wf (n : Nat) : (Memory.allocate n).wf := by simp [Memory.wf, Memory.allocate]

theorem Memory.clear_wf (m : Memory) : m.clear.wf := by simp [Memory.wf, Memory.clear]

theorem Memory.write_wf {m : Memory} (h : m.wf) (i : Nat) (v : Byte) : (m.write i v).wf := by
  unfold Memory.write
  split
  · refine ⟨rising_insertCell h.1 i v, fun c hc => ?_⟩
    rcases mem_insertCell hc with hc | ⟨rfl, hv⟩
    · exact h.2 c hc
    · exact ⟨hv, ‹_›⟩
  · exact h

theorem Memory.putPixel_wf {m : Memory} (h : m.wf) (i b : Nat) (c : Bit) : (m.putPixel i b c).wf := by
  unfold Memory.putPixel
  split
  · exact Memory.write_wf h i _
  · exact h

/-- The basic law of memory. -/
theorem Memory.read_write {m : Memory} (h : m.wf) (i j : Nat) (v : Byte) :
    (m.write i v).read j = if j = i ∧ i < m.size then some v else m.read j := by
  unfold Memory.write Memory.read
  by_cases hi : i < m.size
  · by_cases hj : j = i <;> by_cases hs : j < m.size <;> simp_all [lookupCell_insertCell h.1]
  · simp [hi]

theorem Memory.read_clear (m : Memory) (i : Nat) : m.clear.read i = if i < m.size then some 0x00 else none := rfl

theorem Memory.read_allocate (n i : Nat) : (Memory.allocate n).read i = if i < n then some 0x00 else none := rfl

theorem Memory.read_of_lt {m : Memory} {i : Nat} (h : i < m.size) : m.read i = some (lookupCell m.cells i) := if_pos h

/-- The whole effect of changing one pixel of memory: the byte at `i`, if it exists, has bit `b` put. -/
theorem Memory.read_putPixel {m : Memory} (h : m.wf) (i b j : Nat) (c : Bit) :
    (m.putPixel i b c).read j = if j = i then (m.read j).map (putBit · b c) else m.read j := by
  unfold Memory.putPixel
  by_cases hi : i < m.size
  · rw [Memory.read_of_lt hi]
    simp only [Memory.read_write h, hi, and_true]
    by_cases hj : j = i
    · subst hj; simp [Memory.read_of_lt hi]
    · simp [hj]
  · have : m.read i = none := if_neg hi
    rw [this]
    by_cases hj : j = i
    · subst hj; simp [this]
    · simp [hj]

theorem Memory.lookup_putPixel {m : Memory} (h : m.wf) {i : Nat} (hi : i < m.size) (b j : Nat) (c : Bit) :
    lookupCell (m.putPixel i b c).cells j =
      if j = i then putBit (lookupCell m.cells i) b c else lookupCell m.cells j := by
  simp only [Memory.putPixel, Memory.read_of_lt hi, Memory.write, if_pos hi, lookupCell_insertCell h.1]

theorem Memory.bytes_length (m : Memory) : m.bytes.length = m.size := by simp [Memory.bytes]

theorem Memory.bytes_getElem? (m : Memory) (i : Nat) : m.bytes[i]? = m.read i := by
  simp only [Memory.bytes, Memory.read, List.getElem?_map]
  by_cases h : i < m.size <;> simp [h]

/-! ## Equal memories are equal data -/

theorem lookupCell_head {c : Host.Cell} {cs : List Host.Cell} : lookupCell (c :: cs) c.1 = c.2 := by simp [lookupCell]

theorem cells_eq_of_lookup {cs ds : List Host.Cell} (hc : Rising cs) (hd : Rising ds)
    (nc : ∀ c ∈ cs, c.2 ≠ unlistedByte) (nd : ∀ d ∈ ds, d.2 ≠ unlistedByte)
    (h : ∀ i, lookupCell cs i = lookupCell ds i) : cs = ds := by
  induction cs generalizing ds with
  | nil =>
    cases ds with
    | nil => rfl
    | cons d ds => exact absurd ((h d.1).symm.trans rfl) (by simpa [lookupCell] using nd d (by simp))
  | cons c cs ih =>
    cases ds with
    | nil => exact absurd (h c.1) (by simpa [lookupCell] using nc c (by simp))
    | cons d ds =>
      obtain ⟨c1, c2⟩ := List.pairwise_cons.1 hc
      obtain ⟨d1, d2⟩ := List.pairwise_cons.1 hd
      have addr : c.1 = d.1 := by
        rcases Nat.lt_trichotomy c.1 d.1 with lt | eq | gt
        · have := lookupCell_below (cs := d :: ds) (i := c.1) (by
            intro e he
            rcases List.mem_cons.1 he with rfl | he
            · exact lt
            · exact lt.trans (d1 e he))
          rw [← h, lookupCell_head] at this
          exact absurd this (nc c (by simp))
        · exact eq
        · have := lookupCell_below (cs := c :: cs) (i := d.1) (by
            intro e he
            rcases List.mem_cons.1 he with rfl | he
            · exact gt
            · exact gt.trans (c1 e he))
          rw [h, lookupCell_head] at this
          exact absurd this (nd d (by simp))
      have val : c.2 = d.2 := by
        have := h c.1
        rwa [lookupCell_head, addr, lookupCell_head] at this
      have tail : cs = ds := ih c2 d2 (fun e he => nc e (by simp [he])) (fun e he => nd e (by simp [he])) fun i => by
        by_cases hi : c.1 = i
        · rw [lookupCell_below fun e he => hi ▸ c1 e he, lookupCell_below fun e he => by
            rw [← hi, addr]; exact d1 e he]
        · have := h i
          rwa [lookupCell, if_neg hi, lookupCell, if_neg fun e => hi (addr.trans e)] at this
      rw [tail, Prod.ext addr val]

/-- Memories in canonical form that read alike are the same data. -/
theorem Memory.eq_of_read {m n : Memory} (hm : m.wf) (hn : n.wf) (size : m.size = n.size)
    (h : ∀ i, m.read i = n.read i) : m = n := by
  have cells : m.cells = n.cells := by
    refine cells_eq_of_lookup hm.1 hn.1 (fun c hc => (hm.2 c hc).1) (fun c hc => (hn.2 c hc).1) fun i => ?_
    by_cases hi : i < m.size
    · have := h i
      rwa [Memory.read_of_lt hi, Memory.read_of_lt (size ▸ hi), Option.some.injEq] at this
    · rw [lookupCell_of_not_listed fun c hc e => hi (by rw [← e]; exact (hm.2 c hc).2),
        lookupCell_of_not_listed fun c hc e => hi (by rw [size, ← e]; exact (hn.2 c hc).2)]
  obtain ⟨ms, mc⟩ := m
  obtain ⟨ns, nc⟩ := n
  simp_all

end Sys2Proof.Machine
end

