-- ==== Sys2Proof/Laws/PerInstr.lean ====
section
/-! SUPPORT. Statements made once per instruction: the space its word lies in (30_encoding.md rules R51, R54, R57,
R58, R59). -/

namespace Sys2Proof.Laws.WordSpace

open Sys2Proof Sys2Proof.Machine

/-- An operation's word has one of the 13 select codes, none of them reserved (rules R51, R58); a bus write's word is the
control byte of the data frame, or `0x00` and a command byte with the number of argument bytes that command byte fixes
(rules R54, R57, R59). -/
def Statement (i : Instr) : Prop :=
  match encode i with
  | .descriptor op _ => op.toNat < 13 ∧ isOperation i = true
  | .busWrite bytes => bytes = [0x40] ∨ ∃ c args, bytes = 0x00 :: c :: args ∧ commandLength c = some bytes.length

theorem init (addr w h : Int) : Statement (.init addr w h) := ⟨by decide, rfl⟩
theorem home : Statement .home := ⟨by decide, rfl⟩
theorem move (x y : Int) : Statement (.move x y) := ⟨by decide, rfl⟩
theorem plot (x y : Int) (color : Bit) : Statement (.plot x y color) := ⟨by decide, rfl⟩
theorem line (x0 y0 x1 y1 thickness : Int) (color : Bit) : Statement (.line x0 y0 x1 y1 thickness color) := ⟨by decide, rfl⟩
theorem circle (cx cy radius : Int) (color filled : Bit) : Statement (.circle cx cy radius color filled) := ⟨by decide, rfl⟩
theorem rect (x y w h : Int) (color filled : Bit) : Statement (.rect x y w h color filled) := ⟨by decide, rfl⟩
theorem text (codes : List Int) (wrap : Bit) : Statement (.text codes wrap) := ⟨by decide, rfl⟩
theorem text2x (codes : List Int) (wrap : Bit) : Statement (.text2x codes wrap) := ⟨by decide, rfl⟩
theorem lengthOfString (codes : List Int) : Statement (.lengthOfString codes) := ⟨by decide, rfl⟩
theorem clear : Statement .clear := ⟨by decide, rfl⟩
theorem draw : Statement .draw := ⟨by decide, rfl⟩
theorem setInverse (flag : Bit) : Statement (.setInverse flag) := ⟨by decide, rfl⟩
theorem displayoff : Statement .displayoff := .inr ⟨_, _, rfl, rfl⟩
theorem clockdiv : Statement .clockdiv := .inr ⟨_, _, rfl, rfl⟩
theorem multiplex (a : Byte) : Statement (.multiplex a) := .inr ⟨_, _, rfl, rfl⟩
theorem displayoffset : Statement .displayoffset := .inr ⟨_, _, rfl, rfl⟩
theorem startline : Statement .startline := .inr ⟨_, _, rfl, rfl⟩
theorem chargepump : Statement .chargepump := .inr ⟨_, _, rfl, rfl⟩
theorem memorymode : Statement .memorymode := .inr ⟨_, _, rfl, rfl⟩
theorem segremap : Statement .segremap := .inr ⟨_, _, rfl, rfl⟩
theorem comscandec : Statement .comscandec := .inr ⟨_, _, rfl, rfl⟩
theorem setcompins (a : Byte) : Statement (.setcompins a) := .inr ⟨_, _, rfl, rfl⟩
theorem contrast : Statement .contrast := .inr ⟨_, _, rfl, rfl⟩
theorem precharge : Statement .precharge := .inr ⟨_, _, rfl, rfl⟩
theorem vcomdetect : Statement .vcomdetect := .inr ⟨_, _, rfl, rfl⟩
theorem displayallonResume : Statement .displayallonResume := .inr ⟨_, _, rfl, rfl⟩
theorem normaldisplay : Statement .normaldisplay := .inr ⟨_, _, rfl, rfl⟩
theorem displayon : Statement .displayon := .inr ⟨_, _, rfl, rfl⟩
theorem columnaddr (b : Byte) : Statement (.columnaddr b) := .inr ⟨_, _, rfl, rfl⟩
theorem pageaddr (b : Byte) : Statement (.pageaddr b) := .inr ⟨_, _, rfl, rfl⟩
theorem invertdisplay : Statement .invertdisplay := .inr ⟨_, _, rfl, rfl⟩
theorem data : Statement .data := .inl rfl

end Sys2Proof.Laws.WordSpace
end

