-- ==== Sys2Proof/Laws/Pixels.lean ====
section
/-! SUPPORT. The laws of drawing: where a pixel lies in the framebuffer (20_memory.md rule R32), and everything
`plotPixel` and `drawPixels` can do (rules R70, R77). -/

namespace Sys2Proof.Machine

/-! ## The pixel address -/

@[simp] theorem mem_intRange {a b j : Int} : j ∈ intRange a b ↔ a ≤ j ∧ j ≤ b := by
  simp only [intRange, List.mem_map, List.mem_range]
  constructor
  · rintro ⟨k, hk, rfl⟩; omega
  · rintro ⟨h1, h2⟩; exact ⟨(j - a).toNat, by omega, by omega⟩

@[simp] theorem mem_boxPixels {xa ya xb yb : Int} {p : Pixel} :
    p ∈ boxPixels xa ya xb yb ↔ (xa ≤ p.1 ∧ p.1 ≤ xb) ∧ ya ≤ p.2 ∧ p.2 ≤ yb := by
  obtain ⟨x, y⟩ := p
  simp only [boxPixels, List.mem_flatMap, List.mem_map, mem_intRange, Prod.mk.injEq]
  constructor
  · rintro ⟨r, hr, c, hc, rfl, rfl⟩; exact ⟨hc, hr⟩
  · rintro ⟨hx, hy⟩; exact ⟨y, hy, x, hx, rfl, rfl⟩

/-- A pixel's byte exists (rule R38): an index outside `0..N-1` is never generated. -/
theorem pixelIndex_lt {w h : Int} {p : Pixel} (d : dimsLegal w h) (hp : inSurface w h p) :
    pixelIndex w p.1 p.2 < surfaceBytes w h := by
  obtain ⟨x, y⟩ := p
  obtain ⟨hx0, hxw, hy0, hyh⟩ := hp
  obtain ⟨-, -, -, -, hm⟩ := d
  simp only at hx0 hxw hy0 hyh ⊢
  have page : y / 8 + 1 ≤ h / 8 := by omega
  have bound : (y / 8 + 1) * w ≤ h / 8 * w := mul_le_mul_of_nonneg_right page (by omega)
  have nonneg : 0 ≤ y / 8 * w := mul_nonneg (by omega) (by omega)
  rw [add_mul, one_mul] at bound
  simp only [pixelIndex, surfaceBytes, mul_comm w]
  omega

theorem pixelBit_lt (y : Int) : pixelBit y < 8 := by unfold pixelBit; omega

/-- The index and the bit determine the pixel (rule R32). -/
theorem pixel_injective {w h : Int} {p q : Pixel} (hp : inSurface w h p) (hq : inSurface w h q)
    (hi : pixelIndex w p.1 p.2 = pixelIndex w q.1 q.2) (hb : pixelBit p.2 = pixelBit q.2) : p = q := by
  obtain ⟨x, y⟩ := p
  obtain ⟨u, v⟩ := q
  obtain ⟨hx0, hxw, hy0, -⟩ := hp
  obtain ⟨hu0, huw, hv0, -⟩ := hq
  simp only [pixelIndex, pixelBit] at *
  have wpos : 0 < w := by omega
  have ny : 0 ≤ y / 8 * w := mul_nonneg (by omega) (by omega)
  have nv : 0 ≤ v / 8 * w := mul_nonneg (by omega) (by omega)
  have hi' : y / 8 * w + x = v / 8 * w + u := by omega
  have page : y / 8 = v / 8 := by
    have hy := Int.add_mul_ediv_right x (y / 8) wpos.ne'
    have hv := Int.add_mul_ediv_right u (v / 8) wpos.ne'
    rw [Int.ediv_eq_zero_of_lt hx0 hxw] at hy
    rw [Int.ediv_eq_zero_of_lt hu0 huw] at hv
    have : x + y / 8 * w = u + v / 8 * w := by omega
    rw [this] at hy
    omega
  rw [page] at hi'
  ext <;> simp only <;> omega

/-! ## Putting a bit -/

theorem putBit_getLsbD (v : Byte) {b : Nat} (hb : b < 8) (c : Bit) (k : Nat) :
    (putBit v b c).getLsbD k = if k = b then decide (c = 1) else v.getLsbD k := by
  unfold putBit
  by_cases hk8 : k < 8
  · by_cases hc : c = 1
    · rw [if_pos hc]; interval_cases b <;> interval_cases k <;> simp [hc]
    · simp only [hc, if_false, decide_false]; interval_cases b <;> interval_cases k <;> simp
  · have : k ≠ b := by omega
    rw [if_neg this, BitVec.getLsbD_of_ge _ _ (by omega), BitVec.getLsbD_of_ge _ _ (by omega)]

/-! ## One pixel -/

/-- Everything `PlotPixel` can do: nothing, or one bit of an existing byte (rule R70). -/
theorem plotPixel_eq (c : Bit) (s : State) (p : Pixel) :
    (¬ inSurface s.w s.h p ∧ plotPixel c s p = s) ∨
      (inSurface s.w s.h p ∧
        plotPixel c s p = { s with fb := s.fb.putPixel (pixelIndex s.w p.1 p.2) (pixelBit p.2) c }) := by
  unfold plotPixel
  by_cases h : inSurface s.w s.h p
  · exact .inr ⟨h, if_pos h⟩
  · exact .inl ⟨h, if_neg h⟩

/-- `PlotPixel` changes only the framebuffer, and keeps its length and form. -/
theorem plotPixel_frame (c : Bit) (s : State) (p : Pixel) :
    plotPixel c s p = { s with fb := (plotPixel c s p).fb } ∧ (plotPixel c s p).fb.size = s.fb.size ∧
      (s.fb.wf → (plotPixel c s p).fb.wf) := by
  rcases plotPixel_eq c s p with ⟨-, h⟩ | ⟨-, h⟩ <;> rw [h]
  · exact ⟨rfl, rfl, id⟩
  · exact ⟨rfl, Memory.putPixel_size .., fun w => Memory.putPixel_wf w ..⟩

/-- After `PlotPixel` an on-surface pixel has the colour if it is the one plotted, and its old value otherwise. -/
theorem plotPixel_pixel {s : State} (d : dimsLegal s.w s.h) (size : s.fb.size = surfaceBytes s.w s.h) (wf : s.fb.wf)
    (c : Bit) (p : Pixel) {q : Pixel} (hq : inSurface s.w s.h q) :
    (plotPixel c s p).pixel q = if q = p then decide (c = 1) else s.pixel q := by
  rcases plotPixel_eq c s p with ⟨hp, h⟩ | ⟨hp, h⟩ <;> rw [h]
  · rw [if_neg fun e : q = p => hp (e ▸ hq)]
  · simp only [State.pixel, Memory.lookup_putPixel wf (size ▸ pixelIndex_lt d hp)]
    by_cases hi : pixelIndex s.w q.1 q.2 = pixelIndex s.w p.1 p.2
    · rw [if_pos hi, putBit_getLsbD _ (pixelBit_lt _), ← hi]
      by_cases hb : pixelBit q.2 = pixelBit p.2
      · rw [if_pos hb, if_pos (pixel_injective hq hp hi hb)]
      · rw [if_neg hb, if_neg fun e => hb (by rw [e])]
    · rw [if_neg hi, if_neg fun e => hi (by rw [e])]

/-! ## A list of pixels in one colour -/

/-- Everything a list of plots can do: only the framebuffer changes, and it keeps its length and form. -/
theorem drawPixels_frame (ps : List Pixel) (c : Bit) (s : State) :
    drawPixels ps c s = { s with fb := (drawPixels ps c s).fb } ∧ (drawPixels ps c s).fb.size = s.fb.size ∧
      (s.fb.wf → (drawPixels ps c s).fb.wf) := by
  induction ps generalizing s with
  | nil => exact ⟨rfl, rfl, id⟩
  | cons p ps ih =>
    obtain ⟨e1, z1, w1⟩ := plotPixel_frame c s p
    obtain ⟨e2, z2, w2⟩ := ih (plotPixel c s p)
    refine ⟨?_, z2.trans z1, fun w => w2 (w1 w)⟩
    show drawPixels ps c (plotPixel c s p) = { s with fb := (drawPixels ps c (plotPixel c s p)).fb }
    rw [e2, e1]

theorem drawPixels_cons (p : Pixel) (ps : List Pixel) (c : Bit) (s : State) :
    drawPixels (p :: ps) c s = drawPixels ps c (plotPixel c s p) := rfl

@[simp] theorem drawPixels_nil (c : Bit) (s : State) : drawPixels [] c s = s := rfl

theorem drawPixels_append (ps qs : List Pixel) (c : Bit) (s : State) :
    drawPixels (ps ++ qs) c s = drawPixels qs c (drawPixels ps c s) := List.foldl_append ..

@[simp] theorem plotPixel_st (c : Bit) (s : State) (p : Pixel) : (plotPixel c s p).st = s.st := by rw [(plotPixel_frame c s p).1]
@[simp] theorem plotPixel_w (c : Bit) (s : State) (p : Pixel) : (plotPixel c s p).w = s.w := by rw [(plotPixel_frame c s p).1]
@[simp] theorem plotPixel_h (c : Bit) (s : State) (p : Pixel) : (plotPixel c s p).h = s.h := by rw [(plotPixel_frame c s p).1]
@[simp] theorem plotPixel_addr (c : Bit) (s : State) (p : Pixel) : (plotPixel c s p).addr = s.addr := by rw [(plotPixel_frame c s p).1]
@[simp] theorem plotPixel_cx (c : Bit) (s : State) (p : Pixel) : (plotPixel c s p).cx = s.cx := by rw [(plotPixel_frame c s p).1]
@[simp] theorem plotPixel_cy (c : Bit) (s : State) (p : Pixel) : (plotPixel c s p).cy = s.cy := by rw [(plotPixel_frame c s p).1]
@[simp] theorem plotPixel_rst (c : Bit) (s : State) (p : Pixel) : (plotPixel c s p).rst = s.rst := by rw [(plotPixel_frame c s p).1]
@[simp] theorem plotPixel_requests (c : Bit) (s : State) (p : Pixel) : (plotPixel c s p).requests = s.requests := by rw [(plotPixel_frame c s p).1]
@[simp] theorem plotPixel_replies (c : Bit) (s : State) (p : Pixel) : (plotPixel c s p).replies = s.replies := by rw [(plotPixel_frame c s p).1]
@[simp] theorem plotPixel_answers (c : Bit) (s : State) (p : Pixel) : (plotPixel c s p).answers = s.answers := by rw [(plotPixel_frame c s p).1]
@[simp] theorem plotPixel_writes (c : Bit) (s : State) (p : Pixel) : (plotPixel c s p).writes = s.writes := by rw [(plotPixel_frame c s p).1]
@[simp] theorem plotPixel_trace (c : Bit) (s : State) (p : Pixel) : (plotPixel c s p).trace = s.trace := by rw [(plotPixel_frame c s p).1]
@[simp] theorem plotPixel_discards (c : Bit) (s : State) (p : Pixel) : (plotPixel c s p).discards = s.discards := by rw [(plotPixel_frame c s p).1]
@[simp] theorem plotPixel_size (c : Bit) (s : State) (p : Pixel) : (plotPixel c s p).fb.size = s.fb.size := (plotPixel_frame c s p).2.1

@[simp] theorem drawPixels_st (ps : List Pixel) (c : Bit) (s : State) : (drawPixels ps c s).st = s.st := by rw [(drawPixels_frame ps c s).1]
@[simp] theorem drawPixels_w (ps : List Pixel) (c : Bit) (s : State) : (drawPixels ps c s).w = s.w := by rw [(drawPixels_frame ps c s).1]
@[simp] theorem drawPixels_h (ps : List Pixel) (c : Bit) (s : State) : (drawPixels ps c s).h = s.h := by rw [(drawPixels_frame ps c s).1]
@[simp] theorem drawPixels_addr (ps : List Pixel) (c : Bit) (s : State) : (drawPixels ps c s).addr = s.addr := by rw [(drawPixels_frame ps c s).1]
@[simp] theorem drawPixels_cx (ps : List Pixel) (c : Bit) (s : State) : (drawPixels ps c s).cx = s.cx := by rw [(drawPixels_frame ps c s).1]
@[simp] theorem drawPixels_cy (ps : List Pixel) (c : Bit) (s : State) : (drawPixels ps c s).cy = s.cy := by rw [(drawPixels_frame ps c s).1]
@[simp] theorem drawPixels_rst (ps : List Pixel) (c : Bit) (s : State) : (drawPixels ps c s).rst = s.rst := by rw [(drawPixels_frame ps c s).1]
@[simp] theorem drawPixels_requests (ps : List Pixel) (c : Bit) (s : State) : (drawPixels ps c s).requests = s.requests := by rw [(drawPixels_frame ps c s).1]
@[simp] theorem drawPixels_replies (ps : List Pixel) (c : Bit) (s : State) : (drawPixels ps c s).replies = s.replies := by rw [(drawPixels_frame ps c s).1]
@[simp] theorem drawPixels_answers (ps : List Pixel) (c : Bit) (s : State) : (drawPixels ps c s).answers = s.answers := by rw [(drawPixels_frame ps c s).1]
@[simp] theorem drawPixels_writes (ps : List Pixel) (c : Bit) (s : State) : (drawPixels ps c s).writes = s.writes := by rw [(drawPixels_frame ps c s).1]
@[simp] theorem drawPixels_trace (ps : List Pixel) (c : Bit) (s : State) : (drawPixels ps c s).trace = s.trace := by rw [(drawPixels_frame ps c s).1]
@[simp] theorem drawPixels_discards (ps : List Pixel) (c : Bit) (s : State) : (drawPixels ps c s).discards = s.discards := by rw [(drawPixels_frame ps c s).1]
@[simp] theorem drawPixels_size (ps : List Pixel) (c : Bit) (s : State) : (drawPixels ps c s).fb.size = s.fb.size := (drawPixels_frame ps c s).2.1

/-- After the plots an on-surface pixel has the colour if it is in the list, and its old value otherwise. -/
theorem drawPixels_pixel {s : State} (d : dimsLegal s.w s.h) (size : s.fb.size = surfaceBytes s.w s.h) (wf : s.fb.wf)
    (ps : List Pixel) (c : Bit) {q : Pixel} (hq : inSurface s.w s.h q) :
    (drawPixels ps c s).pixel q = if q ∈ ps then decide (c = 1) else s.pixel q := by
  induction ps generalizing s with
  | nil => simp
  | cons p ps ih =>
    obtain ⟨e, z, w⟩ := plotPixel_frame c s p
    have ew : (plotPixel c s p).w = s.w := by rw [e]
    have eh : (plotPixel c s p).h = s.h := by rw [e]
    rw [drawPixels_cons, ih (by rwa [ew, eh]) (by rw [z, ew, eh, size]) (w wf) (by rwa [ew, eh]),
      plotPixel_pixel d size wf c p hq]
    by_cases h1 : q ∈ ps <;> by_cases h2 : q = p <;> simp [h1, h2]

end Sys2Proof.Machine
end

