-- ==== Sys2Proof/Laws/Text.lean ====
section
/-! SUPPORT. The laws of text (41_text.md): which strings have glyphs, where a layout can end, which pixels a character
sets, and everything a text operation can do. -/

namespace Sys2Proof.Machine

/-! ## Glyphs -/

/-- A code has a glyph exactly when it is in `32..127` (rule R90). -/
theorem glyphOf_isSome {table : Fin 96 → List Byte} {c : Int} :
    (∃ g, glyphOf table c = some g) ↔ 32 ≤ c ∧ c ≤ 127 := by
  unfold glyphOf
  by_cases h : 32 ≤ c ∧ c ≤ 127 <;> simp [h]

theorem glyphOf_none {table : Fin 96 → List Byte} {c : Int} (h : c < 32 ∨ 127 < c) : glyphOf table c = none := by
  unfold glyphOf
  rw [dif_neg (by omega)]

/-- A string whose codes all have glyphs has as many glyphs as codes. -/
theorem glyphsOf_some {table : Fin 96 → List Byte} {codes : List Int} (h : ∀ c ∈ codes, 32 ≤ c ∧ c ≤ 127) :
    glyphsOf table codes = some (codes.map fun c => (glyphOf table c).getD []) := by
  induction codes with
  | nil => rfl
  | cons c cs ih =>
    obtain ⟨g, hg⟩ := glyphOf_isSome (table := table).2 (h c (by simp))
    simp [glyphsOf, hg, ih fun d hd => h d (by simp [hd])]

/-- One code without a glyph leaves the string without glyphs. -/
theorem glyphsOf_none {table : Fin 96 → List Byte} {codes : List Int} {c : Int} (hc : c ∈ codes)
    (h : c < 32 ∨ 127 < c) : glyphsOf table codes = none := by
  induction codes with
  | nil => cases hc
  | cons d ds ih =>
    rcases List.mem_cons.1 hc with rfl | hc
    · simp [glyphsOf, glyphOf_none h]
    · rw [glyphsOf, ih hc]; cases glyphOf table d <;> rfl

theorem glyphsOf_eq_nil {table : Fin 96 → List Byte} {codes : List Int} (h : glyphsOf table codes = some []) :
    codes = [] := by
  cases codes with
  | nil => rfl
  | cons c cs =>
    rw [glyphsOf] at h
    split at h <;> simp_all

/-! ## The pixels of a character -/

theorem mem_columnPixels {n : Nat} {col : Int} {bits : BitVec n} {p : Pixel} :
    p ∈ columnPixels col bits ↔ p.1 = col ∧ ∃ k : Nat, k < n ∧ p.2 = k ∧ bits.getLsbD k = true := by
  obtain ⟨x, y⟩ := p
  simp only [columnPixels, List.mem_filterMap, List.mem_range]
  constructor
  · rintro ⟨k, hk, h⟩
    split at h
    · rename_i hb
      obtain ⟨rfl, rfl⟩ := Prod.mk.inj (Option.some.inj h)
      exact ⟨rfl, k, hk, rfl, hb⟩
    · cases h
  · rintro ⟨rfl, k, hk, rfl, hb⟩
    exact ⟨k, hk, by simp [hb]⟩

theorem flip8_getLsbD (v : Byte) {k : Nat} (hk : k < 8) : (flip8 v).getLsbD k = v.getLsbD (7 - k) := by
  simp only [flip8, BitVec.getLsbD_reverse, BitVec.getMsbD, hk, decide_true, Bool.true_and]

/-- Column `j`, row `k` of a single-size character is set where bit `7 - k` of its glyph byte `j` is (rule R91). -/
theorem mem_glyphPixels {g : List Byte} {p : Pixel} :
    p ∈ glyphPixels g ↔
      ∃ (j k : Nat) (b : Byte), g[j]? = some b ∧ k < 8 ∧ p = ((j : Int), (k : Int)) ∧ b.getLsbD (7 - k) = true := by
  simp only [glyphPixels, List.mem_flatMap]
  constructor
  · rintro ⟨⟨b, j⟩, hm, hp⟩
    obtain ⟨hx, k, hk, hy, hb⟩ := mem_columnPixels.1 hp
    rw [flip8_getLsbD _ hk] at hb
    exact ⟨j, k, b, List.mem_zipIdx_iff_getElem?.1 hm, hk, Prod.ext hx hy, hb⟩
  · rintro ⟨j, k, b, hj, hk, rfl, hb⟩
    exact ⟨(b, j), List.mem_zipIdx_iff_getElem?.2 hj, mem_columnPixels.2 ⟨rfl, k, hk, rfl, by
      rw [flip8_getLsbD _ hk]; exact hb⟩⟩

/-- The pixels of a single-size character are those `SingleSizePixel` describes (rules R91, R92). -/
theorem mem_glyphPixels_iff {g : List Byte} {p : Pixel} : p ∈ glyphPixels g ↔ SingleSizePixel g p.1 p.2 := by
  simp only [mem_glyphPixels, SingleSizePixel, Prod.ext_iff, and_assoc]

/-- The pixels of a double-size character are those `DoubleSizePixel` describes (rules R93, R97). -/
theorem mem_glyph2xPixels_iff {extra : Option Byte → Byte → Option Byte → BitVec 16 × BitVec 16} {g : List Byte}
    {p : Pixel} : p ∈ glyph2xPixels extra g ↔ DoubleSizePixel extra g p.1 p.2 := by
  simp only [glyph2xPixels, DoubleSizePixel, List.mem_flatMap, List.mem_append, mem_columnPixels, List.getElem?_map]
  constructor
  · rintro ⟨⟨v, j⟩, hm, h⟩
    rw [List.mem_zipIdx_iff_getElem?, List.getElem?_map] at hm
    obtain ⟨b, hb, rfl⟩ := Option.map_eq_some_iff.1 hm
    rcases h with ⟨hx, k, hk, hy, hs⟩ | ⟨hx, k, hk, hy, hs⟩
    · exact ⟨j, k, b, hb, hk, hy, .inl ⟨hx, hs⟩⟩
    · exact ⟨j, k, b, hb, hk, hy, .inr ⟨hx, hs⟩⟩
  · rintro ⟨j, k, b, hb, hk, hy, h⟩
    refine ⟨(flip8 b, j), by simp [List.mem_zipIdx_iff_getElem?, hb], ?_⟩
    rcases h with ⟨hx, hs⟩ | ⟨hx, hs⟩
    · exact .inl ⟨hx, k, hk, hy, hs⟩
    · exact .inr ⟨hx, k, hk, hy, hs⟩

/-! ## Layouts -/

/-- What a text size needs for the wrap step to keep a position on the surface. -/
structure TextSize.Sane (size : TextSize) : Prop where
  row     : 0 < size.row
  advance : ∀ g, 0 ≤ size.advance g

theorem singleSize_sane : singleSize.Sane := ⟨by decide, fun g => by simp [singleSize]; omega⟩

theorem doubleSize_sane (extra : Option Byte → Byte → Option Byte → BitVec 16 × BitVec 16) :
    (doubleSize extra).Sane := ⟨by simp [doubleSize], fun g => by simp [doubleSize]; omega⟩

/-- Everything the wrap step can do (rule R95): stay, wrap to column 0 of a row that fits, or stop where it is. -/
theorem wrapStep_cases (w h x y wpx row : Int) (wrap : Bit) :
    wrapStep w h x y wpx row wrap = (x, y, .go) ∨
      (w < x + wpx ∧ wrap = 1 ∧ y + 2 * row ≤ h ∧ wrapStep w h x y wpx row wrap = (0, y + row, .go)) ∨
      (w < x + wpx ∧ wrapStep w h x y wpx row wrap = (x, y, .stop)) := by
  unfold wrapStep
  split
  · rename_i hx
    split
    · rename_i hv
      split
      · exact .inr (.inl ⟨hx, hv, ‹_›, rfl⟩)
      · exact .inr (.inr ⟨hx, rfl⟩)
    · split
      · exact .inr (.inr ⟨hx, rfl⟩)
      · exact .inl rfl
  · exact .inl rfl

/-- A character that fits is drawn where the position is. -/
theorem wrapStep_fits {w h x y wpx row : Int} {wrap : Bit} (fits : x + wpx ≤ w) :
    wrapStep w h x y wpx row wrap = (x, y, .go) := if_neg (by omega)

/-- A layout that starts on the surface's rows ends on them, never moves up, and never left of column 0. -/
theorem layout_bounds {size : TextSize} (sane : size.Sane) {w h : Int} (wrap : Bit) (gs : List (List Byte)) {x y : Int}
    (hx : 0 ≤ x) (hy : 0 ≤ y) (hh : y < h) :
    0 ≤ (layout size w h wrap gs x y).x ∧ y ≤ (layout size w h wrap gs x y).y ∧
      (layout size w h wrap gs x y).y < h := by
  induction gs generalizing x y with
  | nil => exact ⟨hx, le_refl y, hh⟩
  | cons g gs ih =>
    have row := sane.row
    have adv := sane.advance g
    rw [layout]
    rcases wrapStep_cases w h x y (size.width g) size.row wrap with e | ⟨-, -, fit, e⟩ | ⟨-, e⟩ <;> rw [e]
    · exact ih (by omega) hy hh
    · obtain ⟨h1, h2, h3⟩ := ih (x := 0 + size.advance g) (y := y + size.row) (by omega) (by omega) (by omega)
      exact ⟨h1, by simp only; omega, h3⟩
    · exact ⟨hx, le_refl y, hh⟩

/-! ## A text operation -/

/-- Placing text changes only the framebuffer and the cursor; the length and the form of the framebuffer stay. -/
theorem placeText_frame (l : Layout) (s : State) :
    placeText l s = { s with fb := (drawPixels l.pixels 1 s).fb, cx := min l.x (s.w - 1), cy := l.y } := by
  unfold placeText
  rw [(drawPixels_frame l.pixels 1 s).1]

/-- Everything TEXT and TEXT_2X can do once accepted (rules R90, R92, R93): refuse the string, raise
`InvalidArgument`, or place the laid-out glyphs. -/
theorem drawText_cases (size : TextSize) (table : Fin 96 → List Byte) (codes : List Int) (wrap : Bit) (s : State) :
    (glyphsOf table codes = none ∧ drawText size table codes wrap s = .refused .characterCode) ∨
      (codes = [] ∧ drawText size table codes wrap s = .next (raise .invalidArgument s)) ∨
      (∃ gs, glyphsOf table codes = some gs ∧ codes ≠ [] ∧
        drawText size table codes wrap s =
          .next (complete (placeText (layout size s.w s.h wrap gs s.cx s.cy) s))) := by
  unfold drawText
  cases h : glyphsOf table codes with
  | none => exact .inl ⟨rfl, rfl⟩
  | some gs =>
    cases gs with
    | nil => exact .inr (.inl ⟨glyphsOf_eq_nil h, rfl⟩)
    | cons g gs => exact .inr (.inr ⟨g :: gs, rfl, (by rintro rfl; cases h), rfl⟩)

end Sys2Proof.Machine
end

