-- ==== Sys2Proof/Tests/Slice0.lean ====
section
/-! SUPPORT. The model's own tests. Expected values are those of 95_test_vectors.md (their ids are named) or are read
from the rule named; the witnesses at the end show, for each statement with hypotheses, a state and operands that meet
them together. -/

namespace Sys2Proof.Tests

open Sys2Proof Sys2Proof.Machine

/-! ## Helpers -/

/-- What `f` reads from the next state, if there is one. -/
def after {α : Type} (f : State → α) : Host.Outcome State Fault Refusal → Option α
  | .next t => some (f t)
  | _ => none

/-- The refusal, if there is one. -/
def refusal : Host.Outcome State Fault Refusal → Option Refusal
  | .refused r => some r
  | _ => none

/-- A ready session at `0x3C`. -/
def screen (w h : Int) (cells : List Host.Cell) (cx cy : Int) (answers : List Answer) : State where
  st := .ready
  w := w
  h := h
  addr := 0x3C
  cx := cx
  cy := cy
  rst := some .high
  fb := { size := surfaceBytes w h, cells := cells }
  requests := []
  replies := []
  answers := answers
  writes := 0
  trace := []
  discards := 0

/-- A 16 by 16 session with a clear framebuffer and the cursor at the origin. -/
def blank : State := screen 16 16 [] 0 0 []

/-- The block before INIT, with an answer script. -/
def unopened (answers : List Answer) : State :=
  { screen 0 0 [] 0 0 answers with st := .uninitialized, rst := none, fb := Memory.absent }

/-- An INIT in progress: the state in which its own bus writes are made. -/
def opening (answers : List Answer) : State := { screen 8 8 [] 0 0 answers with st := .initializing }

/-- The host's next request. -/
def asking (word : InstrWord) (s : State) : State := { s with requests := [⟨word, false⟩] }

/-- The three made-up glyphs of 95_test_vectors.md. -/
def fixture (i : Fin 96) : List Byte :=
  if i = 33 then [0x80, 0xFF, 0x01] else if i = 1 then [0xFA] else if i = 0 then [0x00, 0x00] else []

/-- No smoothing, the fallback of rule R97. -/
def plain : Option Byte → Byte → Option Byte → BitVec 16 × BitVec 16 := fun _ _ _ => (0, 0)

/-- Truncation toward zero on the quotients of this file, as a choice of the open parameter: up below zero. -/
def truncating (v : Rat) : Bool := decide (v.num < 0)

/-! ## Decoding: one word written out from the spec's encoding for every instruction -/

theorem test_decode_init : decode (.descriptor 0b0000 [.int 60, .int 128, .int 64]) = .ok (.init 60 128 64) := by decide
theorem test_decode_home : decode (.descriptor 0b0001 []) = .ok .home := by decide
theorem test_decode_move : decode (.descriptor 0b0010 [.int 127, .int 63]) = .ok (.move 127 63) := by decide
theorem test_decode_plot_default : decode (.descriptor 0b0011 [.int 3, .int 4]) = .ok (.plot 3 4 1) := by decide
theorem test_decode_line :
    decode (.descriptor 0b0100 [.int 1, .int 2, .int 5, .int 2, .int 3, .int 0]) = .ok (.line 1 2 5 2 3 0) := by decide
theorem test_decode_line_default :
    decode (.descriptor 0b0100 [.int 1, .int 2, .int 5, .int 3]) = .ok (.line 1 2 5 3 1 1) := by decide
theorem test_decode_circle_default :
    decode (.descriptor 0b0101 [.int 10, .int 11, .int 3]) = .ok (.circle 10 11 3 1 0) := by decide
theorem test_decode_rect :
    decode (.descriptor 0b0110 [.int 2, .int 3, .int 4, .int 5, .int 0, .int 1]) = .ok (.rect 2 3 4 5 0 1) := by decide
theorem test_decode_text_default : decode (.descriptor 0b0111 [.str [65, 33]]) = .ok (.text [65, 33] 1) := by decide
theorem test_decode_text2x :
    decode (.descriptor 0b1000 [.str [65], .int 0]) = .ok (.text2x [65] 0) := by decide
theorem test_decode_length : decode (.descriptor 0b1001 [.str []]) = .ok (.lengthOfString []) := by decide
theorem test_decode_clear : decode (.descriptor 0b1010 []) = .ok .clear := by decide
theorem test_decode_draw : decode (.descriptor 0b1011 []) = .ok .draw := by decide
theorem test_decode_set_inverse : decode (.descriptor 0b1100 [.int 1]) = .ok (.setInverse 1) := by decide

/-- Rules R131 to R150, bit by bit, in the order sent. -/
theorem test_decode_bus_writes :
    decode (.busWrite [0b00000000, 0b10101110]) = .ok .displayoff ∧
    decode (.busWrite [0b00000000, 0b11010101, 0b10000000]) = .ok .clockdiv ∧
    decode (.busWrite [0b00000000, 0b10101000, 0b00011111]) = .ok (.multiplex 31) ∧
    decode (.busWrite [0b00000000, 0b11010011, 0b00000000]) = .ok .displayoffset ∧
    decode (.busWrite [0b00000000, 0b01000000]) = .ok .startline ∧
    decode (.busWrite [0b00000000, 0b10001101, 0b00010100]) = .ok .chargepump ∧
    decode (.busWrite [0b00000000, 0b00100000, 0b00000000]) = .ok .memorymode ∧
    decode (.busWrite [0b00000000, 0b10100001]) = .ok .segremap ∧
    decode (.busWrite [0b00000000, 0b11001000]) = .ok .comscandec ∧
    decode (.busWrite [0b00000000, 0b11011010, 0b00000010]) = .ok (.setcompins 0x02) ∧
    decode (.busWrite [0b00000000, 0b10000001, 0b10001111]) = .ok .contrast ∧
    decode (.busWrite [0b00000000, 0b11011001, 0b11110001]) = .ok .precharge ∧
    decode (.busWrite [0b00000000, 0b11011011, 0b01000000]) = .ok .vcomdetect ∧
    decode (.busWrite [0b00000000, 0b10100100]) = .ok .displayallonResume ∧
    decode (.busWrite [0b00000000, 0b10100110]) = .ok .normaldisplay ∧
    decode (.busWrite [0b00000000, 0b10101111]) = .ok .displayon ∧
    decode (.busWrite [0b00000000, 0b00100001, 0b00000000, 0b01111111]) = .ok (.columnaddr 127) ∧
    decode (.busWrite [0b00000000, 0b00100010, 0b00000000, 0b00000111]) = .ok (.pageaddr 7) ∧
    decode (.busWrite [0b00000000, 0b10100111]) = .ok .invertdisplay ∧
    decode (.busWrite [0b01000000]) = .ok .data := by decide

/-- Rejections by name (rules R52 to R59). -/
theorem test_decode_rejects :
    decode (.descriptor 0xD []) = .error (.reservedOp 0xD) ∧
    decode (.descriptor 0xF [.int 0]) = .error (.reservedOp 0xF) ∧
    decode (.descriptor 0x0 [.int 60, .int 128]) = .error (.operands 0x0) ∧
    decode (.descriptor 0x3 [.int 1, .int 2, .int 2]) = .error (.oneBit 2) ∧
    decode (.descriptor 0x6 [.int 0, .int 0, .int 1, .int 1, .int 1, .int (-1)]) = .error (.oneBit (-1)) ∧
    decode (.descriptor 0xA [.int 0]) = .error (.operands 0xA) ∧
    decode (.busWrite []) = .error .emptyWrite ∧
    decode (.busWrite [0x80, 0xAE]) = .error (.controlByte 0x80) ∧
    decode (.busWrite [0x00]) = .error .noCommand ∧
    decode (.busWrite [0x00, 0xA5]) = .error (.commandByte 0xA5) ∧
    decode (.busWrite [0x00, 0xAE, 0x00]) = .error (.writeLength 0xAE) ∧
    decode (.busWrite [0x00, 0x81, 0x00]) = .error (.argument 0x81) ∧
    decode (.busWrite [0x00, 0x21, 0x01, 0x7F]) = .error (.argument 0x21) ∧
    decode (.busWrite [0x40, 0x00]) = .error .dataPayload := by decide

/-- The numbering of rule R63: the first byte sent is the most significant. -/
theorem test_decode_table_words :
    decodeTableWord 8 0x6 = some (.rect 0 0 0 0 0 0) ∧ decodeTableWord 8 0x40 = some .data ∧
    decodeTableWord 16 0x0040 = some .startline ∧ decodeTableWord 24 0x00D580 = some .clockdiv ∧
    decodeTableWord 32 0x0022007F = some (.pageaddr 0x7F) ∧ decodeTableWord 8 0xD = none := by decide

/-- Rule R60: the call `plot(3,4)` and the name of no operation. -/
theorem test_call_syntax :
    (callWord "plot" [.int 3, .int 4]).map decode = some (.ok (.plot 3 4 1)) ∧
    callWord "scroll" [] = none := by decide

/-! ## Well-formedness: an ill-formed term for each check -/

theorem test_ill_formed_text : Instr.wellFormed (.text [65, 200] 1) = false := by decide
theorem test_ill_formed_text2x : Instr.wellFormed (.text2x [31] 1) = false := by decide
theorem test_ill_formed_length : Instr.wellFormed (.lengthOfString [128]) = false := by decide
theorem test_ill_formed_multiplex :
    Instr.wellFormed (.multiplex 64) = false ∧ Instr.wellFormed (.multiplex 6) = false ∧
      Instr.wellFormed (.multiplex 8) = false := by decide
theorem test_ill_formed_setcompins : Instr.wellFormed (.setcompins 0x22) = false := by decide
theorem test_ill_formed_columnaddr : Instr.wellFormed (.columnaddr 128) = false := by decide
theorem test_ill_formed_pageaddr : Instr.wellFormed (.pageaddr 8) = false := by decide
theorem test_well_formed :
    Instr.wellFormed (.text [32, 127] 0) = true ∧ Instr.wellFormed (.multiplex 7) = true ∧
    Instr.wellFormed (.multiplex 63) = true ∧ Instr.wellFormed (.setcompins 0x12) = true ∧
    Instr.wellFormed (.columnaddr 127) = true ∧ Instr.wellFormed (.pageaddr 7) = true := by decide

/-! ## The host's words run as the first step after reset -/

/-- A table word on which the first step after reset takes a next state. -/
def runsFirst (p : Nat × Nat) : Bool := (after (fun _ => ()) (step (State.reset.withFetchWord p.1 p.2))).isSome

theorem test_operations_run_first :
    [(8, 0x0), (8, 0x1), (8, 0x2), (8, 0x3), (8, 0x4), (8, 0x5), (8, 0x6), (8, 0x7), (8, 0x8), (8, 0x9), (8, 0xA),
      (8, 0xB), (8, 0xC)].all runsFirst = true := by decide

theorem test_bus_writes_run_first :
    [(16, 0x00AE), (24, 0x00D580), (24, 0x00A800), (24, 0x00D300), (16, 0x0040), (24, 0x008D14), (24, 0x002000),
      (16, 0x00A1), (16, 0x00C8), (24, 0x00DA00), (24, 0x00818F), (24, 0x00D9F1), (24, 0x00DB40), (16, 0x00A4),
      (16, 0x00A6), (16, 0x00AF), (32, 0x00210000), (32, 0x00220000), (16, 0x00A7), (8, 0x40)].all runsFirst = true := by
  decide

theorem test_reset_waits : after (fun t => t.st) (step State.reset) = some .uninitialized := by decide

/-! ## Framebuffer and rasterizer -/

/-- V9: page 1 of a 16-wide surface starts at index 16. -/
theorem test_plot_sets_a_bit : after (·.fb.cells) (exec (.plot 15 8 1) blank) = some [(31, 0x01)] := by decide
/-- V5: one bit cleared, seven kept. -/
theorem test_plot_clears_a_bit :
    after (·.fb.cells) (exec (.plot 5 10 0) (screen 128 64 [(133, 0xFF)] 0 0 [])) = some [(133, 0xFB)] := by decide

/-- V12: vertical, crosses a page. -/
theorem test_line_vertical :
    after (·.fb.cells) (exec (.line 3 1 3 10 1 1) blank) = some [(3, 0xFE), (19, 0x07)] := by decide
/-- V17: with truncation, drawn from the right end in V18. -/
theorem test_line_truncates :
    after (·.fb.cells) (lineWith truncating 4 0 0 2 1 1 blank) =
      some [(0, 0x04), (1, 0x04), (2, 0x02), (3, 0x02), (4, 0x01)] := by decide

set_option maxRecDepth 10000 in
/-- V27: radius 0, whatever the tables (here all zero). -/
theorem test_circle_zero_radius :
    after (·.fb.cells) (circleWith (fun _ => 0) (fun _ => 0) (fun _ => true) 64 32 0 1 1 (screen 128 64 [] 0 0 [])) =
      some [(576, 0x01)] := by decide
set_option maxRecDepth 40000 in
/-- Rule R72: a table that holds only the sample at 90 degrees; filled, the run from the centre column to it. -/
theorem test_circle_fan_fill :
    after (·.fb.cells) (circleWith (fun _ => 1) (fun _ => 0) (fun _ => false) 8 1 1 1 1 blank) =
      some [(7, 0x02), (8, 0x02)] := by decide

set_option maxRecDepth 10000 in
/-- V39: outline after fill. -/
theorem test_rect_outline :
    after (·.fb.cells) (exec (.rect 2 3 4 5 1 0) (screen 16 16 [(2, 0xF8), (3, 0xF8), (4, 0xF8), (5, 0xF8)] 0 0 [])) =
      some [(2, 0xF8), (3, 0x88), (4, 0x88), (5, 0xF8)] := by decide
/-- V41: the clamped origin does not shorten the size. -/
theorem test_rect_negative_origin :
    after (·.fb.cells) (exec (.rect (-3) (-2) 5 4 1 1) blank) =
      some [(0, 0x0F), (1, 0x0F), (2, 0x0F), (3, 0x0F), (4, 0x0F)] := by decide

/-- V52: the cursor stays. -/
theorem test_clear :
    after (fun t => (t.fb, t.cx, t.cy)) (exec .clear (screen 8 8 [(0, 0x01), (7, 0x80)] 5 3 [])) =
      some (⟨8, []⟩, 5, 3) := by decide

/-! ## Text, with the fixture glyphs -/

/-- V77: wraps to the next row. -/
theorem test_text_wraps :
    after (fun t => (t.fb.cells, t.cx, t.cy)) (textWith fixture [65] 1 (screen 16 16 [] 14 0 [])) =
      some ([(16, 0x01), (17, 0xFF), (18, 0x80)], 4, 8) := by decide
/-- V79: wrapping off, drawn as far as it fits. -/
theorem test_text_without_wrapping :
    after (fun t => (t.fb.cells, t.cx, t.cy)) (textWith fixture [65] 0 (screen 16 8 [] 14 0 [])) =
      some ([(14, 0x01), (15, 0xFF)], 15, 0) := by decide
set_option maxRecDepth 10000 in
/-- V88: `stretch16(5F) = 33FF`, advance 6. -/
theorem test_text2x :
    after (fun t => (t.fb.cells, t.cx, t.cy)) (text2xWith plain fixture [33] 1 blank) =
      some ([(0, 0xFF), (1, 0xFF), (16, 0x33), (17, 0x33)], 6, 0) := by decide
set_option maxRecDepth 10000 in
/-- V90: no room for a second line of 16 rows. -/
theorem test_text2x_truncates :
    after (fun t => (t.fb.cells, t.cx, t.cy)) (text2xWith plain fixture [65] 1 (screen 16 16 [] 12 0 [])) =
      some ([], 12, 0) := by decide
/-- V92: the value, 11 for "A A". -/
theorem test_length_of_string :
    after (·.replies) (lengthWith fixture [65, 32, 65] blank) = some [⟨.ok, some 11⟩] := by decide
/-- V93: refused before any change. -/
theorem test_length_refuses : refusal (exec (.lengthOfString [10]) blank) = some .characterCode := by decide
/-- Rules R91, R96 and 95_test_vectors.md, helper values. -/
theorem test_glyph_bits :
    flip8 0xFA = 0x5F ∧ flip8 0x80 = 0x01 ∧ stretch16 0x81 = 0xC003 ∧ stretch16 0x05 = 0x0033 := by decide

/-! ## Session -/

/-- V63 and rule R111: the third and the last of the writes, 23 events in all. -/
theorem test_init_trace :
    after (fun t => (t.trace.length, t.trace[6]?, t.trace[22]?))
        (exec (.init 60 8 8) (unopened (List.replicate 19 (.answered .ok)))) =
      some (23, some (.busWrite 0x3C [0x00, 0xA8, 0x07] .ok),
        some (.busWrite 0x3C [0x40, 0, 0, 0, 0, 0, 0, 0, 0] .ok)) := by decide
/-- P4, step 2: the third write answers `err`. -/
theorem test_init_bus_error :
    after (fun t => (t.st, t.rst, t.trace.length, t.trace[6]?))
        (exec (.init 60 128 64) (unopened [.answered .ok, .answered .ok, .answered .err])) =
      some (.uninitialized, some .high, 7, some (.busWrite 0x3C [0x00, 0xA8, 0x3F] .err)) := by decide

/-- V58. -/
theorem test_home : after (fun t => (t.cx, t.cy)) (exec .home (screen 128 64 [] 57 24 [])) = some (0, 0) := by decide
/-- V56. -/
theorem test_move : after (fun t => (t.cx, t.cy)) (exec (.move 127 63) (screen 128 64 [] 0 0 [])) = some (127, 63) := by
  decide
/-- V57: `x = W` is out of range and the cursor stays. -/
theorem test_move_out_of_range :
    after (fun t => (t.cx, t.cy, t.replies)) (exec (.move 128 0) (screen 128 64 [] 127 63 [])) =
      some (127, 63, [⟨.raised .outOfRange, none⟩]) := by decide
/-- V50. -/
theorem test_draw :
    after (·.trace) (exec .draw (screen 8 8 [(0, 0x01), (7, 0x80)] 0 0 [.answered .ok])) =
      some [.busWrite 0x3C [0x40, 0x01, 0, 0, 0, 0, 0, 0, 0x80] .ok] := by decide
/-- V53. -/
theorem test_draw_bus_error :
    after (fun t => (t.st, t.fb.cells, t.replies)) (exec .draw (screen 8 8 [(0, 0x01)] 0 0 [.answered .err])) =
      some (.ready, [(0, 0x01)], [⟨.raised .busError, none⟩]) := by decide
/-- V59. -/
theorem test_set_inverse :
    after (·.trace) (exec (.setInverse 1) (screen 8 8 [] 0 0 [.answered .ok])) =
        some [.busWrite 0x3C [0x00, 0xA7] .ok] ∧
      after (·.trace) (exec (.setInverse 0) (screen 8 8 [] 0 0 [.answered .ok])) =
        some [.busWrite 0x3C [0x00, 0xA6] .ok] := by decide
/-- Rule R62: `move(128,0).clear()` then `draw()`: CLEAR is not issued, DRAW is. -/
theorem test_chain_ends_at_an_error :
    after (·.requests) (exec (.move 128 0)
        { blank with requests := [⟨.descriptor 0xA [], true⟩, ⟨.descriptor 0xB [], false⟩] }) =
      some [⟨.descriptor 0xB [], false⟩] := by decide

/-! ## Bus writes by themselves -/

/-- Rules R138, R148 and R150 during an INIT. -/
theorem test_bus_writes_during_init :
    after (·.trace) (exec .segremap (opening [.answered .ok])) = some [.busWrite 0x3C [0x00, 0xA1] .ok] ∧
    after (·.trace) (exec (.pageaddr 0) (opening [.answered .ok])) =
      some [.busWrite 0x3C [0x00, 0x22, 0x00, 0x00] .ok] ∧
    after (·.trace) (exec .data (opening [.answered .ok])) =
      some [.busWrite 0x3C [0x40, 0, 0, 0, 0, 0, 0, 0, 0] .ok] := by decide
/-- Rule R165: answered `err` during INIT, the session is discarded. -/
theorem test_bus_write_fails_during_init :
    after (fun t => (t.st, t.fb, t.replies)) (exec .contrast (opening [.answered .err])) =
      some (.uninitialized, Memory.absent, [⟨.raised .busError, none⟩]) := by decide

/-- Rules R149, R177: DISPLAYOFF and DISPLAYON only inside INIT, INVERTDISPLAY never inside it. -/
theorem test_bus_writes_where_they_belong :
    refusal (exec .displayoff (screen 8 8 [] 0 0 [.answered .ok])) = some .notEmitted ∧
    refusal (exec .displayon (screen 8 8 [] 0 0 [.answered .ok])) = some .notEmitted ∧
    after (·.trace) (exec .displayon (opening [.answered .ok])) = some [.busWrite 0x3C [0x00, 0xAF] .ok] ∧
    refusal (exec .invertdisplay (opening [.answered .ok])) = some .notEmitted ∧
    after (·.trace) (exec .normaldisplay (screen 8 8 [] 0 0 [.answered .ok])) =
      some [.busWrite 0x3C [0x00, 0xA6] .ok] := by decide

/-! ## Witnesses: states and operands that meet the hypotheses of the statements -/

theorem screen_inv {w h cx cy : Int} {cells : List Host.Cell} {answers : List Answer} (d : dimsLegal w h)
    (c : inSurface w h (cx, cy)) (m : Memory.wf ⟨surfaceBytes w h, cells⟩) :
    (screen w h cells cx cy answers).Inv :=
  ⟨by simp [screen], m, by simp [screen], fun _ => ⟨d, rfl, c, rfl⟩⟩

theorem blank_inv : blank.Inv := screen_inv (by decide) (by decide) (by decide)

/-- The largest surface, one bit set in its last byte, the cursor in the last corner. -/
def corner (answers : List Answer) : State := screen 128 64 [(1023, 0x80)] 127 63 answers

theorem corner_inv (answers : List Answer) : (corner answers).Inv := screen_inv (by decide) (by decide) (by decide)

theorem witness_BusWriteWordsAreExact : decode (.busWrite [0x00, 0x21, 0x00, 0x7F]) = .ok (.columnaddr 0x7F) := by decide

/-- One omission of each length, for each operation with defaults. -/
theorem witness_DescriptorsOmitOnlyDefaults :
    decode (.descriptor 0x3 [.int 0, .int 0]) = .ok (.plot 0 0 1) ∧
    decode (.descriptor 0x4 [.int 0, .int 0, .int 1, .int 1, .int 2]) = .ok (.line 0 0 1 1 2 1) ∧
    decode (.descriptor 0x5 [.int 0, .int 0, .int 1, .int 0]) = .ok (.circle 0 0 1 0 0) ∧
    decode (.descriptor 0x6 [.int 0, .int 0, .int 1, .int 1]) = .ok (.rect 0 0 1 1 1 0) ∧
    decode (.descriptor 0x7 [.str []]) = .ok (.text [] 1) ∧ decode (.descriptor 0x8 [.str []]) = .ok (.text2x [] 1) ∧
    decode (.descriptor 0x1 []) = .ok .home := by decide

/-- One request for each way not to be an instruction: too few operands, one of the wrong kind, a reserved code, a command
byte the block never sends, a constant argument of another value. -/
theorem witness_ReservedRequestsRefused_unfit :
    ¬ FitsAnOperation 0x2 [.int 1] ∧ ¬ FitsAnOperation 0x2 [.int 1, .str []] ∧ ¬ FitsAnOperation 0xF [] ∧
    FitsAnOperation 0x6 [.int 1, .int 2, .int 3, .int 4, .int 0] ∧
    ¬ IsBlockWrite [0x00, 0xA5] ∧ ¬ IsBlockWrite [0x00, 0x81, 0x00] ∧ IsBlockWrite [0x00, 0xA8, 0x3F] ∧
    (asking (.busWrite [0x00, 0xA5]) blank).requests = ⟨.busWrite [0x00, 0xA5], false⟩ :: [] ∧
    ([0x01] : List Byte) ≠ [] ∧
    refusal (step (asking (.busWrite [0x40, 0x01]) blank)) = some (.notAnInstruction .dataPayload) := by
  refine ⟨?_, ?_, ?_, ⟨_, _, rfl, [.oneBit], by decide, by simp [OperandType.Admits]⟩, ?_, ?_, ?_, rfl, by decide,
    by decide⟩
  · simp [FitsAnOperation, operandTypes]
  · simp [FitsAnOperation, operandTypes, OperandType.Admits]
  · simp [FitsAnOperation, operandTypes]
  all_goals simp [IsBlockWrite]

/-- The lowest and the highest reserved select code, and both neighbours of the one-bit values. -/
theorem witness_ReservedRequestsRefused :
    (asking (.descriptor 0xD []) blank).requests = ⟨.descriptor 0xD [], false⟩ :: [] ∧ 13 ≤ (0xD#4).toNat ∧
    (asking (.descriptor 0xF []) blank).requests = ⟨.descriptor 0xF [], false⟩ :: [] ∧ 13 ≤ (0xF#4).toNat ∧
    (2 : Int) ≠ 0 ∧ (2 : Int) ≠ 1 ∧ (-1 : Int) ≠ 0 ∧ (-1 : Int) ≠ 1 ∧
    refusal (step (asking (.descriptor 0x3 [.int 0, .int 0, .int 2]) blank)) = some (.notAnInstruction (.oneBit 2)) ∧
    refusal (step (asking (.descriptor 0x4 [.int 0, .int 0, .int 0, .int 0, .int 1, .int (-1)]) blank)) =
      some (.notAnInstruction (.oneBit (-1))) ∧
    refusal (step (asking (.descriptor 0x5 [.int 0, .int 0, .int 0, .int 2]) blank)) =
      some (.notAnInstruction (.oneBit 2)) ∧
    refusal (step (asking (.descriptor 0x5 [.int 0, .int 0, .int 0, .int 2, .int 3]) blank)) =
      some (.notAnInstruction (.oneBit 2)) ∧
    refusal (step (asking (.descriptor 0x6 [.int 0, .int 0, .int 0, .int 0, .int (-1), .int 1]) blank)) =
      some (.notAnInstruction (.oneBit (-1))) ∧
    refusal (step (asking (.descriptor 0x5 [.int 0, .int 0, .int 0, bitOperand 0, .int 2]) blank)) =
      some (.notAnInstruction (.oneBit 2)) ∧
    refusal (step (asking (.descriptor 0x6 [.int 0, .int 0, .int 0, .int 0, .int 2]) blank)) =
      some (.notAnInstruction (.oneBit 2)) ∧
    refusal (step (asking (.descriptor 0x6 [.int 0, .int 0, .int 0, .int 0, bitOperand 1, .int 2]) blank)) =
      some (.notAnInstruction (.oneBit 2)) ∧
    refusal (step (asking (.descriptor 0x7 [.str [], .int 2]) blank)) = some (.notAnInstruction (.oneBit 2)) ∧
    refusal (step (asking (.descriptor 0x8 [.str [], .int 2]) blank)) = some (.notAnInstruction (.oneBit 2)) ∧
    refusal (step (asking (.descriptor 0xC [.int (-1)]) blank)) = some (.notAnInstruction (.oneBit (-1))) := by decide

theorem witness_StepRunsTheDecodedRequest :
    (asking (.descriptor 0xA []) blank).requests = ⟨.descriptor 0xA [], false⟩ :: [] ∧
    decode (.descriptor 0xA []) = .ok .clear ∧ blank.requests = [] := by decide

theorem witness_OperationsRefusedInTheWrongState :
    blank.st ≠ .uninitialized ∧ (opening []).st ≠ .uninitialized ∧ isOperation .draw = true ∧
    (∀ addr w h, Instr.draw ≠ .init addr w h) ∧ (unopened []).st ≠ .ready ∧ (opening []).st ≠ .ready := by
  refine ⟨by decide, by decide, by decide, by simp, by decide, by decide⟩

theorem witness_BusWritesOnlyWhereTheBlockMakesThem :
    isOperation .data = false ∧ (unopened []).st = .uninitialized ∧ isOperation .displayoff = false ∧ blank.st = .ready ∧
    Instr.displayoff ≠ .normaldisplay ∧ Instr.displayoff ≠ .invertdisplay ∧ Instr.displayoff ≠ .data ∧
    (opening []).st = .initializing := by decide

theorem unopened_inv (answers : List Answer) : (unopened answers).Inv :=
  ⟨by simp [unopened], Memory.absent_wf, fun _ => rfl, by simp [unopened]⟩

/-- A step, and an instruction, from a state with the invariant. -/
theorem witness_StepsKeepTheInvariant :
    (asking (.descriptor 0xA []) blank).Inv ∧ (∃ t, step (asking (.descriptor 0xA []) blank) = .next t) ∧
    ∃ t, exec .home blank = .next t :=
  ⟨⟨by simp [asking, blank, screen], by decide, by simp [asking, blank, screen], fun _ => ⟨by decide, rfl, by decide, rfl⟩⟩,
    ⟨_, rfl⟩, ⟨_, rfl⟩⟩

/-- From `Ready`, and from `Uninitialized` by an INIT that completes. -/
theorem witness_SessionStateMovesOnlyByInit :
    (blank.Inv ∧ step blank = .next blank ∧ blank.st = .ready) ∧
    (asking (.descriptor 0x0 [.int 60, .int 8, .int 8]) (unopened (List.replicate 19 (.answered .ok)))).Inv ∧
    after (·.st) (step (asking (.descriptor 0x0 [.int 60, .int 8, .int 8])
      (unopened (List.replicate 19 (.answered .ok))))) = some .ready :=
  ⟨⟨blank_inv, rfl, rfl⟩,
    ⟨by simp [asking, unopened], Memory.absent_wf, fun _ => rfl, by simp [asking, unopened]⟩, by decide⟩

/-- One command for each of the three cases. -/
theorem witness_CommandsAreSentOnlyByTheirOperations :
    (screen 8 8 [] 0 0 [.answered .ok]).Inv ∧ (unopened (List.replicate 19 (.answered .ok))).Inv ∧
    isOperation .normaldisplay = false ∧ isOperation .invertdisplay = false ∧ isOperation .displayoff = false ∧
    after (·.trace) (exec (.setInverse 0) (screen 8 8 [] 0 0 [.answered .ok])) =
      some ([] ++ [.busWrite 0x3C (commandBytes .normaldisplay) .ok]) ∧
    after (·.trace) (exec (.setInverse 1) (screen 8 8 [] 0 0 [.answered .ok])) =
      some ([] ++ [.busWrite 0x3C (commandBytes .invertdisplay) .ok]) ∧
    after (·.trace[4]?) (exec (.init 60 8 8) (unopened (List.replicate 19 (.answered .ok)))) =
      some (some (.busWrite 0x3C (commandBytes .displayoff) .ok)) :=
  ⟨screen_inv (by decide) (by decide) (by decide), unopened_inv _, by decide, by decide, by decide, by decide, by decide,
    by decide⟩

theorem witness_AnsweredRunsNeverFault :
    State.Answering (asking (.descriptor 0xB []) (screen 8 8 [] 0 0 [.answered .err])) := by
  unfold State.Answering; decide

/-- An instruction for each clause: one that moves no cursor, one that draws nothing, one that makes no write. -/
theorem witness_ReadyAccessTable :
    blank.st = .ready ∧ (∃ t, exec (.plot 0 0 1) blank = .next t) ∧ (∃ t, exec (.move 15 15) blank = .next t) ∧
    (∃ t, exec .normaldisplay blank = .next t) ∧ isOperation .clear = true ∧ ∃ t, exec .clear blank = .next t :=
  ⟨rfl, ⟨_, rfl⟩, ⟨_, rfl⟩, ⟨_, rfl⟩, by decide, ⟨_, rfl⟩⟩

theorem witness_StepsOnlyAppendToTraceAndReplies :
    ∃ t, step (asking (.descriptor 0xC [.int 1]) (screen 8 8 [] 0 0 [.answered .ok])) = .next t := ⟨_, rfl⟩

/-- One operation for each list of statuses. -/
theorem witness_EveryOperationEndsWithOneOfItsStatuses :
    blank.Inv ∧ (unopened []).Inv ∧ (∃ t, exec (.init 128 8 8) (unopened []) = .next t) ∧
    (∃ t, exec (.move 16 0) blank = .next t) ∧ (∃ t, exec (.text [] 1) blank = .next t) ∧
    (∃ t, exec (.text2x [65] 0) blank = .next t) ∧ (∃ t, exec .draw blank = .next t) ∧
    (∃ t, exec (.setInverse 0) blank = .next t) ∧ (∃ t, exec .clear blank = .next t) ∧
    ∃ t, exec (.lengthOfString [32]) blank = .next t :=
  ⟨blank_inv, unopened_inv [], ⟨_, rfl⟩, ⟨_, rfl⟩, ⟨_, rfl⟩, ⟨_, rfl⟩, ⟨_, rfl⟩, ⟨_, rfl⟩, ⟨_, rfl⟩, ⟨_, rfl⟩⟩

/-- An INIT and a SET_INVERSE with their writes. -/
theorem witness_OperationsEmitOnlyTheTwentyWrites :
    (unopened []).Inv ∧ isOperation (.init 60 8 8) = true ∧
    after (·.trace.length) (exec (.init 60 8 8) (unopened (List.replicate 19 (.answered .ok)))) = some 23 ∧
    (corner [.answered .ok]).Inv ∧ isOperation (.setInverse 1) = true ∧
    after (·.trace) (exec (.setInverse 1) (corner [.answered .ok])) = some [.busWrite 0x3C [0x00, 0xA7] .ok] :=
  ⟨unopened_inv [], by decide, by decide, corner_inv _, by decide, by decide⟩

theorem witness_FramebufferNeverSteersTheBlock :
    Instr.setInverse 1 ≠ .draw ∧ Instr.setInverse 1 ≠ .data ∧ ∃ t, exec (.setInverse 1) (corner []) = .next t :=
  ⟨by decide, by decide, ⟨_, rfl⟩⟩

/-- The last pixel, the last bit of the last byte. -/
theorem witness_PixelsAreTheBitsOfTheFramebuffer :
    (corner []).Inv ∧ (corner []).st = .ready ∧ inSurface (corner []).w (corner []).h (127, 63) ∧
    1023 < (corner []).fb.size ∧ 7 < 8 := ⟨corner_inv _, rfl, by decide, by decide, by decide⟩

/-- Two lists with the same pixels in another order and with a repetition. -/
theorem witness_DrawingOrderIsUnobservable :
    blank.Inv ∧ blank.st = .ready ∧
    ∀ p : Pixel, p ∈ [((0 : Int), (0 : Int)), (15, 15)] ↔ p ∈ [((15 : Int), (15 : Int)), (0, 0), (15, 15)] :=
  ⟨blank_inv, rfl, by intro p; simp; tauto⟩

/-- Both corners of the surface, and the pixels just outside it. -/
theorem witness_PlotResult :
    (corner []).Inv ∧ (corner []).st = .ready ∧
    (0 ≤ (127 : Int) ∧ 127 < (corner []).w ∧ 0 ≤ (63 : Int) ∧ 63 < (corner []).h) ∧
    (0 ≤ (0 : Int) ∧ 0 < (corner []).w ∧ 0 ≤ (0 : Int) ∧ 0 < (corner []).h) ∧
    (corner []).w ≤ 128 ∧ (corner []).h ≤ 64 ∧ (-1 : Int) < 0 :=
  ⟨corner_inv _, rfl, by decide, by decide, by decide, by decide, by decide⟩

theorem witness_SetThenClearRestores :
    (corner []).Inv ∧ (corner []).st = .ready ∧ inSurface (corner []).w (corner []).h (127, 62) ∧
    (corner []).pixel (127, 62) = false := ⟨corner_inv _, rfl, by decide, by decide⟩

/-- A pixel drawn in each of the three branches, one pixel not drawn, and the division that is exact. -/
theorem witness_LineResult :
    blank.Inv ∧ blank.st = .ready ∧ inSurface blank.w blank.h (3, 10) ∧
    ((3 : Int) = 3 ∧ (1 : Int) ≠ 10 ∧ (3 : Int) ≤ 3 ∧ (3 : Int) < 3 + 1 ∧ min (1 : Int) 10 ≤ 10 ∧ (10 : Int) ≤ max 1 10) ∧
    ((0 : Int) < 15 ∧ (0 : Int) ≤ 3 ∧ (3 : Int) ≤ 15 ∧ ∃ i : Int, 0 ≤ i ∧ i < 1 ∧
      10 = 10 + lineRound Config.lineRoundsUp ((10 - 10) * (3 - 0)) (15 - 0) + i) ∧
    (∀ i : Int, 0 ≤ i → i < 1 → (9 : Int) ≠ 10 + lineRound Config.lineRoundsUp ((10 - 10) * (3 - 0)) (15 - 0) + i) ∧
    (0 : Int) < 15 ∧ (45 : Int) = 3 * 15 := by
  have e : lineRound Config.lineRoundsUp ((10 - 10) * (3 - 0)) (15 - 0) = 0 := rfl
  rw [e]
  exact ⟨blank_inv, rfl, by decide, by decide, ⟨by decide, by decide, by decide, 0, by decide, by decide, by decide⟩,
    by omega, by decide, by decide⟩

theorem witness_DegenerateLinesDrawNothing :
    blank.st = .ready ∧ ((5 : Int) = 5 ∧ (5 : Int) = 5) ∧ (0 : Int) ≤ 0 := by decide

/-- With radius 0 the centre is drawn and no other pixel is, in both modes. -/
theorem witness_CircleResult :
    blank.Inv ∧ blank.st = .ready ∧ inSurface blank.w blank.h (8, 15) ∧ inSurface blank.w blank.h (8, 14) ∧
    ∀ i, (15 : Int) = 15 - circleOffset Config.circleTieUp 0 (Config.cos i) ∧
      (8 : Int) = 8 - circleOffset Config.circleTieUp 0 (Config.sin i) ∧
      (14 : Int) ≠ 15 - circleOffset Config.circleTieUp 0 (Config.cos i) := by
  have e : ∀ q : Rat, circleOffset Config.circleTieUp 0 q = 0 := by
    intro q
    have := q.den_pos
    simp [circleOffset, circleRound]
  exact ⟨blank_inv, rfl, by decide, by decide, fun i => by simp [e]⟩

theorem witness_ZeroRadiusCircleIsItsCentre : blank.Inv := blank_inv

/-- Tables that are exact at the four cardinal angles, and radius 1, where the bound is `1/2`. -/
theorem witness_CardinalSamples :
    let sin : Fin 180 → Rat := fun i => if i = 45 then 1 else if i = 135 then -1 else 0
    let cos : Fin 180 → Rat := fun i => if i = 0 then 1 else if i = 90 then -1 else 0
    (1 : Int) ≠ 0 ∧
    (|sin 0| < 1 / (2 * |((1 : Int) : Rat)|) ∧ |cos 0 - 1| < 1 / (2 * |((1 : Int) : Rat)|)) ∧
    (|sin 45 - 1| < 1 / (2 * |((1 : Int) : Rat)|) ∧ |cos 45| < 1 / (2 * |((1 : Int) : Rat)|)) ∧
    (|sin 90| < 1 / (2 * |((1 : Int) : Rat)|) ∧ |cos 90 + 1| < 1 / (2 * |((1 : Int) : Rat)|)) ∧
    (|sin 135 + 1| < 1 / (2 * |((1 : Int) : Rat)|) ∧ |cos 135| < 1 / (2 * |((1 : Int) : Rat)|)) := by
  norm_num [Fin.ext_iff]

/-- Tables within any positive bound exist: every real number has a rational that close to it. -/
theorem witness_AccurateTablesGiveCardinalPoints :
    ∃ sin cos : Fin 180 → Rat, TablesWithin (1 / 1000) sin cos ∧ (100 : Int) ≠ 0 ∧
      (1 / 1000 : Rat) < 1 / (2 * |((100 : Int) : Rat)|) := by
  have near : ∀ x : Real, ∃ q : Rat, |(q : Real) - x| ≤ ((1 / 1000 : Rat) : Real) := fun x => by
    obtain ⟨q, h1, h2⟩ := exists_rat_btwn (show x - 1 / 1000 < x by norm_num)
    exact ⟨q, by rw [abs_le]; push_cast; constructor <;> linarith⟩
  choose f hf using near
  exact ⟨fun i => f (Real.sin (i.val * (Real.pi / 90))), fun i => f (Real.cos (i.val * (Real.pi / 90))),
    fun i => ⟨hf _, hf _⟩, by decide, by norm_num⟩

/-- The floor, for LINE; the rounding that goes up on a tie, for CIRCLE. -/
theorem witness_OpenRoundingsCoverAllTheSpecAllows :
    ((∀ v : Rat, |((⌊v⌋ : Int) : Rat) - v| < 1) ∧ ∀ z : Int, ⌊(z : Rat)⌋ = z) ∧
    ∀ v : Rat, |((round v : Int) : Rat) - v| ≤ 1 / 2 := by
  refine ⟨⟨fun v => ?_, fun z => Int.floor_intCast z⟩, fun v => ?_⟩
  · have h1 := Int.floor_le v
    have h2 := Int.lt_floor_add_one v
    rw [abs_lt]
    constructor <;> linarith
  · rw [abs_sub_comm]
    exact abs_sub_round v

/-- A pixel outside, one on the border and one in the interior of `rect(2, 3, 4, 5)`. -/
theorem witness_RectResult :
    blank.Inv ∧ blank.st = .ready ∧ inSurface blank.w blank.h (1, 3) ∧ inSurface blank.w blank.h (2, 3) ∧
    inSurface blank.w blank.h (3, 4) ∧ max (0 : Int) 2 = 2 ∧ max (0 : Int) 3 = 3 ∧
    min (4 : Int) (blank.w - 2) = 4 ∧ min (5 : Int) (blank.h - 3) = 5 :=
  ⟨blank_inv, rfl, by decide, by decide, by decide, by decide, by decide, by decide, by decide⟩

theorem witness_DrawingNeverFails :
    blank.st = .ready ∧ ∃ a b r c f, Instr.circle 20 (-20) (-5) 1 1 = .circle a b r c f := ⟨rfl, _, _, _, _, _, rfl⟩

theorem witness_ClearResult : (corner []).st = .ready ∧ 1023 < (corner []).fb.size := by decide

/-- The six forms, from one state. -/
theorem witness_DrawingLeavesOtherBytesAlone :
    blank.Inv ∧ blank.st = .ready ∧ (∃ t, exec (.plot 15 15 1) blank = .next t) ∧
    (∃ t, exec (.line 0 0 15 0 1 1) blank = .next t) ∧ (∃ t, exec (.circle 8 8 4 1 1) blank = .next t) ∧
    (∃ t, exec (.rect 1 1 4 4 1 0) blank = .next t) ∧
    ((∃ gs, glyphsOf Config.glyph [65] = some gs) ∧ ∃ t, exec (.text [65] 1) blank = .next t) ∧
    ∃ t, exec (.text2x [65] 1) blank = .next t :=
  ⟨blank_inv, rfl, ⟨_, rfl⟩, ⟨_, rfl⟩, ⟨_, rfl⟩, ⟨_, rfl⟩, ⟨⟨_, rfl⟩, ⟨_, rfl⟩⟩, ⟨_, rfl⟩⟩

/-- The lowest and the highest code. -/
theorem witness_TextCompletes :
    blank.Inv ∧ blank.st = .ready ∧ [(32 : Int), 127] ≠ [] ∧ (∀ c ∈ [(32 : Int), 127], 32 ≤ c ∧ c ≤ 127) :=
  ⟨blank_inv, rfl, by decide, by decide⟩

/-- V80's string, which fills the row exactly, and one that fills it to its last column. -/
theorem witness_TextOnOneRow :
    blank.Inv ∧ blank.st = .ready ∧ [(65 : Int), 65, 65, 65] ≠ [] ∧
    glyphsOf fixture [65, 65, 65, 65] = some (List.replicate 4 [0x80, 0xFF, 0x01]) ∧
    blank.cx + ((List.replicate 4 [0x80, 0xFF, (0x01 : Byte)]).map fun g => (g.length : Int) + 1).sum ≤ blank.w + 1 ∧
    (screen 16 16 [] 13 0 []).Inv ∧
    (screen 16 16 [] 13 0 []).cx + (([[0x80, 0xFF, (0x01 : Byte)]]).map fun g => (g.length : Int) + 1).sum =
      (screen 16 16 [] 13 0 []).w + 1 :=
  ⟨blank_inv, rfl, by decide, by decide, by decide, screen_inv (by decide) (by decide) (by decide), by decide⟩

/-- V77 to V79, at the edge of each clause: room for exactly one more row, and for one row less. -/
theorem witness_TextWrapsOneCharacter :
    (screen 16 16 [] 14 0 []).Inv ∧ glyphOf fixture 65 = some [0x80, 0xFF, 0x01] ∧
    (screen 16 16 [] 14 0 []).w < (screen 16 16 [] 14 0 []).cx + ([0x80, 0xFF, (0x01 : Byte)].length : Int) ∧
    (screen 16 16 [] 14 0 []).cy + 16 ≤ (screen 16 16 [] 14 0 []).h ∧
    (screen 16 16 [] 14 1 []).Inv ∧ (screen 16 16 [] 14 1 []).h < (screen 16 16 [] 14 1 []).cy + 16 ∧
    ((screen 16 32 [] 11 0 []).Inv ∧
      (screen 16 32 [] 11 0 []).w < (screen 16 32 [] 11 0 []).cx + 2 * ([0x80, 0xFF, (0x01 : Byte)].length : Int) ∧
      (screen 16 32 [] 11 0 []).cy + 32 ≤ (screen 16 32 [] 11 0 []).h) ∧
    (screen 16 32 [] 11 1 []).Inv ∧ (screen 16 32 [] 11 1 []).h < (screen 16 32 [] 11 1 []).cy + 32 :=
  ⟨screen_inv (by decide) (by decide) (by decide), by decide, by decide, by decide,
    screen_inv (by decide) (by decide) (by decide), by decide,
    ⟨screen_inv (by decide) (by decide) (by decide), by decide, by decide⟩,
    screen_inv (by decide) (by decide) (by decide), by decide⟩

/-- A string of four characters, of which the second wraps and the fourth is dropped (rule R92 (d), (e)). -/
theorem witness_TextFollowsTheWrapStep :
    (screen 8 16 [] 4 0 []).Inv ∧ (screen 8 16 [] 4 0 []).st = .ready ∧ [(65 : Int), 65, 65, 65] ≠ [] ∧
    glyphsOf fixture [65, 65, 65, 65] = some (List.replicate 4 [0x80, 0xFF, 0x01]) ∧
    after (fun t => (t.cx, t.cy)) (textWith fixture [65, 65, 65, 65] 1 (screen 8 16 [] 4 0 [])) = some (7, 8) :=
  ⟨screen_inv (by decide) (by decide) (by decide), rfl, by decide, by decide, by decide⟩

/-- V87, with a set bit of the glyph and a pixel outside its cell; and the string that just fits. -/
theorem witness_DoubleTextOnOneRow :
    blank.Inv ∧ blank.st = .ready ∧ glyphsOf fixture [65] = some [[0x80, 0xFF, 0x01]] ∧
    blank.cx + (([[0x80, 0xFF, (0x01 : Byte)]]).map fun g => 2 * (g.length : Int) + 4).sum ≤ blank.w + 4 ∧
    (screen 16 16 [] 10 0 []).Inv ∧
    (screen 16 16 [] 10 0 []).cx + (([[0x80, 0xFF, (0x01 : Byte)]]).map fun g => 2 * (g.length : Int) + 4).sum =
      (screen 16 16 [] 10 0 []).w + 4 ∧
    inSurface blank.w blank.h (5, 15) ∧ [0x80, 0xFF, (0x01 : Byte)][2]? = some 0x01 ∧
    (0x01 : Byte).getLsbD (7 - 7) = true ∧ ((5 : Int), (15 : Int)) = (0 + 0 + 2 * 2 + 1, 0 + 2 * 7 + 1) ∧
    inSurface blank.w blank.h (6, 0) ∧ ¬ ((0 : Int) ≤ 6 ∧ (6 : Int) < 0 + 2 * 3 ∧ (0 : Int) ≤ 0 ∧ (0 : Int) < 0 + 16) :=
  ⟨blank_inv, rfl, by decide, by decide, screen_inv (by decide) (by decide) (by decide), by decide, by decide, by decide,
    by decide, by decide, by decide, by decide⟩

/-- The fallback of rule R97 has the three properties. -/
theorem witness_SmoothingIsExactlyTheOpenParameter :
    let f : Option Byte → Byte → Option Byte → BitVec 16 × BitVec 16 := fun _ v _ => (stretch16 v, stretch16 v)
    (∀ l v r, (f l v r).1 &&& stretch16 v = stretch16 v ∧ (f l v r).2 &&& stretch16 v = stretch16 v) ∧
    ∀ v, f (some v) v (some v) = (stretch16 v, stretch16 v) ∧ f none v none = (stretch16 v, stretch16 v) := by simp

theorem witness_GlyphBitTransforms : (0 : Nat) < 8 ∧ 7 < 8 := by decide

theorem witness_EmptyStrings :
    (corner []).st = .ready ∧ ∃ t, exec (.text2x [] 0) (corner []) = .next t ∧
      t.replies = (corner []).replies ++ [⟨.raised .invalidArgument, none⟩] := ⟨rfl, _, rfl, rfl⟩

/-- The codes next to the range on either side. -/
theorem witness_CodesWithoutAGlyphRefused :
    blank.st = .ready ∧ (31 : Int) ∈ [(65 : Int), 31] ∧ (31 : Int) < 32 ∧ (128 : Int) ∈ [(128 : Int)] ∧ (127 : Int) < 128 := by
  decide

theorem witness_LengthOfStringResult : blank.st = .ready ∧ ∀ c ∈ [(32 : Int), 127], 32 ≤ c ∧ c ≤ 127 := by decide

theorem witness_HomeResult : (corner []).Inv ∧ (corner []).st = .ready := ⟨corner_inv _, rfl⟩

/-- Both corners of the surface. -/
theorem witness_MoveResult :
    blank.st = .ready ∧ (0 ≤ (0 : Int) ∧ 0 < blank.w ∧ 0 ≤ (0 : Int) ∧ 0 < blank.h) ∧
    (0 ≤ (15 : Int) ∧ 15 < blank.w ∧ 0 ≤ (15 : Int) ∧ 15 < blank.h) := by decide

/-- One step outside each of the four edges. -/
theorem witness_MoveOutOfRange :
    blank.st = .ready ∧ (-1 : Int) < 0 ∧ blank.w ≤ 16 ∧ blank.h ≤ 16 := by decide

theorem witness_FrameIsTheFramebufferInOrder :
    (corner []).Inv ∧ (corner []).st = .ready ∧ (∃ t, exec .draw (corner []) = .next t) ∧
    1023 < surfaceBytes (corner []).w (corner []).h ∧
    after (fun t => (t.st, t.w)) (exec (.init 60 1 8) (unopened (List.replicate 19 (.answered .ok)))) =
      some (.ready, 1) ∧ 0 < surfaceBytes 1 8 :=
  ⟨corner_inv _, rfl, ⟨_, rfl⟩, by decide, by decide, by decide⟩

theorem witness_DrawResult :
    (corner [.answered .ok]).Inv ∧ (corner [.answered .ok]).st = .ready ∧
    (takeAnswer (corner [.answered .ok])).1 = .answered .ok ∧
    (takeAnswer (corner [.answered .err])).1 = .answered .err ∧
    1023 < surfaceBytes (corner []).w (corner []).h := ⟨corner_inv _, rfl, rfl, rfl, by decide⟩

theorem witness_SetInverseResult :
    (corner [.answered .ok]).st = .ready ∧ (takeAnswer (corner [.answered .ok])).1 = .answered .ok ∧
    (takeAnswer (corner [.answered .err])).1 = .answered .err := by decide

/-- The smallest and the largest operands (V67). -/
theorem witness_InitResult :
    (unopened (List.replicate 19 (.answered .ok) ++ [])).st = .uninitialized ∧
    (0 ≤ (0 : Int) ∧ (0 : Int) ≤ 127 ∧ 1 ≤ (1 : Int) ∧ (1 : Int) ≤ 128 ∧ 8 ≤ (8 : Int) ∧ (8 : Int) ≤ 64 ∧ (8 : Int) % 8 = 0) ∧
    (0 ≤ (127 : Int) ∧ 1 ≤ (128 : Int) ∧ 8 ≤ (64 : Int) ∧ (64 : Int) % 8 = 0) ∧
    (unopened (List.replicate 19 (.answered .ok) ++ [])).answers = List.replicate 19 (.answered .ok) ++ [] := by decide

/-- Each way the operands can be illegal, by the smallest step (V64, V65). -/
theorem witness_InitConfigurationError :
    (unopened []).st = .uninitialized ∧ (-1 : Int) < 0 ∧ (127 : Int) < 128 ∧ (0 : Int) < 1 ∧ (128 : Int) < 129 ∧
    (0 : Int) < 8 ∧ (64 : Int) < 72 ∧ (60 : Int) % 8 ≠ 0 := by decide

/-- The first and the last of the 19 writes. -/
theorem witness_InitBusError :
    addrLegal 60 ∧ dimsLegal 8 8 ∧
    ((unopened [.answered .err]).st = .uninitialized ∧ 0 < 19 ∧
      (unopened [.answered .err]).answers = List.replicate 0 (.answered .ok) ++ .answered .err :: []) ∧
    18 < 19 ∧ (unopened (List.replicate 18 (.answered .ok) ++ .answered .err :: [])).answers =
      List.replicate 18 (.answered .ok) ++ .answered .err :: [] := by decide

theorem witness_SilentTransportStops :
    addrLegal 60 ∧ dimsLegal 8 8 ∧ (unopened [.silent]).st = .uninitialized ∧
    (unopened [.silent]).answers = List.replicate 0 (.answered .ok) ++ .silent :: [] ∧
    (unopened (List.replicate 18 (.answered .ok) ++ .silent :: [])).answers =
      List.replicate 18 (.answered .ok) ++ .silent :: [] ∧
    (corner [.silent]).st = .ready ∧ (corner [.silent]).answers = .silent :: [] ∧ (corner [.silent]).Makes .data ∧
    (opening [.silent]).answers = .silent :: [] ∧ (opening [.silent]).Makes .displayoff := by
  unfold State.Makes; decide

/-- In a session and during INIT; the bytes of the frame of the 8 by 8 surface. -/
theorem witness_EachBusWriteSendsItsBytes :
    (screen 8 8 [(0, 0x01)] 0 0 [.answered .ok]).Makes .data ∧ (screen 8 8 [] 0 0 [.answered .ok]).Makes .invertdisplay ∧
    (opening [.answered .ok]).Makes .displayon ∧
    (takeAnswer (screen 8 8 [(0, 0x01)] 0 0 [.answered .ok])).1 = .answered .ok ∧
    (takeAnswer (opening [.answered .ok])).1 = .answered .ok ∧
    [(0x40 : Byte), 0x01, 0, 0, 0, 0, 0, 0, 0][0]? = some 0x40 ∧
    [(0x40 : Byte), 0x01, 0, 0, 0, 0, 0, 0, 0].length = (screen 8 8 [(0, 0x01)] 0 0 []).fb.size + 1 ∧
    ∀ a : Nat, a < 8 → [(0x40 : Byte), 0x01, 0, 0, 0, 0, 0, 0, 0][a + 1]? = (screen 8 8 [(0, 0x01)] 0 0 []).fb.read a := by
  unfold State.Makes; decide

theorem witness_FailedBusWriteEndsTheOperation :
    (corner [.answered .err]).Makes .data ∧ (opening [.answered .err]).Makes .contrast ∧ (corner [.answered .err]).st = .ready ∧
    (takeAnswer (corner [.answered .err])).1 = .answered .err ∧ (opening [.answered .err]).st = .initializing ∧
    (takeAnswer (opening [.answered .err])).1 = .answered .err := by unfold State.Makes; decide

end Sys2Proof.Tests
end

/-! # The session invariant (10_state.md rules R14, R24)

`State.Inv` is a predicate of `ST`, `W`, `H`, `CX`, `CY`, `RST` and the framebuffer only. So an update outside these
keeps it; in `Ready` an update of the framebuffer's bytes, or of the cursor on the surface, keeps it; and INIT, the one
operation that opens or discards a session, establishes it anew. -/

namespace Sys2Proof.Machine

/-! ## What keeps the invariant -/

/-- The invariant does not see what stands outside the block (rule R23). -/
theorem State.Inv.of_sameSession {s t : State} (inv : s.Inv) (same : s.SameSession t) (cursor : s.SameCursor t)
    (fb : t.fb = s.fb) : t.Inv where
  settled := same.st ▸ inv.settled
  memory := fb ▸ inv.memory
  noSession un := fb.trans (inv.noSession (same.st ▸ un))
  session ready := by
    obtain ⟨dims, bytes, onSurface, line⟩ := inv.session (same.st ▸ ready)
    constructor <;> simpa only [same.w, same.h, same.rst, cursor.cx, cursor.cy, fb]

/-- In a session the framebuffer's bytes may change, and the cursor may move on the surface. -/
theorem State.Inv.of_ready {s t : State} (inv : s.Inv) (ready : s.st = .ready) (same : s.SameSession t)
    (size : t.fb.size = s.fb.size) (memory : t.fb.wf) (cursor : inSurface s.w s.h (t.cx, t.cy)) : t.Inv := by
  have ready' : t.st = .ready := same.st.trans ready
  obtain ⟨dims, bytes, -, line⟩ := inv.session ready
  exact
    { settled := by simp [ready']
      memory := memory
      noSession := by simp [ready']
      session := fun _ => by constructor <;> simpa only [same.w, same.h, same.rst, size] }

theorem completeWith_inv {s : State} (inv : s.Inv) (v : Option Int) : (completeWith v s).Inv :=
  inv.of_sameSession ⟨rfl, rfl, rfl, rfl, rfl, rfl⟩ ⟨rfl, rfl⟩ rfl

theorem complete_inv {s : State} (inv : s.Inv) : (complete s).Inv := completeWith_inv inv none

theorem raise_inv {s : State} (inv : s.Inv) (e : Condition) : (raise e s).Inv :=
  inv.of_sameSession ⟨rfl, rfl, rfl, rfl, rfl, rfl⟩ ⟨rfl, rfl⟩ rfl

theorem wrote_inv {s : State} (inv : s.Inv) (bytes : List Byte) (r : BusResult) : (wrote bytes r s).Inv :=
  inv.of_sameSession ⟨rfl, rfl, rfl, rfl, rfl, rfl⟩ ⟨rfl, rfl⟩ rfl

theorem withRequests_inv {s : State} (inv : s.Inv) (rs : List Request) : State.Inv { s with requests := rs } :=
  inv.of_sameSession ⟨rfl, rfl, rfl, rfl, rfl, rfl⟩ ⟨rfl, rfl⟩ rfl

/-- Discarding a session establishes the invariant, whatever held before. -/
theorem discardSession_inv (s : State) : (discardSession s).Inv where
  settled := by simp
  memory := Memory.absent_wf
  noSession _ := rfl
  session := by simp

/-- Between steps no INIT is in progress, so a failed write discards nothing. -/
theorem failWrite_inv {s : State} (inv : s.Inv) : (failWrite s).Inv := by
  rw [failWrite, if_neg inv.settled]
  exact raise_inv inv .busError

theorem drawPixels_inv {s : State} (inv : s.Inv) (ready : s.st = .ready) (ps : List Pixel) (c : Bit) :
    (drawPixels ps c s).Inv :=
  inv.of_ready ready ⟨by simp, by simp, by simp, by simp, by simp, by simp⟩ (by simp)
    ((drawPixels_frame ps c s).2.2 inv.memory) (by simpa using (inv.session ready).cursor)

theorem clearFramebuffer_inv {s : State} (inv : s.Inv) (ready : s.st = .ready) : (clearFramebuffer s).Inv :=
  inv.of_ready ready ⟨rfl, rfl, rfl, rfl, rfl, rfl⟩ rfl (Memory.clear_wf _) (inv.session ready).cursor

theorem drawRect_inv {s : State} (inv : s.Inv) (ready : s.st = .ready) (x y w h : Int) (color filled : Bit) :
    (drawRect x y w h color filled s).Inv := by
  have fill := drawPixels_inv inv ready (fillPixels (clip x w s.w) (clip y h s.h)) color
  unfold drawRect
  by_cases outline : filled = 0
  · rw [if_pos outline]
    exact drawPixels_inv fill (by simp [ready]) _ 0
  · rwa [if_neg outline]

/-- MOVE writes the cursor only with a target on the surface (rule R113). -/
theorem moveTo_inv {s : State} (inv : s.Inv) (ready : s.st = .ready) (x y : Int) : (moveTo x y s).Inv := by
  unfold moveTo
  by_cases target : inSurface s.w s.h (x, y)
  · rw [if_pos target]
    exact inv.of_ready ready ⟨rfl, rfl, rfl, rfl, rfl, rfl⟩ rfl inv.memory target
  · rw [if_neg target]
    exact raise_inv inv .outOfRange

/-- Text leaves the cursor in a row the layout reached and in a column cut to `W - 1` (rule R98). -/
theorem placeText_inv {s : State} (inv : s.Inv) (ready : s.st = .ready) {size : TextSize} (sane : size.Sane)
    (wrap : Bit) (gs : List (List Byte)) : (placeText (layout size s.w s.h wrap gs s.cx s.cy) s).Inv := by
  obtain ⟨⟨wpos, -⟩, -, ⟨cx0, -, cy0, cyh⟩, -⟩ := inv.session ready
  obtain ⟨x0, y0, yh⟩ := layout_bounds sane wrap gs cx0 cy0 cyh (w := s.w)
  have lastColumn : 0 ≤ s.w - 1 := by omega
  rw [placeText_frame]
  refine inv.of_ready ready ⟨rfl, rfl, rfl, rfl, rfl, rfl⟩ (drawPixels_size ..)
    ((drawPixels_frame _ 1 s).2.2 inv.memory) ⟨le_min x0 lastColumn, ?_, cy0.trans y0, yh⟩
  exact (min_le_right _ _).trans_lt (by omega)

/-- The session INIT opened, once its commands and its frame were answered `ok` (rule R26). -/
theorem opened_inv {s : State} {w h : Int} (dims : dimsLegal w h) (addr : Int) :
    State.Inv { wrote (frame (configured (openSession addr w h s))) .ok (configured (openSession addr w h s)) with
      st := .ready } where
  settled := by simp
  memory := by simpa using Memory.clear_wf _
  noSession := by simp
  session _ :=
    { dims := by simpa using dims
      bytes := by simp [Memory.allocate]
      cursor := by
        have origin : inSurface w h (0, 0) := by obtain ⟨wpos, -, hpos, -⟩ := dims; simp only [inSurface]; omega
        simpa using origin
      line := by simp }

/-! ## Outcomes -/

/-- The outcome's next state, where it has one, meets the invariant. -/
def NextInv : Host.Outcome State Fault Refusal → Prop
  | .next t => t.Inv
  | .fault _ => True
  | .refused _ => True

theorem NextInv.inv {o : Host.Outcome State Fault Refusal} (h : NextInv o) {t : State} (e : o = .next t) : t.Inv := by
  subst e
  exact h

/-- An operation other than INIT runs only in a session (rule R117). -/
theorem whenReady_nextInv {s : State} {run : State → Host.Outcome State Fault Refusal}
    (h : s.st = .ready → NextInv (run s)) : NextInv (whenReady s run) := by
  unfold whenReady
  by_cases ready : s.st = .ready
  · rw [if_pos ready]
    exact h ready
  · rw [if_neg ready]
    trivial

/-- An operation that always ends, as a change of the state in a session. -/
theorem whenReady_next_nextInv {s : State} {f : State → State} (h : s.st = .ready → (f s).Inv) :
    NextInv (whenReady s fun s => .next (f s)) :=
  whenReady_nextInv h

theorem drawOperation_nextInv {s : State} (inv : s.Inv) (ps : List Pixel) (c : Bit) :
    NextInv (drawOperation ps c s) :=
  whenReady_nextInv fun ready => complete_inv (drawPixels_inv inv ready ps c)

theorem execPlot_nextInv {s : State} (inv : s.Inv) (x y : Int) (c : Bit) : NextInv (execPlot x y c s) :=
  drawOperation_nextInv inv [(x, y)] c

theorem writeOperation_nextInv {s : State} (inv : s.Inv) (bytes : List Byte) : NextInv (writeOperation bytes s) := by
  rcases writeOperation_cases bytes s with e | e | e <;> rw [e]
  · exact complete_inv (wrote_inv inv bytes .ok)
  · exact raise_inv (wrote_inv inv bytes .err) .busError
  · trivial

theorem wireWrite_nextInv {s : State} (inv : s.Inv) (i : Instr) : NextInv (wireWrite i s) := by
  rcases wireWrite_cases i s with ⟨-, e⟩ | ⟨-, -, e⟩ | ⟨-, e | e | e⟩ <;> rw [e]
  · trivial
  · trivial
  · exact wrote_inv inv _ .ok
  · exact failWrite_inv (wrote_inv inv _ .err)
  · trivial

theorem drawText_nextInv {s : State} (inv : s.Inv) (ready : s.st = .ready) {size : TextSize} (sane : size.Sane)
    (table : Fin 96 → List Byte) (codes : List Int) (wrap : Bit) : NextInv (drawText size table codes wrap s) := by
  rcases drawText_cases size table codes wrap s with ⟨-, e⟩ | ⟨-, e⟩ | ⟨gs, -, -, e⟩ <;> rw [e]
  · trivial
  · exact raise_inv inv .invalidArgument
  · exact complete_inv (placeText_inv inv ready sane wrap gs)

theorem lengthWith_nextInv {s : State} (inv : s.Inv) (table : Fin 96 → List Byte) (codes : List Int) :
    NextInv (lengthWith table codes s) := by
  refine whenReady_nextInv fun _ => ?_
  cases glyphsOf table codes with
  | none => trivial
  | some gs => exact completeWith_inv inv _

/-- INIT after validation ends in an open session or in a discarded one (rules R26, R111; D10). -/
theorem construct_nextInv {s : State} {w h : Int} (initializing : s.st = .initializing) (dims : dimsLegal w h)
    (addr : Int) : NextInv (construct (openSession addr w h s)) := by
  rcases construct_cases (s := openSession addr w h s) initializing with e | ⟨k, hk, e⟩ | e | e <;> rw [e]
  · exact complete_inv (opened_inv dims addr)
  · exact raise_inv (discardSession_inv _) .busError
  · exact raise_inv (discardSession_inv _) .busError
  · trivial

theorem execInit_nextInv {s : State} (inv : s.Inv) (addr w h : Int) : NextInv (execInit addr w h s) := by
  unfold execInit
  by_cases un : s.st = .uninitialized
  · rw [if_pos un]
    by_cases legal : addrLegal addr ∧ dimsLegal w h
    · rw [if_pos legal]
      exact construct_nextInv rfl legal.2 addr
    · rw [if_neg legal]
      exact raise_inv (inv.of_sameSession (t := { s with st := .uninitialized })
        ⟨un.symm, rfl, rfl, rfl, rfl, rfl⟩ ⟨rfl, rfl⟩ rfl) .configurationError
  · rw [if_neg un]
    trivial

/-- Every instruction keeps the invariant: the 13 operations each by its own rule, the 20 bus writes by theirs. -/
theorem exec_nextInv {s : State} (inv : s.Inv) (i : Instr) : NextInv (exec i s) := by
  cases i with
  | init addr w h => exact execInit_nextInv inv addr w h
  | home => exact whenReady_next_nextInv fun ready => moveTo_inv inv ready 0 0
  | move x y => exact whenReady_next_nextInv fun ready => moveTo_inv inv ready x y
  | plot x y color => exact execPlot_nextInv inv x y color
  | line | circle => exact drawOperation_nextInv inv _ _
  | rect x y w h color filled =>
    exact whenReady_next_nextInv (f := fun s => complete (drawRect x y w h color filled s)) fun ready =>
      complete_inv (drawRect_inv inv ready x y w h color filled)
  | text codes wrap => exact whenReady_nextInv fun ready => drawText_nextInv inv ready singleSize_sane _ codes wrap
  | text2x codes wrap =>
    exact whenReady_nextInv fun ready => drawText_nextInv inv ready (doubleSize_sane _) _ codes wrap
  | lengthOfString codes => exact lengthWith_nextInv inv _ codes
  | clear => exact whenReady_next_nextInv fun ready => complete_inv (clearFramebuffer_inv inv ready)
  | draw | setInverse => exact whenReady_nextInv fun _ => writeOperation_nextInv inv _
  | _ => exact wireWrite_nextInv inv _

/-- A step waits, runs one instruction at the state without its request, or is refused (rules R17, R58). -/
theorem step_nextInv {s : State} (inv : s.Inv) : NextInv (step s) := by
  unfold step
  cases s.requests with
  | nil => exact inv
  | cons r rest =>
    simp only
    cases decode r.word with
    | ok i => exact exec_nextInv (withRequests_inv inv rest) i
    | error e => trivial

/-- Settles O12: every arm of `exec` keeps the invariant, and a step is one of them. -/
theorem stepsKeepTheInvariant : Obligations.StepsKeepTheInvariant :=
  ⟨fun _ _ inv e => (step_nextInv inv).inv e, fun i _ _ inv e => (exec_nextInv inv i).inv e⟩

end Sys2Proof.Machine

/-! # The data frame (rule R35)

Its layout, DRAW's one write, and the write that ends a completed INIT. -/

namespace Sys2Proof.Machine

/-- Rules R35, R150, over the bytes the framebuffer reads as. -/
theorem frame_layout {s : State} {n : Nat} (size : s.fb.size = n) :
    (frame s).length = n + 1 ∧ (frame s)[0]? = some 0x40 ∧ ∀ i, i < n → (frame s)[i + 1]? = s.fb.read i := by
  refine ⟨?_, rfl, fun i _ => ?_⟩
  · simp [frame, Memory.bytes_length, size]
  · simpa [frame] using Memory.bytes_getElem? s.fb i

/-- In a session DRAW is one write of the frame (rule R115). -/
theorem exec_draw_ready {s : State} (ready : s.st = .ready) : exec .draw s = writeOperation (frame s) s := if_pos ready

/-- An operation with one bus write that gives a next state leaves that write in the trace, whatever the answer. -/
theorem writeOperation_next_trace {bytes : List Byte} {s t : State} (e : writeOperation bytes s = .next t) :
    ∃ r, t.trace = s.trace ++ [.busWrite s.addr bytes r] := by
  rcases writeOperation_cases bytes s with e' | e' | e' <;> rw [e'] at e <;> cases e
  · exact ⟨.ok, rfl⟩
  · exact ⟨.err, rfl⟩

/-- INIT ends `Ready` in one way only: after its 18 commands (`configured`) the frame was answered `ok` (rules R26,
R111). -/
theorem execInit_next_ready {s t : State} {addr w h : Int} (e : execInit addr w h s = .next t) (ready : t.st = .ready) :
    ∃ u, u = configured (openSession addr w h { s with st := .initializing }) ∧
      t = complete { wrote (frame u) .ok u with st := .ready } := by
  unfold execInit at e
  by_cases un : s.st = .uninitialized
  · rw [if_pos un] at e
    by_cases legal : addrLegal addr ∧ dimsLegal w h
    · rw [if_pos legal] at e
      rcases construct_cases (s := openSession addr w h { s with st := .initializing }) rfl with
        e' | ⟨k, hk, e'⟩ | e' | e' <;> rw [e'] at e <;> cases e
      · exact ⟨_, rfl, rfl⟩
      · cases ready
      · cases ready
    · rw [if_neg legal] at e
      cases e
      cases ready
  · rw [if_neg un] at e
    cases e

/-- Settles O48: DRAW writes the frame of the state it starts in, whose framebuffer has `N` bytes by the invariant; a
completed INIT ends with the frame of the framebuffer it allocated and cleared. -/
theorem frameIsTheFramebufferInOrder : Obligations.FrameIsTheFramebufferInOrder := by
  refine ⟨fun s t inv ready e => ?_, fun s t addr w h e ready => ?_⟩
  · rw [exec_draw_ready ready] at e
    obtain ⟨r, trace⟩ := writeOperation_next_trace e
    exact ⟨frame s, r, trace, frame_layout (inv.session ready).bytes⟩
  · obtain ⟨u, opened, rfl⟩ := execInit_next_ready e ready
    have size : u.fb.size = surfaceBytes u.w u.h := by simp [opened, Memory.allocate]
    exact ⟨frame u, by simp, frame_layout size⟩

end Sys2Proof.Machine

/-! # Drawing operations in a session (40_raster.md, "Common to all five")

Each of the five changes the framebuffer's bytes, and nothing else, and then ends with status `OK`. -/

namespace Sys2Proof.Machine

/-- RECT's two passes change the framebuffer only (rule R73). -/
theorem drawRect_frame (x y w h : Int) (color filled : Bit) (s : State) :
    drawRect x y w h color filled s = { s with fb := (drawRect x y w h color filled s).fb } ∧
      (drawRect x y w h color filled s).fb.size = s.fb.size := by
  obtain ⟨fill, size, -⟩ := drawPixels_frame (fillPixels (clip x w s.w) (clip y h s.h)) color s
  unfold drawRect
  by_cases outline : filled = 0
  · obtain ⟨erase, size', -⟩ := drawPixels_frame (interiorPixels (clip x w s.w) (clip y h s.h)) 0
      (drawPixels (fillPixels (clip x w s.w) (clip y h s.h)) color s)
    simp only [if_pos outline]
    exact ⟨by rw [erase, fill], size'.trans size⟩
  · simp only [if_neg outline]
    exact ⟨fill, size⟩

/-- Ending with `OK` after a change of the framebuffer's bytes alone. -/
theorem complete_drawingFrame {s t : State} (only : t = { s with fb := t.fb }) (size : t.fb.size = s.fb.size) :
    s.DrawingFrame (complete t) := by
  rw [only]
  exact ⟨⟨rfl, rfl, rfl, rfl, rfl, rfl⟩, ⟨rfl, rfl⟩, ⟨rfl, rfl, rfl⟩, ⟨rfl, rfl⟩, size⟩

section
variable {s : State} (ready : s.st = .ready)
include ready

theorem exec_plot_ready (x y : Int) (c : Bit) : exec (.plot x y c) s = .next (complete (plotPixel c s (x, y))) :=
  if_pos ready

theorem exec_line_ready (a b d e k : Int) (c : Bit) :
    exec (.line a b d e k c) s = .next (complete (drawPixels (linePixels Config.lineRoundsUp a b d e k) c s)) :=
  if_pos ready

theorem exec_circle_ready (a b r : Int) (c f : Bit) :
    exec (.circle a b r c f) s =
      .next (complete (drawPixels (circlePixels Config.sin Config.cos Config.circleTieUp a b r f) c s)) :=
  if_pos ready

theorem exec_rect_ready (x y w h : Int) (c f : Bit) :
    exec (.rect x y w h c f) s = .next (complete (drawRect x y w h c f s)) :=
  if_pos ready

theorem exec_clear_ready : exec .clear s = .next (complete (clearFramebuffer s)) := if_pos ready

end

/-- Settles O33: in `Ready` each of the five gives `complete` of a state that differs in the framebuffer only. -/
theorem drawingNeverFails : Obligations.DrawingNeverFails := by
  intro s i ready drawing
  have ends {t : State} (e : exec i s = .next (complete t)) (only : t = { s with fb := t.fb })
      (size : t.fb.size = s.fb.size) : ∃ t, exec i s = .next t ∧ s.EndsOk t :=
    ⟨_, e, (complete_drawingFrame only size).ends⟩
  rcases drawing with ⟨x, y, c, rfl⟩ | ⟨a, b, d, e, k, c, rfl⟩ | ⟨a, b, r, c, f, rfl⟩ | ⟨x, y, w, h, c, f, rfl⟩ | rfl
  · obtain ⟨only, size, -⟩ := plotPixel_frame c s (x, y)
    exact ends (exec_plot_ready ready x y c) only size
  · obtain ⟨only, size, -⟩ := drawPixels_frame (linePixels Config.lineRoundsUp a b d e k) c s
    exact ends (exec_line_ready ready a b d e k c) only size
  · obtain ⟨only, size, -⟩ := drawPixels_frame (circlePixels Config.sin Config.cos Config.circleTieUp a b r f) c s
    exact ends (exec_circle_ready ready a b r c f) only size
  · obtain ⟨only, size⟩ := drawRect_frame x y w h c f s
    exact ends (exec_rect_ready ready x y w h c f) only size
  · exact ends (exec_clear_ready ready) rfl rfl

end Sys2Proof.Machine

/-! # Glyph bit transforms (41_text.md rules R91, R96) -/

namespace Sys2Proof.Machine

/-- A bit of the pair `11` that `stretchBits` places at `2 * n` is set exactly where halving its index gives `n`. -/
theorem bitPair_getLsbD {n k : Nat} (hk : k < 16) : (3#16 <<< (2 * n)).getLsbD k = decide (k / 2 = n) := by
  have two_ones : 3#16 = (BitVec.allOnes 2).setWidth 16 := rfl
  rw [two_ones, BitVec.getLsbD_shiftLeft, BitVec.getLsbD_setWidth, BitVec.getLsbD_allOnes, Bool.eq_iff_iff]
  simp only [Bool.and_eq_true, Bool.not_eq_true', decide_eq_true_eq, decide_eq_false_iff_not]
  omega

theorem stretchBits_succ_getLsbD (v : Byte) (n : Nat) {k : Nat} (hk : k < 16) :
    (stretchBits v (n + 1)).getLsbD k = ((stretchBits v n).getLsbD k || v.getLsbD n && decide (k / 2 = n)) := by
  rw [stretchBits]
  split
  · rename_i set
    rw [BitVec.getLsbD_or, bitPair_getLsbD hk, set, Bool.true_and]
  · rename_i clear
    rw [Bool.eq_false_iff.2 clear, Bool.false_and, Bool.or_false]

/-- Stretching the lowest `n` bits gives output bit `k` the source bit `k / 2`, and no bit from `2 * n` on. -/
theorem stretchBits_getLsbD (v : Byte) (n : Nat) {k : Nat} (hk : k < 16) :
    (stretchBits v n).getLsbD k = (decide (k / 2 < n) && v.getLsbD (k / 2)) := by
  induction n with
  | zero => simp [stretchBits]
  | succ n ih =>
    rw [stretchBits_succ_getLsbD v n hk, ih]
    by_cases top : k / 2 = n
    · simp [top]
    · have earlier : k / 2 < n + 1 ↔ k / 2 < n := by omega
      simp [top, earlier]

theorem stretch16_getLsbD (v : Byte) {k : Nat} (hk : k < 16) : (stretch16 v).getLsbD k = v.getLsbD (k / 2) := by
  have low : k / 2 < 8 := by omega
  rw [stretch16, stretchBits_getLsbD v 8 hk, decide_eq_true low, Bool.true_and]

/-- Settles O41: `2 * i` and `2 * i + 1` are the two output indices that halve to `i`. -/
theorem glyphBitTransforms : Obligations.GlyphBitTransforms := by
  intro v i hi
  have even : 2 * i / 2 = i := by omega
  have odd : (2 * i + 1) / 2 = i := by omega
  refine ⟨flip8_getLsbD v hi, ?_, ?_⟩
  · rw [stretch16_getLsbD v (by omega), even]
  · rw [stretch16_getLsbD v (by omega), odd]

end Sys2Proof.Machine

/-! # How an operation ends (60_exceptions.md rules R160, R166)

An operation that gives a next state has ended by `complete`, `completeWith` or `raise`, each of which delivers one
reply, and nothing before that end touches the replies. -/

namespace Sys2Proof.Machine

/-! ## Delivering one status -/

/-- From `s` to `t` the host receives one reply: a status of `statuses`, with no value. -/
def State.Delivers (statuses : List Status) (s t : State) : Prop :=
  ∃ status ∈ statuses, t.replies = s.replies ++ [{ status := status, value := none }]

theorem complete_delivers {statuses : List Status} {s u : State} (earlier : u.replies = s.replies)
    (own : .ok ∈ statuses) : s.Delivers statuses (complete u) :=
  ⟨.ok, own, by rw [complete_replies, earlier]⟩

theorem raise_delivers {statuses : List Status} {s u : State} {e : Condition} (earlier : u.replies = s.replies)
    (own : .raised e ∈ statuses) : s.Delivers statuses (raise e u) :=
  ⟨.raised e, own, by rw [raise_replies, earlier]⟩

@[simp] theorem drawRect_replies (x y w h : Int) (color filled : Bit) (s : State) :
    (drawRect x y w h color filled s).replies = s.replies := by rw [(drawRect_frame x y w h color filled s).1]

@[simp] theorem placeText_replies (l : Layout) (s : State) : (placeText l s).replies = s.replies := by
  rw [placeText_frame]

/-! ## Each way an operation can end -/

/-- An operation other than INIT that gives a next state ran, in a session (rule R117). -/
theorem whenReady_next {s t : State} {run : State → Host.Outcome State Fault Refusal}
    (e : whenReady s run = .next t) : s.st = .ready ∧ run s = .next t := by
  unfold whenReady at e
  by_cases ready : s.st = .ready
  · rw [if_pos ready] at e
    exact ⟨ready, e⟩
  · rw [if_neg ready] at e
    cases e

/-- An operation that, in a session, always ends. -/
theorem whenReady_next_delivers {statuses : List Status} {s t : State} {f : State → State}
    (e : whenReady s (fun s => .next (f s)) = .next t) (ends : s.st = .ready → s.Delivers statuses (f s)) :
    s.Delivers statuses t := by
  obtain ⟨ready, ⟨⟩⟩ := whenReady_next e
  exact ends ready

/-- An operation that, in a session, always ends with `OK`. -/
theorem whenReady_complete_delivers {s t : State} {f : State → State}
    (e : whenReady s (fun s => .next (complete (f s))) = .next t) (earlier : (f s).replies = s.replies) :
    s.Delivers [.ok] t :=
  whenReady_next_delivers (f := fun s => complete (f s)) e fun _ => complete_delivers earlier (by simp)

theorem drawOperation_next_delivers {s t : State} {ps : List Pixel} {c : Bit} (e : drawOperation ps c s = .next t) :
    s.Delivers [.ok] t :=
  whenReady_complete_delivers e (drawPixels_replies ps c s)

theorem writeOperation_next_delivers {bytes : List Byte} {s t : State} (e : writeOperation bytes s = .next t) :
    s.Delivers [.ok, .raised .busError] t := by
  rcases writeOperation_cases bytes s with e' | e' | e' <;> rw [e'] at e <;> cases e
  · exact complete_delivers rfl (by simp)
  · exact raise_delivers rfl (by simp)

/-- The empty string is the one string TEXT and TEXT_2X end with a condition on (rule R164). -/
theorem drawText_next_delivers {size : TextSize} {table : Fin 96 → List Byte} {codes : List Int} {wrap : Bit}
    {s t : State} (e : drawText size table codes wrap s = .next t) :
    s.Delivers (if codes = [] then [.raised .invalidArgument] else [.ok]) t := by
  rcases drawText_cases size table codes wrap s with ⟨-, e'⟩ | ⟨empty, e'⟩ | ⟨gs, -, nonempty, e'⟩ <;>
    rw [e'] at e <;> cases e
  · rw [if_pos empty]
    exact raise_delivers rfl (by simp)
  · rw [if_neg nonempty]
    exact complete_delivers (placeText_replies _ s) (by simp)

theorem moveTo_onSurface {s : State} {x y : Int} (target : inSurface s.w s.h (x, y)) :
    moveTo x y s = complete { s with cx := x, cy := y } := if_pos target

theorem moveTo_offSurface {s : State} {x y : Int} (target : ¬ inSurface s.w s.h (x, y)) :
    moveTo x y s = raise .outOfRange s := if_neg target

theorem moveTo_delivers (s : State) (x y : Int) : s.Delivers [.ok, .raised .outOfRange] (moveTo x y s) := by
  by_cases target : inSurface s.w s.h (x, y)
  · rw [moveTo_onSurface target]
    exact complete_delivers rfl (by simp)
  · rw [moveTo_offSurface target]
    exact raise_delivers rfl (by simp)

/-- In a session the origin is on the surface, so HOME does not fail (rule R112). -/
theorem moveTo_origin_delivers {s : State} (session : s.SessionInv) : s.Delivers [.ok] (moveTo 0 0 s) := by
  obtain ⟨wpos, -, hpos, -⟩ := session.dims
  have origin : inSurface s.w s.h (0, 0) := by simp only [inSurface]; omega
  rw [moveTo_onSurface origin]
  exact complete_delivers rfl (by simp)

/-- LENGTH_OF_STRING, once accepted, ends with `OK` and a value, or refuses the string (rule R94). -/
theorem lengthWith_next {table : Fin 96 → List Byte} {codes : List Int} {s t : State}
    (e : lengthWith table codes s = .next t) : ∃ n, t = completeWith (some n) s := by
  obtain ⟨-, e⟩ := whenReady_next e
  cases glyphs : glyphsOf table codes with
  | none => simp [glyphs] at e
  | some gs =>
    simp only [glyphs] at e
    cases e
    exact ⟨_, rfl⟩

/-- After validation INIT ends with `OK` or, at the first write answered `err`, with `BusError` (rule R111). -/
theorem construct_next_delivers {s t : State} (initializing : s.st = .initializing) (e : construct s = .next t) :
    s.Delivers [.ok, .raised .busError] t := by
  rcases construct_cases initializing with e' | ⟨k, hk, e'⟩ | e' | e' <;> rw [e'] at e <;> cases e
  · exact complete_delivers (configured_replies s) (by simp)
  · exact raise_delivers rfl (by simp)
  · exact raise_delivers (configured_replies s) (by simp)

theorem execInit_next_delivers {s t : State} {addr w h : Int} (e : execInit addr w h s = .next t) :
    s.Delivers [.ok, .raised .configurationError, .raised .busError] t := by
  unfold execInit at e
  by_cases un : s.st = .uninitialized
  · rw [if_pos un] at e
    by_cases legal : addrLegal addr ∧ dimsLegal w h
    · rw [if_pos legal] at e
      obtain ⟨status, own, reply⟩ := construct_next_delivers (s := openSession addr w h { s with st := .initializing })
        rfl e
      exact ⟨status, List.cons_subset_cons Status.ok (List.subset_cons_self _ _) own, reply⟩
    · rw [if_neg legal] at e
      cases e
      exact raise_delivers rfl (by simp)
  · rw [if_neg un] at e
    cases e

/-- A reply without a value meets the clauses of `Obligations.EveryOperationEndsWithOneOfItsStatuses`. -/
theorem State.Delivers.reply {statuses : List Status} {s t : State} (delivers : s.Delivers statuses t) (i : Instr) :
    ∃ r : Reply, t.replies = s.replies ++ [r] ∧ ((∀ codes, i ≠ .lengthOfString codes) → r.value = none) ∧
      r.status ∈ statuses := by
  obtain ⟨status, own, replies⟩ := delivers
  exact ⟨_, replies, fun _ => rfl, own⟩

/-- Settles O17: each operation by the lemma on how it ends; HOME by the invariant, which puts the origin on the
surface; a bus write is no operation. -/
theorem everyOperationEndsWithOneOfItsStatuses : Obligations.EveryOperationEndsWithOneOfItsStatuses := by
  intro i s t operation inv e
  cases i with
  | init addr w h => exact (execInit_next_delivers e).reply _
  | home => exact (whenReady_next_delivers e fun ready => moveTo_origin_delivers (inv.session ready)).reply _
  | move x y => exact (whenReady_next_delivers e fun _ => moveTo_delivers s x y).reply _
  | plot x y color => exact (drawOperation_next_delivers (ps := [(x, y)]) e).reply _
  | line | circle => exact (drawOperation_next_delivers e).reply _
  | rect x y w h color filled =>
    exact (whenReady_complete_delivers (f := drawRect x y w h color filled) e (drawRect_replies ..)).reply _
  | text | text2x => exact (drawText_next_delivers (whenReady_next e).2).reply _
  | lengthOfString codes =>
    obtain ⟨n, rfl⟩ := lengthWith_next e
    exact ⟨_, completeWith_replies (some n) s, fun other => absurd rfl (other codes), by simp⟩
  | clear => exact (whenReady_complete_delivers (f := clearFramebuffer) e (clearFramebuffer_replies s)).reply _
  | draw | setInverse => exact (writeOperation_next_delivers (whenReady_next e).2).reply _
  | _ => cases operation

end Sys2Proof.Machine

/-! # The encoding (30_encoding.md)

A word decodes to an instruction exactly when it is that instruction's encoding, trailing defaults left out: the
decoder undoes the encoder, bus writes decode only from their own bytes, and a descriptor that decodes lacks nothing
but defaults. What is refused is then what no encoding looks like. -/

namespace Sys2Proof.Machine

/-! ## One-bit operands -/

theorem decodeBit_eq_ok {v : Int} {b : Bit} : decodeBit v = .ok b ↔ v = b.toNat := by
  unfold decodeBit
  obtain rfl | rfl := b.eq_zero_or_eq_one <;> by_cases zero : v = 0 <;> by_cases one : v = 1 <;> simp [zero, one]

theorem withBit_eq_ok {v : Int} {build : Bit → Instr} {i : Instr} :
    withBit v build = .ok i ↔ ∃ b : Bit, v = b.toNat ∧ build b = i := by
  unfold withBit
  cases bit : decodeBit v with
  | ok b => simp [← decodeBit_eq_ok, bit]
  | error e => simp [← decodeBit_eq_ok, bit]

theorem withBits_eq_ok {v u : Int} {build : Bit → Bit → Instr} {i : Instr} :
    withBits v u build = .ok i ↔ ∃ b c : Bit, v = b.toNat ∧ u = c.toNat ∧ build b c = i := by
  unfold withBits
  cases bit : decodeBit v with
  | ok b => simp [← decodeBit_eq_ok (v := v), bit, withBit_eq_ok]
  | error e => simp [← decodeBit_eq_ok (v := v), bit]

/-- Another value than 0 and 1 is refused under its own name (rule R58). -/
theorem withBit_error {v : Int} (zero : v ≠ 0) (one : v ≠ 1) (build : Bit → Instr) :
    withBit v build = .error (.oneBit v) := by simp [withBit, decodeBit, zero, one]

theorem withBits_error_first {v : Int} (zero : v ≠ 0) (one : v ≠ 1) (u : Int) (build : Bit → Bit → Instr) :
    withBits v u build = .error (.oneBit v) := by simp [withBits, decodeBit, zero, one]

theorem withBits_error_second {v : Int} (zero : v ≠ 0) (one : v ≠ 1) (b : Bit) (build : Bit → Bit → Instr) :
    withBits b.toNat v build = .error (.oneBit v) := by
  simp [withBits, decodeBit_eq_ok.2 rfl, withBit_error zero one]

/-! ## Decoding an encoded instruction -/

/-- The decoder undoes the encoder: the one-bit operands by `decodeBit`, everything else as it stands. -/
theorem decode_encode (i : Instr) : decode (encode i) = .ok i := by
  cases i with
  | plot | line | text | text2x | setInverse => exact withBit_eq_ok.2 ⟨_, rfl, rfl⟩
  | circle | rect => exact withBits_eq_ok.2 ⟨_, _, rfl, rfl, rfl⟩
  | _ => rfl

theorem encode_injective {i j : Instr} (e : encode i = encode j) : i = j :=
  Except.ok.inj ((decode_encode i).symm.trans (e ▸ decode_encode j))

/-- Settles O1: the decoder undoes the encoder. -/
theorem decodeInvertsEncode : Obligations.DecodeInvertsEncode := decode_encode

/-- Settles O4: the nine words are evaluated. -/
theorem wordsOfTheTableDecode : Obligations.WordsOfTheTableDecode := by
  unfold Obligations.WordsOfTheTableDecode
  decide

/-! ## Bus writes

Each of the four formats, from the number of its command byte (rule R54). -/

section
variable {c v : Byte} {n : Nat} {args : List Byte} {i j : Instr} {build : Byte → Instr}

theorem eq_ofNat_of_code (code : c.toNat = n) : c = BitVec.ofNat 8 n := by
  rw [← code, BitVec.ofNat_toNat, BitVec.setWidth_eq]

theorem decodeWC1_exact (code : c.toNat = n) (word : encode i = .busWrite [0x00, BitVec.ofNat 8 n])
    (h : decodeWC1 c i args = .ok j) : encode j = .busWrite (0x00 :: c :: args) := by
  obtain rfl := eq_ofNat_of_code code
  cases args with
  | nil => cases h; exact word
  | cons => cases h

theorem decodeWC2const_exact (code : c.toNat = n) (word : encode i = .busWrite [0x00, BitVec.ofNat 8 n, v])
    (h : decodeWC2const c v i args = .ok j) : encode j = .busWrite (0x00 :: c :: args) := by
  obtain rfl := eq_ofNat_of_code code
  match args with
  | [] => cases h
  | [a] =>
    by_cases constant : a = v
    · simp only [decodeWC2const, if_pos constant] at h
      cases h
      rw [constant, word]
    · simp only [decodeWC2const, if_neg constant] at h
      cases h
  | _ :: _ :: _ => cases h

theorem decodeWC2_exact (code : c.toNat = n) (word : ∀ a, encode (build a) = .busWrite [0x00, BitVec.ofNat 8 n, a])
    (h : decodeWC2 c build args = .ok j) : encode j = .busWrite (0x00 :: c :: args) := by
  obtain rfl := eq_ofNat_of_code code
  match args with
  | [] => cases h
  | [a] => cases h; exact word a
  | _ :: _ :: _ => cases h

theorem decodeWC3_exact (code : c.toNat = n)
    (word : ∀ b, encode (build b) = .busWrite [0x00, BitVec.ofNat 8 n, 0x00, b])
    (h : decodeWC3 c build args = .ok j) : encode j = .busWrite (0x00 :: c :: args) := by
  obtain rfl := eq_ofNat_of_code code
  match args with
  | [] | [_] => cases h
  | [a, b] =>
    by_cases constant : a = 0x00
    · simp only [decodeWC3, if_pos constant] at h
      cases h
      rw [constant, word]
    · simp only [decodeWC3, if_neg constant] at h
      cases h
  | _ :: _ :: _ :: _ => cases h

/-- Rule R59's 19 command bytes, in the order of the decoder. -/
theorem decodeCommand_exact (h : decodeCommand c args = .ok i) : encode i = .busWrite (0x00 :: c :: args) := by
  unfold decodeCommand at h
  split at h <;> rename_i code
  · exact decodeWC1_exact code rfl h
  · exact decodeWC2const_exact code rfl h
  · exact decodeWC2_exact code (fun _ => rfl) h
  · exact decodeWC2const_exact code rfl h
  · exact decodeWC1_exact code rfl h
  · exact decodeWC2const_exact code rfl h
  · exact decodeWC2const_exact code rfl h
  · exact decodeWC1_exact code rfl h
  · exact decodeWC1_exact code rfl h
  · exact decodeWC2_exact code (fun _ => rfl) h
  · exact decodeWC2const_exact code rfl h
  · exact decodeWC2const_exact code rfl h
  · exact decodeWC2const_exact code rfl h
  · exact decodeWC1_exact code rfl h
  · exact decodeWC1_exact code rfl h
  · exact decodeWC1_exact code rfl h
  · exact decodeWC3_exact code (fun _ => rfl) h
  · exact decodeWC3_exact code (fun _ => rfl) h
  · exact decodeWC1_exact code rfl h
  · cases h

end

/-- The control byte comes first, and decides (rule R55). -/
theorem decodeWrite_exact {bytes : List Byte} {i : Instr} (h : decodeWrite bytes = .ok i) :
    encode i = .busWrite bytes := by
  unfold decodeWrite at h
  split at h
  · cases h
  · rename_i k rest
    by_cases command : k = 0x00
    · simp only [if_pos command] at h
      cases rest with
      | nil => cases h
      | cons c args => exact command ▸ decodeCommand_exact h
    · by_cases data : k = 0x40
      · simp only [if_neg command, if_pos data] at h
        cases rest with
        | nil => cases h; rw [data]; rfl
        | cons => cases h
      · simp only [if_neg command, if_neg data] at h
        cases h

/-- Settles O2: a bus write that decodes is the encoding of what it decodes to. -/
theorem busWriteWordsAreExact : Obligations.BusWriteWordsAreExact := fun _ _ h => decodeWrite_exact h

/-- Rule R59: the bytes of every bus write match its pattern. -/
theorem isBlockWrite_of_encode {i : Instr} {bytes : List Byte} (h : encode i = .busWrite bytes) :
    IsBlockWrite bytes := by
  cases i with
  | multiplex a => cases h; exact .inr (.inl ⟨a, rfl⟩)
  | setcompins a => cases h; exact .inr (.inr (.inl ⟨a, rfl⟩))
  | columnaddr b => cases h; exact .inr (.inr (.inr (.inl ⟨b, rfl⟩)))
  | pageaddr b => cases h; exact .inr (.inr (.inr (.inr (.inl ⟨b, rfl⟩))))
  | data => cases h; exact .inr (.inr (.inr (.inr (.inr ⟨[], rfl⟩))))
  | _ => cases h <;> exact .inl (by decide)

/-! ## Descriptors -/

/-- The operands of an operation that may be left out, with their defaults (rule R53). -/
def omittable (op : BitVec 4) : List Operand :=
  match op.toNat with
  | 0x3 => [.int 1]
  | 0x4 => [.int 1, .int 1]
  | 0x5 => [.int 1, .int 0]
  | 0x6 => [.int 1, .int 0]
  | 0x7 => [.int 1]
  | 0x8 => [.int 1]
  | _ => []

/-- The descriptor is that of `i`, trailing defaults left out. -/
def Abbreviates (op : BitVec 4) (args : List Operand) (i : Instr) : Prop :=
  ∃ rest, encode i = .descriptor op (args ++ rest) ∧ rest <:+ omittable op

theorem abbreviates_full {op : BitVec 4} {args : List Operand} {i : Instr} (h : encode i = .descriptor op args) :
    Abbreviates op args i := ⟨[], by rw [List.append_nil, h], List.nil_suffix⟩

section
variable {op : BitVec 4} {args : List Operand} {i : Instr}

theorem decodeNone_abbreviates (word : encode i = .descriptor op []) {j : Instr} (h : decodeNone op i args = .ok j) :
    Abbreviates op args j := by
  cases args with
  | nil => cases h; exact abbreviates_full word
  | cons => cases h

theorem decodeInit_abbreviates (h : decodeInit args = .ok i) : Abbreviates 0x0 args i := by
  unfold decodeInit at h
  split at h
  · cases h; exact abbreviates_full rfl
  · cases h

theorem decodeMove_abbreviates (h : decodeMove args = .ok i) : Abbreviates 0x2 args i := by
  unfold decodeMove at h
  split at h
  · cases h; exact abbreviates_full rfl
  · cases h

theorem decodePlot_abbreviates (h : decodePlot args = .ok i) : Abbreviates 0x3 args i := by
  unfold decodePlot at h
  split at h
  · cases h; exact ⟨[.int 1], rfl, by decide⟩
  · obtain ⟨c, rfl, rfl⟩ := withBit_eq_ok.1 h; exact abbreviates_full rfl
  · cases h

theorem decodeLine_abbreviates (h : decodeLine args = .ok i) : Abbreviates 0x4 args i := by
  unfold decodeLine at h
  split at h
  · cases h; exact ⟨[.int 1, .int 1], rfl, by decide⟩
  · cases h; exact ⟨[.int 1], rfl, by decide⟩
  · obtain ⟨c, rfl, rfl⟩ := withBit_eq_ok.1 h; exact abbreviates_full rfl
  · cases h

theorem decodeCircle_abbreviates (h : decodeCircle args = .ok i) : Abbreviates 0x5 args i := by
  unfold decodeCircle at h
  split at h
  · cases h; exact ⟨[.int 1, .int 0], rfl, by decide⟩
  · obtain ⟨c, rfl, rfl⟩ := withBit_eq_ok.1 h; exact ⟨[.int 0], rfl, by decide⟩
  · obtain ⟨c, f, rfl, rfl, rfl⟩ := withBits_eq_ok.1 h; exact abbreviates_full rfl
  · cases h

theorem decodeRect_abbreviates (h : decodeRect args = .ok i) : Abbreviates 0x6 args i := by
  unfold decodeRect at h
  split at h
  · cases h; exact ⟨[.int 1, .int 0], rfl, by decide⟩
  · obtain ⟨c, rfl, rfl⟩ := withBit_eq_ok.1 h; exact ⟨[.int 0], rfl, by decide⟩
  · obtain ⟨c, f, rfl, rfl, rfl⟩ := withBits_eq_ok.1 h; exact abbreviates_full rfl
  · cases h

theorem decodeText_abbreviates {build : List Int → Bit → Instr}
    (word : ∀ s v, encode (build s v) = .descriptor op [.str s, bitOperand v]) (wrap : omittable op = [.int 1])
    (h : decodeText op build args = .ok i) : Abbreviates op args i := by
  unfold decodeText at h
  split at h
  · cases h; exact ⟨[.int 1], word _ 1, by rw [wrap]⟩
  · obtain ⟨v, rfl, rfl⟩ := withBit_eq_ok.1 h; exact abbreviates_full (word _ v)
  · cases h

theorem decodeLengthOfString_abbreviates (h : decodeLengthOfString args = .ok i) : Abbreviates 0x9 args i := by
  unfold decodeLengthOfString at h
  split at h
  · cases h; exact abbreviates_full rfl
  · cases h

theorem decodeSetInverse_abbreviates (h : decodeSetInverse args = .ok i) : Abbreviates 0xC args i := by
  unfold decodeSetInverse at h
  split at h
  · obtain ⟨f, rfl, rfl⟩ := withBit_eq_ok.1 h; exact abbreviates_full rfl
  · cases h

/-- The 13 select codes of rule R51, in their order. -/
theorem decodeDescriptor_abbreviates (h : decodeDescriptor op args = .ok i) : Abbreviates op args i := by
  unfold decodeDescriptor at h
  split at h <;> rename_i code
  · obtain rfl : op = 0x0 := BitVec.eq_of_toNat_eq code; exact decodeInit_abbreviates h
  · obtain rfl : op = 0x1 := BitVec.eq_of_toNat_eq code; exact decodeNone_abbreviates rfl h
  · obtain rfl : op = 0x2 := BitVec.eq_of_toNat_eq code; exact decodeMove_abbreviates h
  · obtain rfl : op = 0x3 := BitVec.eq_of_toNat_eq code; exact decodePlot_abbreviates h
  · obtain rfl : op = 0x4 := BitVec.eq_of_toNat_eq code; exact decodeLine_abbreviates h
  · obtain rfl : op = 0x5 := BitVec.eq_of_toNat_eq code; exact decodeCircle_abbreviates h
  · obtain rfl : op = 0x6 := BitVec.eq_of_toNat_eq code; exact decodeRect_abbreviates h
  · obtain rfl : op = 0x7 := BitVec.eq_of_toNat_eq code; exact decodeText_abbreviates (fun _ _ => rfl) rfl h
  · obtain rfl : op = 0x8 := BitVec.eq_of_toNat_eq code; exact decodeText_abbreviates (fun _ _ => rfl) rfl h
  · obtain rfl : op = 0x9 := BitVec.eq_of_toNat_eq code; exact decodeLengthOfString_abbreviates h
  · obtain rfl : op = 0xA := BitVec.eq_of_toNat_eq code; exact decodeNone_abbreviates rfl h
  · obtain rfl : op = 0xB := BitVec.eq_of_toNat_eq code; exact decodeNone_abbreviates rfl h
  · obtain rfl : op = 0xC := BitVec.eq_of_toNat_eq code; exact decodeSetInverse_abbreviates h
  · cases h

end

@[simp] theorem bitOperand_eq_one {b : Bit} : bitOperand b = .int 1 ↔ b = 1 := by
  obtain rfl | rfl := b.eq_zero_or_eq_one <;> simp [bitOperand]

@[simp] theorem bitOperand_eq_zero {b : Bit} : bitOperand b = .int 0 ↔ b = 0 := by
  obtain rfl | rfl := b.eq_zero_or_eq_one <;> simp [bitOperand]

/-- Leaving out a suffix of the defaults leaves the required operands and the first `k` of the others, where those left
out have their defaults. -/
theorem omission {required given defaults args rest : List Operand} (omitted : rest <:+ defaults)
    (operands : required ++ given = args ++ rest) (length : given.length = defaults.length) :
    ∃ k ≤ defaults.length, args = required ++ given.take k ∧ given.drop k = defaults.drop k := by
  obtain ⟨kept, rfl⟩ := omitted
  have split : args = required ++ given.take kept.length ∧ rest = given.drop kept.length := by
    refine List.append_inj' ?_ (by simp [length])
    rw [List.append_assoc, List.take_append_drop, operands]
  exact ⟨kept.length, by simp, split.1, by rw [← split.2, List.drop_left]⟩

/-- The encoding with trailing defaults left out decodes (rule R53): where nothing is left out by `decode_encode`,
otherwise by the operation's own short forms. -/
theorem Abbreviates.decodes {op : BitVec 4} {args : List Operand} {i : Instr} (h : Abbreviates op args i) :
    decode (.descriptor op args) = .ok i := by
  obtain ⟨rest, word, omitted⟩ := h
  have full (none : omittable op = []) : decode (.descriptor op args) = .ok i := by
    rw [none, List.suffix_nil] at omitted
    rw [omitted, List.append_nil] at word
    rw [← word, decode_encode]
  cases i with
  | init | home | move | lengthOfString | clear | draw | setInverse =>
    obtain ⟨rfl, -⟩ := InstrWord.descriptor.inj word
    exact full rfl
  | plot x y c =>
    obtain ⟨rfl, operands⟩ := InstrWord.descriptor.inj word
    obtain ⟨k, hk, rfl, defaults⟩ := omission (required := [.int x, .int y]) omitted operands rfl
    match k with
    | 0 => obtain rfl : c = 1 := by simpa [omittable] using defaults
           rfl
    | 1 => exact decode_encode (.plot x y c)
    | k + 2 => simp [omittable] at hk
  | line a b d e t c =>
    obtain ⟨rfl, operands⟩ := InstrWord.descriptor.inj word
    obtain ⟨k, hk, rfl, defaults⟩ := omission (required := [.int a, .int b, .int d, .int e]) omitted operands rfl
    match k with
    | 0 => obtain ⟨rfl, rfl⟩ : t = 1 ∧ c = 1 := by simpa [omittable] using defaults
           rfl
    | 1 => obtain rfl : c = 1 := by simpa [omittable] using defaults
           rfl
    | 2 => exact decode_encode (.line a b d e t c)
    | k + 3 => simp [omittable] at hk
  | circle a b r c f =>
    obtain ⟨rfl, operands⟩ := InstrWord.descriptor.inj word
    obtain ⟨k, hk, rfl, defaults⟩ := omission (required := [.int a, .int b, .int r]) omitted operands rfl
    match k with
    | 0 => obtain ⟨rfl, rfl⟩ : c = 1 ∧ f = 0 := by simpa [omittable] using defaults
           rfl
    | 1 => obtain rfl : f = 0 := by simpa [omittable] using defaults
           exact withBit_eq_ok.2 ⟨c, rfl, rfl⟩
    | 2 => exact decode_encode (.circle a b r c f)
    | k + 3 => simp [omittable] at hk
  | rect x y w h c f =>
    obtain ⟨rfl, operands⟩ := InstrWord.descriptor.inj word
    obtain ⟨k, hk, rfl, defaults⟩ := omission (required := [.int x, .int y, .int w, .int h]) omitted operands rfl
    match k with
    | 0 => obtain ⟨rfl, rfl⟩ : c = 1 ∧ f = 0 := by simpa [omittable] using defaults
           rfl
    | 1 => obtain rfl : f = 0 := by simpa [omittable] using defaults
           exact withBit_eq_ok.2 ⟨c, rfl, rfl⟩
    | 2 => exact decode_encode (.rect x y w h c f)
    | k + 3 => simp [omittable] at hk
  | text s v | text2x s v =>
    obtain ⟨rfl, operands⟩ := InstrWord.descriptor.inj word
    obtain ⟨k, hk, rfl, defaults⟩ := omission (required := [.str s]) omitted operands rfl
    match k with
    | 0 => obtain rfl : v = 1 := by simpa [omittable] using defaults
           rfl
    | 1 => exact withBit_eq_ok.2 ⟨v, rfl, rfl⟩
    | k + 2 => simp [omittable] at hk
  | _ => cases word

/-- Settles O3: the decoder reads abbreviated descriptors, each as its operation, and no other. -/
theorem descriptorsOmitOnlyDefaults : Obligations.DescriptorsOmitOnlyDefaults := fun _ _ _ =>
  ⟨decodeDescriptor_abbreviates, Abbreviates.decodes⟩

/-! ## Requests that are no instruction -/

/-- An encoded operation has the operands of its select code, each of its type, and as many defaults as may be left
out (rules R51, R53). -/
theorem encode_admitted {i : Instr} {op : BitVec 4} {operands : List Operand}
    (word : encode i = .descriptor op operands) :
    ∃ required defaulted, operandTypes op = some (required, defaulted) ∧
      List.Forall₂ OperandType.Admits (required ++ defaulted) operands ∧ (omittable op).length = defaulted.length := by
  have oneBit (b : Bit) : OperandType.oneBit.Admits (bitOperand b) := by
    obtain rfl | rfl := b.eq_zero_or_eq_one <;> simp [bitOperand, OperandType.Admits]
  have int (v : Int) : OperandType.int.Admits (.int v) := trivial
  have str (codes : List Int) : OperandType.str.Admits (.str codes) := trivial
  cases i <;> cases word <;> exact ⟨_, _, rfl, by simp [oneBit, int, str], rfl⟩

/-- A descriptor that decodes is one of an operation: what is left out of its encoding are trailing operands with a
default. -/
theorem fitsAnOperation_of_decode {op : BitVec 4} {args : List Operand} {i : Instr}
    (h : decode (.descriptor op args) = .ok i) : FitsAnOperation op args := by
  obtain ⟨rest, word, omitted⟩ := decodeDescriptor_abbreviates h
  obtain ⟨required, defaulted, types, admitted, length⟩ := encode_admitted word
  have counts := admitted.length_eq
  have short := omitted.length_le
  simp only [List.length_append] at counts
  refine ⟨required, defaulted, types, defaulted.take (defaulted.length - rest.length), ⟨_, List.take_append_drop ..⟩,
    ?_⟩
  have kept :
      required ++ defaulted.take (defaulted.length - rest.length) = (required ++ defaulted).take args.length := by
    rw [List.take_append, List.take_of_length_le (l := required) (by omega)]
    congr 2
    omega
  rw [kept]
  simpa using List.forall₂_take args.length admitted

/-- The step takes a request that decodes, and runs it (rules R17, R41). -/
theorem step_decoded {s : State} {r : Request} {rest : List Request} {i : Instr} (request : s.requests = r :: rest)
    (decoded : decode r.word = .ok i) : step s = exec i { s with requests := rest } := by
  simp [step, request, decoded]

/-- The step refuses a request that does not decode, in every state (rule R58). -/
theorem step_undecoded {s : State} {r : Request} {rest : List Request} {e : DecodeError}
    (request : s.requests = r :: rest) (undecoded : decode r.word = .error e) :
    step s = .refused (.notAnInstruction e) := by
  simp [step, request, undecoded]

/-- A word that decodes only to what is not so is refused. -/
theorem step_refused_of_not {p : Prop} {s : State} {r : Request} {rest : List Request}
    (request : s.requests = r :: rest) (decodes : ∀ i, decode r.word = .ok i → p) (not : ¬ p) :
    ∃ e, step s = .refused (.notAnInstruction e) := by
  cases word : decode r.word with
  | ok i => exact absurd (decodes i word) not
  | error e => exact ⟨e, step_undecoded request word⟩

theorem decode_reserved {op : BitVec 4} (reserved : 13 ≤ op.toNat) (args : List Operand) :
    decode (.descriptor op args) = .error (.reservedOp op) := by
  show decodeDescriptor op args = _
  unfold decodeDescriptor
  split
  case h_14 => rfl
  all_goals omega

/-- Settles O5: a reserved code and a bad one-bit operand by evaluating the decoder; a descriptor of no operation and
bytes of no pattern because whatever decodes is one. -/
theorem reservedRequestsRefused : Obligations.ReservedRequestsRefused := by
  refine ⟨fun s op args c rest reserved request => step_undecoded request (decode_reserved reserved args),
    fun s op args v c rest zero one request bad => step_undecoded request ?_,
    fun s op args c rest unfit request => step_refused_of_not request (fun _ => fitsAnOperation_of_decode) unfit,
    fun s bytes c rest foreign request =>
      step_refused_of_not request (fun _ h => isBlockWrite_of_encode (decodeWrite_exact h)) foreign,
    fun s payload c rest nonempty request => step_undecoded request ?_⟩
  · have single (build : Bit → Instr) := withBit_error zero one build
    have first (u : Int) (build : Bit → Bit → Instr) := withBits_error_first zero one u build
    have second (k : Bit) (build : Bit → Bit → Instr) := withBits_error_second zero one k build
    obtain ⟨_, _, rfl, rfl⟩ | ⟨_, _, _, _, _, rfl, rfl⟩ | ⟨_, _, _, rfl, rfl⟩ | ⟨_, _, _, _, rfl, rfl⟩ |
      ⟨_, _, _, k, rfl, rfl⟩ | ⟨_, _, _, _, rfl, rfl⟩ | ⟨_, _, _, _, _, rfl, rfl⟩ | ⟨_, _, _, _, k, rfl, rfl⟩ |
      ⟨_, rfl, rfl⟩ | ⟨_, rfl, rfl⟩ | ⟨rfl, rfl⟩ := bad
    · exact single _
    · exact single _
    · exact single _
    · exact first _ _
    · exact second k _
    · exact single _
    · exact first _ _
    · exact second k _
    · exact single _
    · exact single _
    · exact single _
  · cases payload with
    | nil => exact absurd rfl nonempty
    | cons => rfl

/-! ## The step -/

/-- Settles O6: the two branches of the step. -/
theorem stepRunsTheDecodedRequest : Obligations.StepRunsTheDecodedRequest :=
  ⟨fun _ _ _ _ request decoded => step_decoded request decoded, fun s none => by simp [step, none]⟩

/-- Settles O7: an encoded request decodes to its instruction. -/
theorem encodedRequestRunsItsInstruction : Obligations.EncodedRequestRunsItsInstruction :=
  fun _ i _ _ => step_decoded rfl (decode_encode i)

end Sys2Proof.Machine

/-! # Acceptance (42_session.md section 1, 43_wire_protocol.md)

In which session state an instruction runs: INIT in `Uninitialized`, the other operations in `Ready`, a bus write where
the block makes it. -/

namespace Sys2Proof.Machine

theorem whenReady_refused {s : State} (unready : s.st ≠ .ready)
    (run : State → Host.Outcome State Fault Refusal) :
    whenReady s run = .refused .operationNotAccepted := if_neg unready

/-- Every operation but INIT asks for `Ready` first. -/
theorem exec_whenReady {i : Instr} (operation : isOperation i = true) (other : ∀ addr w h, i ≠ .init addr w h) :
    ∃ run, ∀ s, exec i s = whenReady s run := by
  cases i with
  | init addr w h => exact absurd rfl (other addr w h)
  | home | move | plot | line | circle | rect | text | text2x | lengthOfString | clear | draw | setInverse =>
    exact ⟨_, fun _ => rfl⟩
  | _ => cases operation

/-- A bus write by itself is `wireWrite` (log entry 6). -/
theorem exec_wireWrite {i : Instr} (write : isOperation i = false) (s : State) : exec i s = wireWrite i s := by
  cases i with
  | init | home | move | plot | line | circle | rect | text | text2x | lengthOfString | clear | draw | setInverse =>
    cases write
  | _ => rfl

theorem wireWrite_noSession {s : State} (un : s.st = .uninitialized) (i : Instr) :
    wireWrite i s = .refused .noSession := if_pos un

theorem wireWrite_notEmitted {s : State} {i : Instr} (session : s.st ≠ .uninitialized)
    (foreign : emittedIn s.st i = false) : wireWrite i s = .refused .notEmitted := by simp [wireWrite, session, foreign]

theorem execInit_refused {s : State} (begun : s.st ≠ .uninitialized) (addr w h : Int) :
    execInit addr w h s = .refused .initNotAccepted := if_neg begun

/-- INIT with legal operands opens the session and constructs it (rule R111). -/
theorem exec_init_legal {s : State} {addr w h : Int} (un : s.st = .uninitialized) (address : addrLegal addr)
    (dims : dimsLegal w h) :
    exec (.init addr w h) s = construct (openSession addr w h { s with st := .initializing }) :=
  (if_pos un).trans (if_pos ⟨address, dims⟩)

/-- INIT with illegal operands raises `ConfigurationError` before every event (D7). -/
theorem exec_init_illegal {s : State} {addr w h : Int} (un : s.st = .uninitialized)
    (illegal : ¬ (addrLegal addr ∧ dimsLegal w h)) : exec (.init addr w h) s = .next (raise .configurationError s) := by
  have same : { s with st := .uninitialized } = s := by rw [← un]
  exact (if_pos un).trans ((if_neg illegal).trans (by rw [same]))

/-- Without a session INIT is the one instruction that has a next state. -/
theorem init_of_exec_next {i : Instr} {s t : State} (un : s.st = .uninitialized) (e : exec i s = .next t) :
    ∃ addr w h, i = .init addr w h := by
  by_contra other
  push Not at other
  cases kind : isOperation i with
  | true =>
    obtain ⟨run, eq⟩ := exec_whenReady kind other
    rw [eq, whenReady_refused (by simp [un])] at e
    cases e
  | false =>
    rw [exec_wireWrite kind, wireWrite_noSession un] at e
    cases e

theorem whenReady_next_eq {s t : State} {f : State → State} (e : whenReady s (fun s => .next (f s)) = .next t) :
    s.st = .ready ∧ t = f s := by
  obtain ⟨ready, ⟨⟩⟩ := whenReady_next e
  exact ⟨ready, rfl⟩

/-! Each operation that always ends, inverted. -/

section
variable {s t : State}

theorem exec_home_next (e : exec .home s = .next t) : s.st = .ready ∧ t = moveTo 0 0 s := whenReady_next_eq e

theorem exec_move_next {x y : Int} (e : exec (.move x y) s = .next t) : s.st = .ready ∧ t = moveTo x y s :=
  whenReady_next_eq e

theorem exec_plot_next {x y : Int} {c : Bit} (e : exec (.plot x y c) s = .next t) :
    s.st = .ready ∧ t = complete (plotPixel c s (x, y)) :=
  whenReady_next_eq (f := fun s => complete (plotPixel c s (x, y))) e

theorem exec_line_next {a b d f k : Int} {c : Bit} (e : exec (.line a b d f k c) s = .next t) :
    s.st = .ready ∧ t = complete (drawPixels (linePixels Config.lineRoundsUp a b d f k) c s) :=
  whenReady_next_eq (f := fun s => complete (drawPixels _ c s)) e

theorem exec_circle_next {a b r : Int} {c f : Bit} (e : exec (.circle a b r c f) s = .next t) :
    s.st = .ready ∧
      t = complete (drawPixels (circlePixels Config.sin Config.cos Config.circleTieUp a b r f) c s) :=
  whenReady_next_eq (f := fun s => complete (drawPixels _ c s)) e

theorem exec_rect_next {x y w h : Int} {c f : Bit} (e : exec (.rect x y w h c f) s = .next t) :
    s.st = .ready ∧ t = complete (drawRect x y w h c f s) :=
  whenReady_next_eq (f := fun s => complete (drawRect x y w h c f s)) e

theorem exec_clear_next (e : exec .clear s = .next t) : s.st = .ready ∧ t = complete (clearFramebuffer s) :=
  whenReady_next_eq (f := fun s => complete (clearFramebuffer s)) e

theorem drawText_next {size : TextSize} {table : Fin 96 → List Byte} {codes : List Int} {wrap : Bit}
    (e : drawText size table codes wrap s = .next t) :
    codes = [] ∧ t = raise .invalidArgument s ∨
      ∃ l, codes ≠ [] ∧ t = complete (placeText l s) := by
  rcases drawText_cases size table codes wrap s with ⟨-, e'⟩ | ⟨empty, e'⟩ | ⟨gs, -, nonempty, e'⟩ <;>
    rw [e'] at e <;> cases e
  · exact .inl ⟨empty, rfl⟩
  · exact .inr ⟨_, nonempty, rfl⟩

theorem writeOperation_next {bytes : List Byte} (e : writeOperation bytes s = .next t) :
    t = complete (wrote bytes .ok s) ∨ t = raise .busError (wrote bytes .err s) := by
  rcases writeOperation_cases bytes s with e' | e' | e' <;> rw [e'] at e <;> cases e
  · exact .inl rfl
  · exact .inr rfl

theorem exec_draw_next (e : exec .draw s = .next t) : s.st = .ready ∧
    (t = complete (wrote (frame s) .ok s) ∨ t = raise .busError (wrote (frame s) .err s)) := by
  obtain ⟨ready, e⟩ := whenReady_next e
  exact ⟨ready, writeOperation_next e⟩

/-- The command of SET_INVERSE (rule R114). -/
def polarity (flag : Bit) : Instr := if flag = 1 then .invertdisplay else .normaldisplay

theorem exec_setInverse_eq (flag : Bit) (s : State) :
    exec (.setInverse flag) s = whenReady s (writeOperation (commandBytes (polarity flag))) := by
  rw [polarity, apply_ite commandBytes]
  rfl

theorem exec_setInverse_next {flag : Bit} (e : exec (.setInverse flag) s = .next t) : s.st = .ready ∧
    (t = complete (wrote (commandBytes (polarity flag)) .ok s) ∨
      t = raise .busError (wrote (commandBytes (polarity flag)) .err s)) := by
  rw [exec_setInverse_eq] at e
  obtain ⟨ready, e⟩ := whenReady_next e
  exact ⟨ready, writeOperation_next e⟩

theorem wireWrite_next {i : Instr} (e : wireWrite i s = .next t) : emittedIn s.st i = true ∧
    (t = wrote (writeBytes i s) .ok s ∨ t = failWrite (wrote (writeBytes i s) .err s)) := by
  rcases wireWrite_cases i s with ⟨-, e'⟩ | ⟨-, -, e'⟩ | ⟨emitted, e' | e' | e'⟩ <;> rw [e'] at e <;> cases e
  · exact ⟨emitted, .inl rfl⟩
  · exact ⟨emitted, .inr rfl⟩

end

/-- Between steps a bus write that is made is one of SET_INVERSE or DRAW (log entry 21). -/
theorem State.Inv.emitted {i : Instr} {s : State} (inv : s.Inv) (emitted : emittedIn s.st i = true) :
    s.st = .ready ∧ (i = .normaldisplay ∨ i = .invertdisplay ∨ i = .data) := by
  cases st : s.st with
  | uninitialized =>
    rw [st] at emitted
    cases emitted
  | initializing => exact absurd st inv.settled
  | ready =>
    rw [st] at emitted
    exact ⟨rfl, of_decide_eq_true emitted⟩

/-- Settles O8: each operation tests the session state first. -/
theorem operationsRefusedInTheWrongState : Obligations.OperationsRefusedInTheWrongState := by
  refine ⟨fun s addr w h begun => execInit_refused begun addr w h, fun s i operation other unready => ?_⟩
  obtain ⟨run, eq⟩ := exec_whenReady operation other
  rw [eq, whenReady_refused unready]

/-- Settles O9: `emittedIn` in each of the three session states. -/
theorem busWritesOnlyWhereTheBlockMakesThem : Obligations.BusWritesOnlyWhereTheBlockMakesThem := by
  refine ⟨fun s i write un => ?_, fun s i write ready normal invert data => ?_, fun s initializing => ?_⟩
  · rw [exec_wireWrite write, wireWrite_noSession un]
  · rw [exec_wireWrite write,
      wireWrite_notEmitted (by simp [ready]) (by simp [ready, emittedIn, normal, invert, data])]
  · exact wireWrite_notEmitted (by simp [initializing]) (by simp [initializing, emittedIn])

end Sys2Proof.Machine

/-! # Reset, the cursor and strings (70_reset_and_hazards.md, 42_session.md, 41_text.md)

Results that are one branch of an operation's meaning. -/

namespace Sys2Proof.Machine

/-- Settles O10: the fields of the power-on state. -/
theorem powerOnState : Obligations.PowerOnState := ⟨rfl, rfl, Memory.read_absent, rfl, rfl⟩

/-- Settles O11: without a session the invariant asks for the absent framebuffer only. -/
theorem powerOnMeetsTheInvariant : Obligations.PowerOnMeetsTheInvariant where
  settled := by simp [State.reset]
  memory := Memory.absent_wf
  noSession _ := rfl
  session := by simp [State.reset]

/-- Settles O57: the numbers of rule R161. -/
theorem statusCodes : Obligations.StatusCodes := ⟨rfl, rfl, rfl, rfl, rfl⟩

/-- In a session the origin is on the surface. -/
theorem State.SessionInv.origin {s : State} (session : s.SessionInv) : inSurface s.w s.h (0, 0) := by
  obtain ⟨wpos, -, hpos, -⟩ := session.dims
  simp only [inSurface]
  omega

section
variable {s : State} (ready : s.st = .ready)
include ready

theorem exec_home_ready : exec .home s = .next (moveTo 0 0 s) := if_pos ready

theorem exec_move_ready (x y : Int) : exec (.move x y) s = .next (moveTo x y s) := if_pos ready

theorem textWith_ready (table : Fin 96 → List Byte) (codes : List Int) (v : Bit) :
    textWith table codes v s = drawText singleSize table codes v s := if_pos ready

theorem text2xWith_ready (extra : Option Byte → Byte → Option Byte → BitVec 16 × BitVec 16)
    (table : Fin 96 → List Byte) (codes : List Int) (v : Bit) :
    text2xWith extra table codes v s = drawText (doubleSize extra) table codes v s := if_pos ready

theorem lengthWith_ready_none {table : Fin 96 → List Byte} {codes : List Int} (none : glyphsOf table codes = none) :
    lengthWith table codes s = .refused .characterCode := by simp [lengthWith, whenReady, ready, none]

theorem lengthWith_ready_some {table : Fin 96 → List Byte} {codes : List Int} {gs : List (List Byte)}
    (glyphs : glyphsOf table codes = some gs) :
    lengthWith table codes s = .next (completeWith (some (stringLength gs)) s) := by
  simp [lengthWith, whenReady, ready, glyphs]

end

/-- Settles O45: the invariant puts the origin on the surface. -/
theorem homeResult : Obligations.HomeResult := by
  intro s inv ready
  rw [exec_home_ready ready, moveTo_onSurface (inv.session ready).origin]
  rfl

/-- Settles O46: the branch of MOVE on the surface. -/
theorem moveResult : Obligations.MoveResult := by
  intro s x y ready x0 xw y0 yh
  rw [exec_move_ready ready, moveTo_onSurface ⟨x0, xw, y0, yh⟩]
  rfl

/-- Settles O47: the branch of MOVE off the surface. -/
theorem moveOutOfRange : Obligations.MoveOutOfRange := by
  intro s x y ready off
  rw [exec_move_ready ready, moveTo_offSurface (by simp only [inSurface]; omega)]
  rfl

/-- Settles O52: validation precedes every event. -/
theorem initConfigurationError : Obligations.InitConfigurationError := fun s addr w h un illegal =>
  exec_init_illegal un (by simp only [addrLegal, dimsLegal]; omega)

theorem drawText_none {size : TextSize} {table : Fin 96 → List Byte} {codes : List Int}
    (none : glyphsOf table codes = none) (v : Bit) (s : State) :
    drawText size table codes v s = .refused .characterCode := by simp [drawText, none]

/-- A non-empty string with glyphs is laid out from the cursor and placed (rules R92, R93). -/
theorem drawText_some {size : TextSize} {table : Fin 96 → List Byte} {codes : List Int} {gs : List (List Byte)}
    (nonempty : codes ≠ []) (glyphs : glyphsOf table codes = some gs) (v : Bit) (s : State) :
    drawText size table codes v s = .next (complete (placeText (layout size s.w s.h v gs s.cx s.cy) s)) := by
  rcases drawText_cases size table codes v s with ⟨none, -⟩ | ⟨empty, -⟩ | ⟨gs', glyphs', -, e⟩
  · simp [glyphs] at none
  · exact absurd empty nonempty
  · obtain rfl : gs = gs' := Option.some.inj (glyphs.symm.trans glyphs')
    exact e

/-- Settles O43: one code without a glyph leaves the string without glyphs. -/
theorem codesWithoutAGlyphRefused : Obligations.CodesWithoutAGlyphRefused := by
  intro s codes v c ready member outside
  have none : glyphsOf Config.glyph codes = none := glyphsOf_none member outside
  exact ⟨(textWith_ready ready ..).trans (drawText_none none v s),
    (text2xWith_ready ready ..).trans (drawText_none none v s), lengthWith_ready_none ready none⟩

theorem stringLength_eq_sum (gs : List (List Byte)) : stringLength gs = (gs.map fun g => (g.length : Int) + 1).sum := by
  induction gs with
  | nil => rfl
  | cons g gs ih => rw [stringLength, ih, List.map_cons, List.sum_cons]

/-- Settles O44: each code gives its glyph's length and one. -/
theorem lengthOfStringResult : Obligations.LengthOfStringResult := by
  intro s codes ready printable
  refine (lengthWith_ready_some ready (glyphsOf_some printable)).trans ?_
  rw [stringLength_eq_sum, List.map_map]
  rfl

end Sys2Proof.Machine

/-! # What an instruction sends (43_wire_protocol.md, 30_encoding.md section 4)

For every instruction the bus writes it can add to the trace, whatever state it starts in. -/

namespace Sys2Proof.Machine

/-! ## Growing traces -/

/-- From `s` to `t` the trace grows, and every bus write among the new events is one of `writes`, to `addr`. -/
def State.Emits (addr : BitVec 7) (writes : List (List Byte)) (s t : State) : Prop :=
  ∃ es, t.trace = s.trace ++ es ∧ ∀ a bytes r, Event.busWrite a bytes r ∈ es → a = addr ∧ bytes ∈ writes

section
variable {addr : BitVec 7} {writes : List (List Byte)} {s t u : State}

theorem emits_of_trace_eq (same : t.trace = s.trace) : s.Emits addr writes t := ⟨[], by simpa using same, by simp⟩

theorem emits_write {bytes : List Byte} {r : BusResult} (member : bytes ∈ writes)
    (trace : t.trace = s.trace ++ [.busWrite addr bytes r]) : s.Emits addr writes t := by
  refine ⟨_, trace, fun a b r' new => ?_⟩
  obtain ⟨rfl, rfl, -⟩ := Event.busWrite.inj (List.mem_singleton.1 new)
  exact ⟨rfl, member⟩

theorem State.Emits.trans (first : s.Emits addr writes t) (second : t.Emits addr writes u) : s.Emits addr writes u := by
  obtain ⟨es, trace, sent⟩ := first
  obtain ⟨fs, trace', sent'⟩ := second
  refine ⟨es ++ fs, by rw [trace', trace, List.append_assoc], fun a bytes r member => ?_⟩
  rcases List.mem_append.1 member with old | new
  · exact sent a bytes r old
  · exact sent' a bytes r new

theorem emits_resetPulse : s.Emits addr writes (resetPulse s) := ⟨_, resetPulse_trace s, by simp⟩

theorem emits_okEvents {ws : List (List Byte)} (sub : ws ⊆ writes) (trace : t.trace = s.trace ++ okEvents addr ws) :
    s.Emits addr writes t := by
  refine ⟨_, trace, fun a bytes r member => ?_⟩
  obtain ⟨b, listed, same⟩ := List.mem_map.1 member
  obtain ⟨rfl, rfl, -⟩ := Event.busWrite.inj same
  exact ⟨rfl, sub listed⟩

end

/-! ## INIT -/

/-- The bytes of the writes INIT makes: the 18 commands and the frame of a cleared framebuffer (rule R111). -/
def allInitWrites (w h : Int) : List (List Byte) :=
  initWrites w h ++ [0x40 :: List.replicate (surfaceBytes w h) 0x00]

theorem Memory.bytes_clear (m : Memory) : m.clear.bytes = List.replicate m.size 0x00 := by
  refine List.eq_replicate_iff.2 ⟨Memory.bytes_length _, fun b member => ?_⟩
  obtain ⟨i, -, rfl⟩ := List.mem_map.1 member
  rfl

theorem frame_configured (s : State) : frame (configured s) = 0x40 :: List.replicate s.fb.size 0x00 := by
  rw [frame, configured_fb, Memory.bytes_clear]

theorem construct_emits {s t : State} {w h : Int} (addr : Int) (initializing : s.st = .initializing)
    (e : construct (openSession addr w h s) = .next t) : s.Emits (BitVec.ofInt 7 addr) (allInitWrites w h) t := by
  have opening : initWrites w h ⊆ allInitWrites w h := List.subset_append_left ..
  have closing : frame (configured (openSession addr w h s)) ∈ allInitWrites w h := by
    simp [frame_configured, allInitWrites, Memory.allocate]
  have pulse : s.Emits (BitVec.ofInt 7 addr) (allInitWrites w h) (resetPulse (openSession addr w h s)) :=
    (emits_of_trace_eq rfl).trans (emits_resetPulse (s := openSession addr w h s))
  have commands : s.Emits (BitVec.ofInt 7 addr) (allInitWrites w h) (configured (openSession addr w h s)) :=
    pulse.trans (emits_okEvents opening (by simp))
  rcases construct_cases (s := openSession addr w h s) initializing with e' | ⟨k, hk, e'⟩ | e' | e' <;>
    rw [e'] at e <;> cases e
  · exact commands.trans (emits_write closing (r := .ok) rfl)
  · refine pulse.trans (.trans (t := wroteAll k (okEvents (BitVec.ofInt 7 addr) ((initWrites w h).take k)) _)
      (emits_okEvents (fun _ listed => opening (List.mem_of_mem_take listed)) rfl)
      (emits_write (opening (List.getElem_mem hk)) (r := .err) ?_))
    simp
  · exact commands.trans (emits_write closing (r := .err) rfl)

/-! ## Every instruction -/

/-- The address the writes of an instruction go to (rules R33, R111). -/
def writeAddr (i : Instr) (s : State) : BitVec 7 :=
  match i with
  | .init addr _ _ => BitVec.ofInt 7 addr
  | _ => s.addr

/-- The bus writes an instruction can make: INIT, with legal dimensions, its 19; DRAW the frame; SET_INVERSE one of two
commands; no other operation any; a bus write itself. -/
def writesOf (i : Instr) (s : State) : List (List Byte) :=
  match i with
  | .init _ w h => if dimsLegal w h then allInitWrites w h else []
  | .draw => [frame s]
  | .setInverse flag => [commandBytes (polarity flag)]
  | i => if isOperation i then [] else [writeBytes i s]

theorem writesOf_wireWrite {i : Instr} (write : isOperation i = false) (s : State) :
    writesOf i s = [writeBytes i s] ∧ writeAddr i s = s.addr := by
  cases i with
  | init | home | move | plot | line | circle | rect | text | text2x | lengthOfString | clear | draw | setInverse =>
    cases write
  | _ => exact ⟨rfl, rfl⟩

theorem execInit_emits {s t : State} {addr w h : Int} (e : exec (.init addr w h) s = .next t) :
    s.Emits (writeAddr (.init addr w h) s) (writesOf (.init addr w h) s) t := by
  by_cases un : s.st = .uninitialized
  · by_cases legal : addrLegal addr ∧ dimsLegal w h
    · rw [exec_init_legal un legal.1 legal.2] at e
      rw [writesOf, if_pos legal.2]
      exact (emits_of_trace_eq rfl).trans (construct_emits (s := { s with st := .initializing }) addr rfl e)
    · rw [exec_init_illegal un legal] at e
      cases e
      exact emits_of_trace_eq rfl
  · cases (execInit_refused un addr w h).symm.trans e

@[simp] theorem failWrite_trace (s : State) : (failWrite s).trace = s.trace := by
  unfold failWrite
  split <;> rfl

theorem wireWrite_emits {i : Instr} {s t : State} (e : wireWrite i s = .next t) :
    s.Emits s.addr [writeBytes i s] t := by
  obtain ⟨-, rfl | rfl⟩ := wireWrite_next e
  · exact emits_write (List.mem_singleton_self _) (wrote_trace ..)
  · exact emits_write (List.mem_singleton_self _) ((failWrite_trace _).trans (wrote_trace ..))

@[simp] theorem drawRect_trace (x y w h : Int) (color filled : Bit) (s : State) :
    (drawRect x y w h color filled s).trace = s.trace := by rw [(drawRect_frame x y w h color filled s).1]

@[simp] theorem placeText_trace (l : Layout) (s : State) : (placeText l s).trace = s.trace := by rw [placeText_frame]

@[simp] theorem moveTo_trace (x y : Int) (s : State) : (moveTo x y s).trace = s.trace := by
  unfold moveTo
  split <;> rfl

/-- An instruction sends nothing but its own writes. -/
theorem exec_emits {i : Instr} {s t : State} (e : exec i s = .next t) : s.Emits (writeAddr i s) (writesOf i s) t := by
  cases i with
  | init addr w h => exact execInit_emits e
  | home => exact emits_of_trace_eq (by simp [(exec_home_next e).2])
  | move => exact emits_of_trace_eq (by simp [(exec_move_next e).2])
  | plot => exact emits_of_trace_eq (by simp [(exec_plot_next e).2])
  | line => exact emits_of_trace_eq (by simp [(exec_line_next e).2])
  | circle => exact emits_of_trace_eq (by simp [(exec_circle_next e).2])
  | rect => exact emits_of_trace_eq (by simp [(exec_rect_next e).2])
  | text | text2x =>
    obtain ⟨-, rfl⟩ | ⟨l, -, rfl⟩ := drawText_next (whenReady_next e).2 <;> exact emits_of_trace_eq (by simp)
  | lengthOfString =>
    obtain ⟨n, rfl⟩ := lengthWith_next e
    exact emits_of_trace_eq (completeWith_trace ..)
  | clear => exact emits_of_trace_eq (by simp [(exec_clear_next e).2])
  | draw =>
    obtain ⟨-, rfl | rfl⟩ := exec_draw_next e <;> exact emits_write (List.mem_singleton_self _) (wrote_trace ..)
  | setInverse flag =>
    obtain ⟨-, rfl | rfl⟩ := exec_setInverse_next e <;>
      exact emits_write (List.mem_singleton_self _) (wrote_trace ..)
  | _ => exact wireWrite_emits e

/-! ## Which writes these are -/

theorem encode_eq_commandBytes {j : Instr} (write : isOperation j = false) : encode j = .busWrite (commandBytes j) := by
  cases word : encode j with
  | descriptor op args => simp [isOperation, word] at write
  | busWrite bytes => simp [commandBytes, word]

theorem decode_commandBytes {j : Instr} (write : isOperation j = false) :
    decode (.busWrite (commandBytes j)) = .ok j := encode_eq_commandBytes write ▸ decode_encode j

theorem commandBytes_injective {i j : Instr} (hi : isOperation i = false) (hj : isOperation j = false)
    (same : commandBytes i = commandBytes j) : i = j :=
  encode_injective (by rw [encode_eq_commandBytes hi, encode_eq_commandBytes hj, same])

/-- A command begins with the control byte `0x00`, the frame with `0x40` (rule R55). -/
theorem commandBytes_ne_frame {j : Instr} (write : isOperation j = false) (command : j ≠ .data) (payload : List Byte) :
    commandBytes j ≠ 0x40 :: payload := by
  cases j with
  | init | home | move | plot | line | circle | rect | text | text2x | lengthOfString | clear | draw | setInverse =>
    cases write
  | data => exact absurd rfl command
  | _ => simp [commandBytes, encode]

/-- The argument bytes INIT computes from legal dimensions are in the ranges of rule R56. -/
theorem initCommands_wellFormed {w h : Int} (dims : dimsLegal w h) :
    ∀ j ∈ initCommands w h, isOperation j = false ∧ j ≠ .data ∧ j ≠ .invertdisplay ∧ j.wellFormed = true := by
  obtain ⟨w1, w128, h8, h64, hm⟩ := dims
  have multiplex : (multiplexArg h).toNat = (h - 1).toNat := by simp [multiplexArg]; omega
  have column : (lastColumnArg w).toNat = (w - 1).toNat := by simp [lastColumnArg]; omega
  have page : (lastPageArg h).toNat = (h / 8 - 1).toNat := by simp [lastPageArg]; omega
  have pins : comPinsArg h = 0x02 ∨ comPinsArg h = 0x12 := by unfold comPinsArg; split <;> simp
  have multiplexOk : (Instr.multiplex (multiplexArg h)).wellFormed = true := by
    simp only [Instr.wellFormed, multiplex, Bool.and_eq_true, decide_eq_true_eq]
    omega
  have pinsOk : (Instr.setcompins (comPinsArg h)).wellFormed = true := by simpa [Instr.wellFormed] using pins
  have columnOk : (Instr.columnaddr (lastColumnArg w)).wellFormed = true := by
    simp only [Instr.wellFormed, column, decide_eq_true_eq]
    omega
  have pageOk : (Instr.pageaddr (lastPageArg h)).wellFormed = true := by
    simp only [Instr.wellFormed, page, decide_eq_true_eq]
    omega
  simp only [initCommands, List.forall_mem_cons, multiplexOk, pinsOk, columnOk, pageOk]
  simp [isOperation, encode, Instr.wellFormed]

theorem mem_allInitWrites {w h : Int} {bytes : List Byte} (member : bytes ∈ allInitWrites w h) :
    (∃ j ∈ initCommands w h, bytes = commandBytes j) ∨ bytes = 0x40 :: List.replicate (surfaceBytes w h) 0x00 := by
  rcases List.mem_append.1 member with command | closing
  · obtain ⟨j, listed, rfl⟩ := List.mem_map.1 command
    exact .inl ⟨j, listed, rfl⟩
  · exact .inr (List.mem_singleton.1 closing)

/-- Settles O18: the writes of each operation, those of INIT with dimensions that were found legal. -/
theorem operationsEmitOnlyTheTwentyWrites : Obligations.OperationsEmitOnlyTheTwentyWrites := by
  intro i s t operation inv e
  obtain ⟨es, trace, sent⟩ := exec_emits e
  refine ⟨es, trace, fun a bytes r member => ?_⟩
  obtain ⟨address, listed⟩ := sent a bytes r member
  refine ⟨by cases i <;> exact address, ?_⟩
  cases i with
  | init addr w h =>
    rw [writesOf] at listed
    split at listed
    · rename_i dims
      rcases mem_allInitWrites listed with ⟨j, command, rfl⟩ | rfl
      · obtain ⟨write, notData, -, wellFormed⟩ := initCommands_wellFormed dims j command
        exact .inr ⟨j, notData, decode_commandBytes write, wellFormed⟩
      · exact .inl ⟨_, rfl, List.length_replicate⟩
    · cases listed
  | draw =>
    obtain rfl := List.mem_singleton.1 listed
    have session := inv.session (exec_draw_next e).1
    exact .inl ⟨_, rfl, (Memory.bytes_length _).trans session.bytes⟩
  | setInverse flag =>
    obtain rfl := List.mem_singleton.1 listed
    refine .inr ⟨polarity flag, ?_⟩
    obtain rfl | rfl := flag.eq_zero_or_eq_one <;> decide
  | home | move | plot | line | circle | rect | text | text2x | lengthOfString | clear => cases listed
  | _ => cases operation

/-- Settles O59: the bytes are among the instruction's own writes, and determine the command. -/
theorem commandsAreSentOnlyByTheirOperations : Obligations.CommandsAreSentOnlyByTheirOperations := by
  intro s t i es j a r inv e trace write notData member
  obtain ⟨es', trace', sent⟩ := exec_emits e
  obtain rfl : es = es' := List.append_cancel_left (trace.symm.trans trace')
  have listed : commandBytes j ∈ writesOf i s := (sent a _ r member).2
  have notFrame (payload : List Byte) := commandBytes_ne_frame write notData payload
  cases kind : isOperation i with
  | false =>
    rw [exec_wireWrite kind] at e
    rw [(writesOf_wireWrite kind s).1, List.mem_singleton] at listed
    obtain ⟨-, rfl | rfl | rfl⟩ := inv.emitted (wireWrite_next e).1
    · exact .inl ⟨commandBytes_injective write kind listed, .inr rfl⟩
    · exact .inr (.inl ⟨commandBytes_injective write kind listed, .inr rfl⟩)
    · exact absurd listed (notFrame _)
  | true =>
    cases i with
    | init addr w h =>
      refine .inr (.inr ⟨?_, addr, w, h, rfl⟩)
      rw [writesOf] at listed
      split at listed
      · rename_i dims
        rcases mem_allInitWrites listed with ⟨k, command, same⟩ | closing
        · obtain ⟨write', -, other, -⟩ := initCommands_wellFormed dims k command
          exact commandBytes_injective write write' same ▸ other
        · exact absurd closing (notFrame _)
      · cases listed
    | draw => exact absurd (List.mem_singleton.1 listed) (notFrame _)
    | setInverse flag =>
      have same := List.mem_singleton.1 listed
      obtain rfl | rfl := flag.eq_zero_or_eq_one
      · exact .inl ⟨commandBytes_injective write rfl same, .inl rfl⟩
      · exact .inr (.inl ⟨commandBytes_injective write rfl same, .inl rfl⟩)
    | home | move | plot | line | circle | rect | text | text2x | lengthOfString | clear => cases listed
    | _ => cases kind

end Sys2Proof.Machine

/-! # What an instruction delivers (60_exceptions.md)

For every instruction, in every state, the status it ends with; a bus write by itself may deliver none. -/

namespace Sys2Proof.Machine

/-- The statuses an instruction can end with, also in a state that does not meet the invariant. -/
def statusesOf : Instr → List Status
  | .init _ _ _ => [.ok, .raised .configurationError, .raised .busError]
  | .home | .move _ _ => [.ok, .raised .outOfRange]
  | .text codes _ | .text2x codes _ => if codes = [] then [.raised .invalidArgument] else [.ok]
  | .plot _ _ _ | .line _ _ _ _ _ _ | .circle _ _ _ _ _ | .rect _ _ _ _ _ _ | .lengthOfString _ | .clear => [.ok]
  | .draw | .setInverse _ => [.ok, .raised .busError]
  | _ => [.raised .busError]

@[simp] theorem failWrite_replies (s : State) :
    (failWrite s).replies = s.replies ++ [{ status := .raised .busError, value := none }] := by
  unfold failWrite
  split <;> rfl

theorem wireWrite_next_replies {i : Instr} {s t : State} (e : wireWrite i s = .next t) :
    t.replies = s.replies ∨ s.Delivers [.raised .busError] t := by
  obtain ⟨-, rfl | rfl⟩ := wireWrite_next e
  · exact .inl (wrote_replies ..)
  · exact .inr ⟨_, List.mem_singleton_self _, failWrite_replies _⟩

/-- Every instruction delivers at most one reply, with a status of its own. -/
theorem exec_next_replies {i : Instr} {s t : State} (e : exec i s = .next t) :
    t.replies = s.replies ∨ ∃ status ∈ statusesOf i, ∃ v, t.replies = s.replies ++ [⟨status, v⟩] := by
  have one {statuses : List Status} (delivers : s.Delivers statuses t) :
      t.replies = s.replies ∨ ∃ status ∈ statuses, ∃ v, t.replies = s.replies ++ [⟨status, v⟩] := by
    obtain ⟨status, own, replies⟩ := delivers
    exact .inr ⟨status, own, none, replies⟩
  cases i with
  | init addr w h => exact one (execInit_next_delivers e)
  | home => exact one (whenReady_next_delivers e fun _ => moveTo_delivers s 0 0)
  | move x y => exact one (whenReady_next_delivers e fun _ => moveTo_delivers s x y)
  | plot x y color => exact one (drawOperation_next_delivers (ps := [(x, y)]) e)
  | line | circle => exact one (drawOperation_next_delivers e)
  | rect x y w h color filled =>
    exact one (whenReady_complete_delivers (f := drawRect x y w h color filled) e (drawRect_replies ..))
  | text | text2x => exact one (drawText_next_delivers (whenReady_next e).2)
  | lengthOfString codes =>
    obtain ⟨n, rfl⟩ := lengthWith_next e
    exact .inr ⟨.ok, List.mem_singleton_self _, some n, rfl⟩
  | clear => exact one (whenReady_complete_delivers (f := clearFramebuffer) e (clearFramebuffer_replies s))
  | draw | setInverse => exact one (writeOperation_next_delivers (whenReady_next e).2)
  | _ =>
    rcases wireWrite_next_replies e with silent | delivers
    · exact .inl silent
    · exact one delivers

/-- A step waits, or takes a request that decodes and runs it (rules R17, R41). -/
theorem step_next {s t : State} (e : step s = .next t) :
    t = s ∨ ∃ r rest i, s.requests = r :: rest ∧ decode r.word = .ok i ∧
      exec i { s with requests := rest } = .next t := by
  cases requests : s.requests with
  | nil => exact .inl (by simpa [step, requests] using e.symm)
  | cons r rest =>
    cases decoded : decode r.word with
    | ok i => exact .inr ⟨r, rest, i, rfl, decoded, step_decoded requests decoded ▸ e⟩
    | error d => simp [step_undecoded requests decoded] at e

/-- Settles O16: the trace grows by what the instruction sends, the replies by what it delivers. -/
theorem stepsOnlyAppendToTraceAndReplies : Obligations.StepsOnlyAppendToTraceAndReplies := by
  intro s t e
  obtain rfl | ⟨r, rest, i, -, -, e⟩ := step_next e
  · exact ⟨⟨[], List.append_nil _⟩, ⟨[], List.append_nil _⟩⟩
  · obtain ⟨es, trace, -⟩ := exec_emits e
    refine ⟨⟨es, trace.symm⟩, ?_⟩
    obtain same | ⟨status, -, v, replies⟩ := exec_next_replies e
    · exact ⟨[], by simpa using same.symm⟩
    · exact ⟨_, replies.symm⟩

/-- Only the empty string is answered with `InvalidArgument` (rule R164). -/
theorem invalidArgument_mem_statusesOf {i : Instr} (h : .raised .invalidArgument ∈ statusesOf i) :
    ∃ v, i = .text [] v ∨ i = .text2x [] v := by
  cases i with
  | text codes v | text2x codes v =>
    by_cases empty : codes = []
    · exact ⟨v, by simp [empty]⟩
    · simp [statusesOf, empty] at h
  | _ => simp [statusesOf] at h

/-- Settles O42: the branch of the empty string; a reply with `InvalidArgument` is one of the instruction's own. -/
theorem emptyStrings : Obligations.EmptyStrings := by
  refine ⟨fun s v ready => ⟨textWith_ready ready .., text2xWith_ready ready ..,
    lengthWith_ready_some ready (table := Config.glyph) (codes := []) rfl⟩, fun i s t x e replies => ?_⟩
  obtain same | ⟨status, own, v, replies'⟩ := exec_next_replies e
  · simp [same] at replies
  · obtain ⟨rfl, -⟩ : status = .raised .invalidArgument ∧ v = x := by simpa [replies] using replies'.symm
    exact invalidArgument_mem_statusesOf own

end Sys2Proof.Machine

/-! # The session state and the access table (10_state.md section 8, 42_session.md section 1) -/

namespace Sys2Proof.Machine

/-! ## What each way to end leaves alone -/

/-- MOVE and HOME write the cursor only. -/
theorem moveTo_frame (x y : Int) (s : State) :
    s.SameSession (moveTo x y s) ∧ (moveTo x y s).fb = s.fb ∧ s.Silent (moveTo x y s) := by
  by_cases target : inSurface s.w s.h (x, y)
  · rw [moveTo_onSurface target]
    exact ⟨⟨rfl, rfl, rfl, rfl, rfl, rfl⟩, rfl, ⟨rfl, rfl, rfl⟩⟩
  · rw [moveTo_offSurface target]
    exact ⟨⟨rfl, rfl, rfl, rfl, rfl, rfl⟩, rfl, ⟨rfl, rfl, rfl⟩⟩

/-- Text writes the cursor and the framebuffer only. -/
theorem complete_placeText_frame (l : Layout) (s : State) :
    s.SameSession (complete (placeText l s)) ∧ s.Silent (complete (placeText l s)) ∧
      s.EndsOk (complete (placeText l s)) := by
  rw [placeText_frame]
  exact ⟨⟨rfl, rfl, rfl, rfl, rfl, rfl⟩, ⟨rfl, rfl, rfl⟩, ⟨rfl, rfl⟩⟩

/-- The registers and the framebuffer are as they were. -/
structure State.SameBlock (s t : State) : Prop where
  session : s.SameSession t
  cursor  : s.SameCursor t
  fb      : t.fb = s.fb

theorem completeWith_sameBlock (v : Option Int) (s : State) : s.SameBlock (completeWith v s) :=
  ⟨⟨rfl, rfl, rfl, rfl, rfl, rfl⟩, ⟨rfl, rfl⟩, rfl⟩

theorem raise_sameBlock (c : Condition) (s : State) : s.SameBlock (raise c s) :=
  ⟨⟨rfl, rfl, rfl, rfl, rfl, rfl⟩, ⟨rfl, rfl⟩, rfl⟩

theorem wrote_sameBlock (bytes : List Byte) (r : BusResult) (s : State) : s.SameBlock (wrote bytes r s) :=
  ⟨⟨rfl, rfl, rfl, rfl, rfl, rfl⟩, ⟨rfl, rfl⟩, rfl⟩

theorem complete_wrote_sameBlock (bytes : List Byte) (s : State) : s.SameBlock (complete (wrote bytes .ok s)) :=
  ⟨⟨rfl, rfl, rfl, rfl, rfl, rfl⟩, ⟨rfl, rfl⟩, rfl⟩

theorem raise_wrote_sameBlock (c : Condition) (bytes : List Byte) (s : State) :
    s.SameBlock (raise c (wrote bytes .err s)) := ⟨⟨rfl, rfl, rfl, rfl, rfl, rfl⟩, ⟨rfl, rfl⟩, rfl⟩

theorem exec_draw_sameBlock {s t : State} (e : exec .draw s = .next t) : s.SameBlock t := by
  obtain ⟨-, rfl | rfl⟩ := exec_draw_next e
  · exact complete_wrote_sameBlock ..
  · exact raise_wrote_sameBlock ..

theorem exec_setInverse_sameBlock {flag : Bit} {s t : State} (e : exec (.setInverse flag) s = .next t) :
    s.SameBlock t := by
  obtain ⟨-, rfl | rfl⟩ := exec_setInverse_next e
  · exact complete_wrote_sameBlock ..
  · exact raise_wrote_sameBlock ..

/-- In `Ready` a bus write by itself changes nothing of the block, whatever the answer. -/
theorem wireWrite_sameBlock {i : Instr} {s t : State} (ready : s.st = .ready) (e : wireWrite i s = .next t) :
    s.SameBlock t := by
  obtain ⟨-, rfl | rfl⟩ := wireWrite_next e
  · exact wrote_sameBlock ..
  · rw [failWrite_ready (s := wrote _ _ s) ready]
    exact raise_wrote_sameBlock ..

section
variable {s t : State}

theorem exec_plot_drawingFrame {x y : Int} {c : Bit} (e : exec (.plot x y c) s = .next t) : s.DrawingFrame t := by
  obtain ⟨only, size, -⟩ := plotPixel_frame c s (x, y)
  exact (exec_plot_next e).2 ▸ complete_drawingFrame only size

theorem exec_line_drawingFrame {a b d f k : Int} {c : Bit} (e : exec (.line a b d f k c) s = .next t) :
    s.DrawingFrame t := by
  obtain ⟨only, size, -⟩ := drawPixels_frame (linePixels Config.lineRoundsUp a b d f k) c s
  exact (exec_line_next e).2 ▸ complete_drawingFrame only size

theorem exec_circle_drawingFrame {a b r : Int} {c f : Bit} (e : exec (.circle a b r c f) s = .next t) :
    s.DrawingFrame t := by
  obtain ⟨only, size, -⟩ := drawPixels_frame (circlePixels Config.sin Config.cos Config.circleTieUp a b r f) c s
  exact (exec_circle_next e).2 ▸ complete_drawingFrame only size

theorem exec_rect_drawingFrame {x y w h : Int} {c f : Bit} (e : exec (.rect x y w h c f) s = .next t) :
    s.DrawingFrame t := by
  obtain ⟨only, size⟩ := drawRect_frame x y w h c f s
  exact (exec_rect_next e).2 ▸ complete_drawingFrame only size

theorem exec_clear_drawingFrame (e : exec .clear s = .next t) : s.DrawingFrame t :=
  (exec_clear_next e).2 ▸ complete_drawingFrame (t := clearFramebuffer s) rfl rfl

end

/-- Settles O15: each operation by what its way to end leaves alone. -/
theorem readyAccessTable : Obligations.ReadyAccessTable := by
  intro i s t ready e
  cases i with
  | init addr w h => cases (execInit_refused (by simp [ready]) addr w h).symm.trans e
  | home =>
    obtain ⟨session, fb, silent⟩ := moveTo_frame 0 0 s
    exact (exec_home_next e).2 ▸ ⟨session, by simp, fun _ => fb, fun _ => silent⟩
  | move x y =>
    obtain ⟨session, fb, silent⟩ := moveTo_frame x y s
    exact (exec_move_next e).2 ▸ ⟨session, by simp, fun _ => fb, fun _ => silent⟩
  | plot =>
    have frame := exec_plot_drawingFrame e
    exact ⟨frame.session, fun _ => frame.cursor, by simp, fun _ => frame.silent⟩
  | line =>
    have frame := exec_line_drawingFrame e
    exact ⟨frame.session, fun _ => frame.cursor, by simp, fun _ => frame.silent⟩
  | circle =>
    have frame := exec_circle_drawingFrame e
    exact ⟨frame.session, fun _ => frame.cursor, by simp, fun _ => frame.silent⟩
  | rect =>
    have frame := exec_rect_drawingFrame e
    exact ⟨frame.session, fun _ => frame.cursor, by simp, fun _ => frame.silent⟩
  | clear =>
    have frame := exec_clear_drawingFrame e
    exact ⟨frame.session, fun _ => frame.cursor, by simp, fun _ => frame.silent⟩
  | text | text2x =>
    obtain ⟨-, rfl⟩ | ⟨l, -, rfl⟩ := drawText_next (whenReady_next e).2
    · exact ⟨(raise_sameBlock ..).session, by simp, by simp, fun _ => ⟨rfl, rfl, rfl⟩⟩
    · obtain ⟨session, silent, -⟩ := complete_placeText_frame l s
      exact ⟨session, by simp, by simp, fun _ => silent⟩
  | lengthOfString =>
    obtain ⟨n, rfl⟩ := lengthWith_next e
    obtain ⟨session, cursor, fb⟩ := completeWith_sameBlock (some n) s
    exact ⟨session, fun _ => cursor, fun _ => fb, fun _ => ⟨rfl, rfl, rfl⟩⟩
  | draw =>
    obtain ⟨session, cursor, fb⟩ := exec_draw_sameBlock e
    exact ⟨session, fun _ => cursor, fun _ => fb, by simp⟩
  | setInverse =>
    obtain ⟨session, cursor, fb⟩ := exec_setInverse_sameBlock e
    exact ⟨session, fun _ => cursor, fun _ => fb, by simp⟩
  | _ =>
    obtain ⟨session, cursor, fb⟩ := wireWrite_sameBlock ready e
    exact ⟨session, fun _ => cursor, fun _ => fb, by simp [isOperation, encode]⟩

/-- Settles O13: in `Ready` by the access table; from `Uninitialized` only INIT runs, and by the invariant it ends in
`Uninitialized` or `Ready`. -/
theorem sessionStateMovesOnlyByInit : Obligations.SessionStateMovesOnlyByInit := by
  intro s t inv e
  have settled := ((step_nextInv inv).inv e).settled
  obtain rfl | ⟨r, rest, i, requests, decoded, e⟩ := step_next e
  · exact ⟨id, .inl⟩
  · refine ⟨fun ready => (readyAccessTable i { s with requests := rest } t ready e).1.st.trans ready, fun un => ?_⟩
    obtain ⟨addr, w, h, rfl⟩ := init_of_exec_next (s := { s with requests := rest }) un e
    cases st : t.st with
    | uninitialized => exact .inl rfl
    | initializing => exact absurd st settled
    | ready =>
      obtain ⟨u, opened, rfl⟩ := execInit_next_ready e st
      exact .inr ⟨rfl, by simp [opened], r, rest, addr, w, h, requests, decoded⟩

/-! ## A transport that answers (70_reset_and_hazards.md section 3) -/

/-- The outcome is no fault, and its next state, where it has one, still has a transport that answers. -/
def NextAnswering : Host.Outcome State Fault Refusal → Prop
  | .next t => t.Answering
  | .fault _ => False
  | .refused _ => True

theorem whenReady_answering {s : State} {run : State → Host.Outcome State Fault Refusal} (h : NextAnswering (run s)) :
    NextAnswering (whenReady s run) := by
  unfold whenReady
  split
  · exact h
  · trivial

theorem whenReady_next_answering {s : State} {f : State → State} (h : (f s).Answering) :
    NextAnswering (whenReady s fun s => .next (f s)) := whenReady_answering h

theorem State.Answering.of_answers {s t : State} (answering : s.Answering) (same : t.answers = s.answers) :
    t.Answering := by
  rwa [State.Answering, same]

theorem wrote_answering {s : State} (answering : s.Answering) (bytes : List Byte) (r : BusResult) :
    (wrote bytes r s).Answering := fun a member => answering a (List.mem_of_mem_tail member)

@[simp] theorem failWrite_answers (s : State) : (failWrite s).answers = s.answers := by
  unfold failWrite
  split <;> rfl

@[simp] theorem moveTo_answers (x y : Int) (s : State) : (moveTo x y s).answers = s.answers :=
  (moveTo_frame x y s).2.2.answers

@[simp] theorem drawRect_answers (x y w h : Int) (color filled : Bit) (s : State) :
    (drawRect x y w h color filled s).answers = s.answers := by rw [(drawRect_frame x y w h color filled s).1]

@[simp] theorem placeText_answers (l : Layout) (s : State) : (placeText l s).answers = s.answers := by
  rw [placeText_frame]

section
variable {s : State} (answering : s.Answering)
include answering

theorem writeOperation_answering (bytes : List Byte) : NextAnswering (writeOperation bytes s) := by
  obtain ⟨r, e⟩ := busWrite_answering answering bytes
  rw [writeOperation, e]
  cases r with
  | ok => exact wrote_answering answering bytes .ok
  | err => exact wrote_answering answering bytes .err

theorem wireWrite_answering (i : Instr) : NextAnswering (wireWrite i s) := by
  unfold wireWrite
  split
  · trivial
  · split
    · obtain ⟨r, e⟩ := busWrite_answering answering (writeBytes i s)
      rw [e]
      have answering' := wrote_answering answering (writeBytes i s) r
      cases r with
      | ok => exact answering'
      | err => exact answering'.of_answers (failWrite_answers _)
    · trivial

theorem drawText_answering (size : TextSize) (table : Fin 96 → List Byte) (codes : List Int) (wrap : Bit) :
    NextAnswering (drawText size table codes wrap s) := by
  rcases drawText_cases size table codes wrap s with ⟨-, e⟩ | ⟨-, e⟩ | ⟨gs, -, -, e⟩ <;> rw [e]
  · trivial
  · exact answering
  · exact answering.of_answers (placeText_answers _ s)

theorem lengthWith_answering (table : Fin 96 → List Byte) (codes : List Int) :
    NextAnswering (lengthWith table codes s) := by
  refine whenReady_answering ?_
  cases glyphsOf table codes with
  | none => trivial
  | some gs => exact answering

theorem firstFrame_answering : NextAnswering (firstFrame s) := by
  obtain ⟨r, e⟩ := busWrite_answering answering (frame s)
  have answering' := wrote_answering answering (frame s) r
  rw [firstFrame, e]
  cases r with
  | ok => exact answering'
  | err => exact answering'.of_answers (failWrite_answers _)

theorem construct_answering : NextAnswering (construct s) := by
  obtain ⟨r, t, e, answering'⟩ := sendAll_answering (answering.of_answers (resetPulse_answers s)) (initWrites s.w s.h)
  rw [construct, e]
  cases r with
  | ok => exact firstFrame_answering (s := clearFramebuffer t) answering'
  | err => exact answering'.of_answers (failWrite_answers t)

theorem execInit_answering (addr w h : Int) : NextAnswering (execInit addr w h s) := by
  unfold execInit
  split
  · split
    · exact construct_answering (s := openSession addr w h { s with st := .initializing }) answering
    · exact answering
  · trivial

/-- Only a write the script leaves unanswered faults (log entry 9). -/
theorem exec_answering (i : Instr) : NextAnswering (exec i s) := by
  cases i with
  | init addr w h => exact execInit_answering answering addr w h
  | home => exact whenReady_next_answering (answering.of_answers (moveTo_answers ..))
  | move => exact whenReady_next_answering (answering.of_answers (moveTo_answers ..))
  | plot x y c =>
    exact whenReady_next_answering (f := fun s => complete (plotPixel c s (x, y)))
      (answering.of_answers (plotPixel_answers ..))
  | line | circle =>
    exact whenReady_next_answering (f := fun s => complete (drawPixels _ _ s))
      (answering.of_answers (drawPixels_answers ..))
  | rect x y w h c f =>
    exact whenReady_next_answering (f := fun s => complete (drawRect x y w h c f s))
      (answering.of_answers (drawRect_answers ..))
  | text | text2x => exact whenReady_answering (drawText_answering answering ..)
  | lengthOfString codes => exact lengthWith_answering answering _ codes
  | clear => exact whenReady_next_answering (f := fun s => complete (clearFramebuffer s)) answering
  | draw | setInverse => exact whenReady_answering (writeOperation_answering answering _)
  | _ => exact wireWrite_answering answering _

theorem step_answering : NextAnswering (step s) := by
  cases requests : s.requests with
  | nil =>
    rw [stepRunsTheDecodedRequest.2 s requests]
    exact answering
  | cons r rest =>
    cases decoded : decode r.word with
    | ok i =>
      rw [step_decoded requests decoded]
      exact exec_answering (s := { s with requests := rest }) answering i
    | error d =>
      rw [step_undecoded requests decoded]
      trivial

end

/-- Settles O14: by induction on the number of steps, each of which leaves a transport that answers. -/
theorem answeredRunsNeverFault : Obligations.AnsweredRunsNeverFault := by
  intro k
  induction k with
  | zero => exact fun _ _ => trivial
  | succ k ih =>
    intro s answering
    have next := step_answering answering
    unfold State.Safe
    cases e : step s with
    | next t =>
      rw [e] at next
      exact ih t next
    | fault r =>
      rw [e] at next
      exact next
    | refused r => trivial

end Sys2Proof.Machine

/-! # The framebuffer steers nothing (20_memory.md section 4)

A change of the state is blind when another framebuffer in its place makes no difference but to the framebuffer. -/

namespace Sys2Proof.Machine

/-- `f` does with another framebuffer what it does with the state's own, the framebuffer excepted. -/
def Blind (f : State → State) : Prop := ∀ (s : State) (m : Memory), ∃ m', f { s with fb := m } = { f s with fb := m' }

/-- What changes the framebuffer only is blind. -/
theorem blind_of_only_fb {f : State → State} (only : ∀ s, f s = { s with fb := (f s).fb }) : Blind f := by
  intro s m
  refine ⟨(f { s with fb := m }).fb, ?_⟩
  rw [only { s with fb := m }, only s]

theorem Blind.comp {f g : State → State} (hg : Blind g) (hf : Blind f) : Blind fun s => g (f s) := by
  intro s m
  obtain ⟨m', e⟩ := hf s m
  obtain ⟨m'', e'⟩ := hg (f s) m'
  exact ⟨m'', (congrArg g e).trans e'⟩

theorem completeWith_blind (v : Option Int) : Blind (completeWith v) := fun _ m => ⟨m, rfl⟩

theorem complete_blind : Blind complete := completeWith_blind none

theorem raise_blind (c : Condition) : Blind (raise c) := fun _ m => ⟨m, rfl⟩

theorem plotPixel_blind (c : Bit) (p : Pixel) : Blind fun s => plotPixel c s p :=
  blind_of_only_fb fun s => (plotPixel_frame c s p).1

theorem drawPixels_blind (ps : List Pixel) (c : Bit) : Blind (drawPixels ps c) :=
  blind_of_only_fb fun s => (drawPixels_frame ps c s).1

theorem drawRect_blind (x y w h : Int) (c f : Bit) : Blind (drawRect x y w h c f) :=
  blind_of_only_fb fun s => (drawRect_frame x y w h c f s).1

theorem clearFramebuffer_blind : Blind clearFramebuffer := blind_of_only_fb fun _ => rfl

/-- The bounds test of MOVE does not read the framebuffer. -/
theorem moveTo_blind (x y : Int) : Blind (moveTo x y) := by
  intro s m
  refine ⟨m, ?_⟩
  unfold moveTo
  by_cases target : inSurface s.w s.h (x, y)
  · rw [if_pos target, if_pos target]
    rfl
  · rw [if_neg target, if_neg target]
    rfl

/-- Nor does the layout of a text. -/
theorem placeText_blind (size : TextSize) (wrap : Bit) (gs : List (List Byte)) :
    Blind fun s => placeText (layout size s.w s.h wrap gs s.cx s.cy) s := by
  intro s m
  refine ⟨(drawPixels (layout size s.w s.h wrap gs s.cx s.cy).pixels 1 { s with fb := m }).fb, ?_⟩
  simp only [placeText_frame]

/-- During INIT a failed write discards the framebuffer; in `Ready` it leaves it. -/
theorem failWrite_blind : Blind failWrite := by
  intro s m
  unfold failWrite
  by_cases initializing : s.st = .initializing
  · rw [if_pos initializing, if_pos initializing]
    exact ⟨Memory.absent, rfl⟩
  · rw [if_neg initializing, if_neg initializing]
    exact ⟨m, rfl⟩

/-- The transport does not see the framebuffer, only the bytes. -/
theorem busWrite_blind (bytes : List Byte) (s : State) (m : Memory) :
    busWrite bytes { s with fb := m } = (busWrite bytes s).map fun (r, t) => (r, { t with fb := m }) := by
  unfold busWrite takeAnswer
  cases s.answers with
  | nil => rfl
  | cons a rest =>
    cases a with
    | answered r => rfl
    | silent => rfl

/-! ## Outcomes -/

/-- The same for a meaning: where it gives a next state, it gives one that differs in the framebuffer alone. -/
def BlindOutcome (run : State → Host.Outcome State Fault Refusal) : Prop :=
  ∀ (s t : State) (m : Memory), run s = .next t → ∃ m', run { s with fb := m } = .next { t with fb := m' }

theorem Blind.outcome {f : State → State} (blind : Blind f) : BlindOutcome fun s => .next (f s) := by
  rintro s t m ⟨⟩
  obtain ⟨m', e⟩ := blind s m
  exact ⟨m', congrArg _ e⟩

theorem whenReady_blind {run : State → Host.Outcome State Fault Refusal} (blind : BlindOutcome run) :
    BlindOutcome fun s => whenReady s run := by
  intro s t m e
  obtain ⟨ready, e⟩ := whenReady_next e
  obtain ⟨m', e'⟩ := blind s t m e
  exact ⟨m', (if_pos ready).trans e'⟩

theorem whenReady_next_blind {f : State → State} (blind : Blind f) :
    BlindOutcome fun s => whenReady s fun s => .next (f s) := whenReady_blind blind.outcome

theorem writeOperation_blind (bytes : List Byte) : BlindOutcome (writeOperation bytes) := by
  intro s t m e
  refine ⟨m, ?_⟩
  unfold writeOperation at e ⊢
  rw [busWrite_blind]
  rcases busWrite_cases bytes s with ⟨r, -, e'⟩ | ⟨-, e'⟩ <;> rw [e'] at e ⊢
  · cases r <;> cases e <;> rfl
  · cases e

theorem drawText_blind (size : TextSize) (table : Fin 96 → List Byte) (codes : List Int) (wrap : Bit) :
    BlindOutcome (drawText size table codes wrap) := by
  unfold drawText
  cases glyphsOf table codes with
  | none => rintro s t m ⟨⟩
  | some gs =>
    cases gs with
    | nil => exact (raise_blind .invalidArgument).outcome
    | cons g gs => exact (complete_blind.comp (placeText_blind size wrap (g :: gs))).outcome

theorem lengthWith_blind (table : Fin 96 → List Byte) (codes : List Int) : BlindOutcome (lengthWith table codes) := by
  refine whenReady_blind ?_
  cases glyphsOf table codes with
  | none => rintro s t m ⟨⟩
  | some gs => exact (completeWith_blind _).outcome

/-- INIT allocates its framebuffer, so it never reads the one before (rule R111). -/
theorem execInit_blind (addr w h : Int) : BlindOutcome (exec (.init addr w h)) := by
  intro s t m e
  by_cases un : s.st = .uninitialized
  · by_cases legal : addrLegal addr ∧ dimsLegal w h
    · exact ⟨t.fb, (exec_init_legal (s := { s with fb := m }) un legal.1 legal.2).trans
        ((exec_init_legal un legal.1 legal.2).symm.trans e)⟩
    · rw [exec_init_illegal un legal] at e
      cases e
      exact ⟨m, exec_init_illegal (s := { s with fb := m }) un legal⟩
  · cases (execInit_refused un addr w h).symm.trans e

/-- The bytes of a bus write other than DATA are constants of its encoding. -/
theorem wireWrite_blind {i : Instr} (command : i ≠ .data) : BlindOutcome (wireWrite i) := by
  intro s t m e
  unfold wireWrite at e ⊢
  split at e
  · cases e
  · rename_i session
    split at e
    · rename_i emitted
      rw [if_neg session, if_pos emitted]
      simp only [writeBytes, if_neg command, busWrite_blind] at e ⊢
      rcases busWrite_cases (commandBytes i) s with ⟨r, -, e'⟩ | ⟨-, e'⟩ <;> rw [e'] at e ⊢
      · cases r <;> cases e
        · exact ⟨m, rfl⟩
        · obtain ⟨m', e''⟩ := failWrite_blind (wrote (commandBytes i) .err s) m
          exact ⟨m', congrArg _ e''⟩
      · cases e
    · cases e

theorem exec_blind {i : Instr} (draw : i ≠ .draw) (data : i ≠ .data) : BlindOutcome (exec i) := by
  cases i with
  | init addr w h => exact execInit_blind addr w h
  | home => exact whenReady_next_blind (moveTo_blind 0 0)
  | move x y => exact whenReady_next_blind (moveTo_blind x y)
  | plot x y c => exact whenReady_next_blind (complete_blind.comp (plotPixel_blind c (x, y)))
  | line | circle => exact whenReady_next_blind (complete_blind.comp (drawPixels_blind _ _))
  | rect x y w h c f => exact whenReady_next_blind (complete_blind.comp (drawRect_blind x y w h c f))
  | text codes wrap => exact whenReady_blind (drawText_blind singleSize Config.glyph codes wrap)
  | text2x codes wrap => exact whenReady_blind (drawText_blind (doubleSize Config.smoothExtra) Config.glyph codes wrap)
  | lengthOfString codes => exact lengthWith_blind Config.glyph codes
  | clear => exact whenReady_next_blind (complete_blind.comp clearFramebuffer_blind)
  | setInverse => exact whenReady_blind (writeOperation_blind _)
  | draw => exact absurd rfl draw
  | data => exact absurd rfl data
  | _ => exact wireWrite_blind (by simp)

/-- Settles O19: every meaning but DRAW's and DATA's is blind. -/
theorem framebufferNeverSteersTheBlock : Obligations.FramebufferNeverSteersTheBlock :=
  fun _ s t m draw data e => exec_blind draw data s t m e

end Sys2Proof.Machine

/-! # Writes by their answers (42_session.md, 43_wire_protocol.md, 60_exceptions.md rule R168)

What DRAW, SET_INVERSE, a bus write by itself and INIT do when the answers they get are given. -/

namespace Sys2Proof.Machine

/-! ## One write -/

section
variable {s : State} {r : BusResult}

theorem busWrite_answered (answer : (takeAnswer s).1 = .answered r) (bytes : List Byte) :
    busWrite bytes s = some (r, wrote bytes r s) := by
  rcases busWrite_cases bytes s with ⟨r', answer', e⟩ | ⟨silent, -⟩
  · obtain rfl : r = r' := Answer.answered.inj (answer.symm.trans answer')
    exact e
  · cases answer.symm.trans silent

theorem writeOperation_answered (answer : (takeAnswer s).1 = .answered r) (bytes : List Byte) :
    writeOperation bytes s = .next (finishWrite r (wrote bytes r s)) := by
  rw [writeOperation, busWrite_answered answer]

/-- How an operation with one write leaves the block and the host, by the answer (D14). -/
theorem finishWrite_frame (bytes : List Byte) (r : BusResult) (s : State) :
    s.SameBlock (finishWrite r (wrote bytes r s)) ∧
      (finishWrite r (wrote bytes r s)).trace = s.trace ++ [.busWrite s.addr bytes r] ∧
      (finishWrite r (wrote bytes r s)).answers = s.answers.tail ∧
      (r = .ok → s.EndsOk (finishWrite r (wrote bytes r s))) ∧
      (r = .err → s.EndsWith .busError (finishWrite r (wrote bytes r s))) := by
  cases r with
  | ok => exact ⟨complete_wrote_sameBlock .., rfl, rfl, fun _ => ⟨rfl, rfl⟩, by simp⟩
  | err => exact ⟨raise_wrote_sameBlock .., rfl, rfl, by simp, fun _ => ⟨rfl, rfl⟩⟩

end

/-- Settles O49: one write of the frame, by its answer. -/
theorem drawResult : Obligations.DrawResult := by
  intro s r inv ready answer
  obtain ⟨⟨session, cursor, fb⟩, trace, answers, ok, err⟩ := finishWrite_frame (frame s) r s
  obtain ⟨length, control, payload⟩ := frame_layout (inv.session ready).bytes
  exact ⟨_, frame s, (exec_draw_ready ready).trans (writeOperation_answered answer _), length, control, payload, trace,
    answers, session, cursor, fb, ok, err⟩

theorem commandBytes_polarity (flag : Bit) :
    commandBytes (polarity flag) = if flag = 1 then [0x00, 0xA7] else [0x00, 0xA6] := by
  rw [polarity, apply_ite commandBytes]
  rfl

/-- Settles O50: one write of the polarity command, by its answer. -/
theorem setInverseResult : Obligations.SetInverseResult := by
  intro s flag r ready answer
  rw [← commandBytes_polarity]
  obtain ⟨⟨session, cursor, fb⟩, trace, answers, ok, err⟩ := finishWrite_frame (commandBytes (polarity flag)) r s
  refine ⟨_, ?_, trace, answers, session, cursor, fb, ok, err⟩
  rw [exec_setInverse_eq, whenReady, if_pos ready, writeOperation_answered answer]

/-! ## A bus write by itself -/

/-- `State.Makes` is what `emittedIn` decides. -/
theorem State.Makes.emitted {s : State} {i : Instr} (makes : s.Makes i) : emittedIn s.st i = true := by
  obtain ⟨-, ⟨st, other⟩ | ⟨st, made⟩⟩ := makes
  · simpa [st, emittedIn] using other
  · simpa [st, emittedIn] using made

theorem exec_made {s : State} {i : Instr} {r : BusResult} (makes : s.Makes i)
    (answer : (takeAnswer s).1 = .answered r) : exec i s = .next (afterWrite r (wrote (writeBytes i s) r s)) := by
  rw [exec_wireWrite makes.1, wireWrite_answered makes.emitted answer]

/-- The frame is the one list of bytes with the layout of rule R150. -/
theorem eq_frame {s : State} {bytes : List Byte} (control : bytes[0]? = some 0x40)
    (length : bytes.length = s.fb.size + 1) (payload : ∀ a, a < s.fb.size → bytes[a + 1]? = s.fb.read a) :
    bytes = frame s := by
  obtain ⟨length', control', payload'⟩ := frame_layout (s := s) rfl
  refine List.ext_getElem? fun n => ?_
  cases n with
  | zero => rw [control, control']
  | succ a =>
    by_cases inside : a < s.fb.size
    · rw [payload a inside, payload' a inside]
    · rw [List.getElem?_eq_none (by omega), List.getElem?_eq_none (by omega)]

/-- Settles O55: the bytes of each rule are those of the encoder, and of the frame for DATA. -/
theorem eachBusWriteSendsItsBytes : Obligations.EachBusWriteSendsItsBytes := by
  intro s i bytes makes answer rule
  have same : bytes = writeBytes i s := by
    cases i with
    | init | home | move | plot | line | circle | rect | text | text2x | lengthOfString | clear | draw | setInverse =>
      exact rule.elim
    | data => exact eq_frame rule.1 rule.2.1 rule.2.2
    | _ => exact rule
  rw [exec_made makes answer, same]
  rfl

/-- Settles O56: `failWrite` in the two session states in which the block writes. -/
theorem failedBusWriteEndsTheOperation : Obligations.FailedBusWriteEndsTheOperation := by
  intro s i makes answer
  refine ⟨_, exec_made makes answer, by simp [afterWrite, writeBytes], ?_⟩
  obtain ⟨-, ⟨st, -⟩ | ⟨st, -⟩⟩ := makes
  · rw [afterWrite, failWrite_initializing (s := wrote _ _ s) st]
    exact ⟨rfl, ⟨rfl, rfl⟩, by simp [st], fun _ => ⟨rfl, rfl, Memory.read_absent⟩⟩
  · rw [afterWrite, failWrite_ready (s := wrote _ _ s) st]
    obtain ⟨session, cursor, fb⟩ := raise_wrote_sameBlock .busError (writeBytes i s) s
    exact ⟨rfl, ⟨rfl, rfl⟩, fun _ => ⟨session, cursor, fb⟩, by simp [st]⟩

/-! ## INIT -/

section
variable {s : State} {rest : List Answer}

/-- The 18 commands answered `ok`: what follows answers the frame. -/
theorem construct_commands_ok (h : s.answers = List.replicate 18 (.answered .ok) ++ rest) :
    construct s = firstFrame (configured s) ∧ (configured s).answers = rest := by
  refine ⟨?_, by simp [h]⟩
  rw [construct, sendAll_ok (ws := initWrites s.w s.h) (s := resetPulse s) (rest := rest) h]
  rfl

/-- All 19 writes answered `ok`. -/
theorem construct_ok (h : s.answers = List.replicate 19 (.answered .ok) ++ rest) :
    construct s = .next (complete { wrote (frame (configured s)) .ok (configured s) with st := .ready }) := by
  obtain ⟨e, answers⟩ := construct_commands_ok (rest := .answered .ok :: rest) h
  rw [e, firstFrame, busWrite_scripted answers]

/-- The first `err` answers one of the 18 commands. -/
theorem construct_command_err (initializing : s.st = .initializing) {k : Nat} (hk : k < (initWrites s.w s.h).length)
    (h : s.answers = List.replicate k (.answered .ok) ++ .answered .err :: rest) :
    construct s = .next (raise .busError (discardSession (wroteAll (k + 1)
      (okEvents s.addr ((initWrites s.w s.h).take k) ++ [.busWrite s.addr (initWrites s.w s.h)[k] .err])
      (resetPulse s)))) := by
  rw [construct, sendAll_err (s := resetPulse s) hk h]
  exact congrArg Host.Outcome.next (failWrite_initializing (s := wroteAll _ _ (resetPulse s)) initializing)

/-- The first `err` answers the frame. -/
theorem construct_frame_err (initializing : s.st = .initializing)
    (h : s.answers = List.replicate 18 (.answered .ok) ++ .answered .err :: rest) :
    construct s = .next (raise .busError (discardSession (wrote (frame (configured s)) .err (configured s)))) := by
  obtain ⟨e, answers⟩ := construct_commands_ok h
  rw [e, firstFrame, busWrite_scripted answers]
  exact congrArg Host.Outcome.next
    (failWrite_initializing (s := wrote _ _ (configured s)) ((configured_st s).trans initializing))

/-- A sequence of writes hangs at the first that is not answered. -/
theorem sendAll_silent {ws : List (List Byte)} {k : Nat} (hk : k < ws.length)
    (h : s.answers = List.replicate k (.answered .ok) ++ .silent :: rest) : sendAll ws s = none := by
  induction ws generalizing s k with
  | nil => simp at hk
  | cons b ws ih =>
    cases k with
    | zero => rw [sendAll, busWrite_silent h]
    | succ k =>
      rw [List.replicate_succ, List.cons_append] at h
      rw [sendAll, busWrite_scripted h]
      exact ih (s := wrote b .ok s) (by simpa using hk) (by simp [h])

theorem construct_silent {k : Nat} (hk : k < 19)
    (h : s.answers = List.replicate k (.answered .ok) ++ .silent :: rest) :
    construct s = .fault .transportSilent := by
  by_cases command : k < 18
  · rw [construct, sendAll_silent (ws := initWrites s.w s.h) (s := resetPulse s) command h]
  · obtain rfl : k = 18 := by omega
    obtain ⟨e, answers⟩ := construct_commands_ok h
    rw [e, firstFrame, busWrite_silent answers]

end

/-- Settles O51: the state `construct_ok` gives, field by field. -/
theorem initResult : Obligations.InitResult := by
  intro s addr w h rest un a0 a127 w1 w128 h8 h64 hm answers
  have ok := construct_ok (s := openSession addr w h { s with st := .initializing }) answers
  refine ⟨_, (exec_init_legal un ⟨a0, a127⟩ ⟨w1, w128, h8, h64, hm⟩).trans ok, rfl, by simp, by simp, ?_, by simp,
    by simp, by simp, fun a => ?_, ?_, ⟨by simp, by simp⟩, ?_⟩
  · simp [BitVec.toNat_ofInt]
    omega
  · simp [Memory.read_clear, Memory.allocate, surfaceBytes, Int.lt_toNat]
  · simp [answers]
  · simp [frame_configured, okEvents, initWrites, initCommands, commandBytes, encode, Memory.allocate, surfaceBytes,
      multiplexArg, comPinsArg, lastColumnArg, lastPageArg] <;> rfl

theorem take_succ_split {l : List (List Byte)} {k : Nat} (hk : k < l.length) :
    (l.take (k + 1)).take k = l.take k ∧ (l.take (k + 1)).drop k = [l[k]] := by
  rw [List.take_take, min_eq_left (Nat.le_succ k), List.drop_take, Nat.add_sub_cancel_left,
    List.drop_eq_getElem_cons hk]
  exact ⟨rfl, rfl⟩

/-- The state in which INIT ends when write `k + 1` of its 19 is the first answered `err`: that write and those before
it are in the trace, and the session is discarded. -/
theorem construct_fails {s : State} (initializing : s.st = .initializing)
    (size : s.fb.size = surfaceBytes s.w s.h) {k : Nat} (hk : k < (allInitWrites s.w s.h).length) {rest : List Answer}
    (h : s.answers = List.replicate k (.answered .ok) ++ .answered .err :: rest) :
    construct s = .next (raise .busError (discardSession (wroteAll (k + 1)
      (okEvents s.addr ((allInitWrites s.w s.h).take k) ++ [.busWrite s.addr (allInitWrites s.w s.h)[k] .err])
      (resetPulse s)))) := by
  by_cases command : k < (initWrites s.w s.h).length
  · rw [construct_command_err initializing command h]
    simp only [allInitWrites, List.take_append_of_le_length command.le, List.getElem_append_left command]
  · obtain rfl : k = 18 := by
      simp only [allInitWrites, List.length_append, initWrites_length, List.length_singleton] at hk command
      omega
    have before : (allInitWrites s.w s.h).take 18 = initWrites s.w s.h := List.take_left' (initWrites_length ..)
    have last : (allInitWrites s.w s.h)[18] = frame (configured s) := by rw [frame_configured, size]; rfl
    rw [construct_frame_err initializing h, before, last]
    simp [discardSession, configured, clearFramebuffer, wroteAll, wrote]

/-- Settles O53: the state `construct_fails` gives, its writes cut after the failed one. -/
theorem initBusError : Obligations.InitBusError := by
  intro s addr w h k rest un address dims hk answers
  have size : k < (allInitWrites w h).length := by simpa [allInitWrites] using hk
  obtain ⟨before, last⟩ := take_succ_split size
  have fails := construct_fails (s := openSession addr w h { s with st := .initializing }) rfl rfl size answers
  refine ⟨_, _, (exec_init_legal un address dims).trans fails, rfl, ?_, rfl, rfl, Memory.read_absent, ?_, ⟨rfl, rfl⟩⟩
  · show _ = _ ++ (((allInitWrites w h).take (k + 1)).take k).map _ ++ (((allInitWrites w h).take (k + 1)).drop k).map _
    rw [before, last]
    simp [okEvents]
  · simp [answers, List.drop_append]

/-- Settles O54: a write not answered by the script is `none`, and every operation that makes it faults. -/
theorem silentTransportStops : Obligations.SilentTransportStops := by
  refine ⟨fun s addr w h k rest un address dims hk answers => ?_, fun s i rest answers makes => ?_⟩
  · rw [exec_init_legal un address dims]
    exact construct_silent (s := openSession addr w h { s with st := .initializing }) hk answers
  · have write (bytes : List Byte) : writeOperation bytes s = .fault .transportSilent := by
      rw [writeOperation, busWrite_silent answers]
    obtain ⟨ready, rfl | ⟨flag, rfl⟩⟩ | makes := makes
    · exact (exec_draw_ready ready).trans (write _)
    · rw [exec_setInverse_eq, whenReady, if_pos ready, write]
    · have session : s.st ≠ .uninitialized := by
        intro un
        simpa [un, emittedIn] using makes.emitted
      rw [exec_wireWrite makes.1, wireWrite, if_neg session, if_pos makes.emitted, busWrite_silent answers]

end Sys2Proof.Machine

/-! # Pixels and bytes (20_memory.md sections 1 and 3)

In a session the pixels of the surface and the bits of the framebuffer correspond one to one, so framebuffers with the
same pixels are equal. -/

namespace Sys2Proof.Machine

/-- Every bit of every byte is a pixel of the surface (rule R32). -/
theorem exists_pixel {w h : Int} (dims : dimsLegal w h) {i b : Nat} (hi : i < surfaceBytes w h) (hb : b < 8) :
    ∃ p : Pixel, inSurface w h p ∧ pixelIndex w p.1 p.2 = i ∧ pixelBit p.2 = b := by
  obtain ⟨w1, -, h8, -, hm⟩ := dims
  have split : (i : Int) / w * w + (i : Int) % w = i := Int.ediv_mul_add_emod ..
  have column0 : 0 ≤ (i : Int) % w := Int.emod_nonneg _ (by omega)
  have columnW : (i : Int) % w < w := Int.emod_lt_of_pos _ (by omega)
  have page0 : 0 ≤ (i : Int) / w := Int.ediv_nonneg (by omega) (by omega)
  have pageH : (i : Int) / w < h / 8 := by
    refine Int.ediv_lt_of_lt_mul (by omega) ?_
    rw [mul_comm]
    exact Int.lt_toNat.1 hi
  have page : ((i : Int) / w * 8 + b) / 8 = (i : Int) / w := by omega
  refine ⟨((i : Int) % w, (i : Int) / w * 8 + b), ⟨column0, columnW, by simp only; omega, by simp only; omega⟩, ?_, ?_⟩
  · simp only [pixelIndex, page, split, Int.toNat_natCast]
  · simp only [pixelBit]
    omega

/-- A pixel reads the bit of its byte. -/
theorem pixel_eq_read {s : State} {p : Pixel} (h : pixelIndex s.w p.1 p.2 < s.fb.size) :
    s.pixel p = ((s.fb.read (pixelIndex s.w p.1 p.2)).getD 0).getLsbD (pixelBit p.2) := by
  rw [Memory.read_of_lt h]
  rfl

/-- Settles O20: `pixelIndex` and `pixelBit` are the correspondence. -/
theorem pixelsAreTheBitsOfTheFramebuffer : Obligations.PixelsAreTheBitsOfTheFramebuffer := by
  intro s inv ready
  obtain ⟨dims, bytes, -, -⟩ := inv.session ready
  refine ⟨fun x y onSurface => ?_, fun i b hi hb => ?_⟩
  · have exists_byte : pixelIndex s.w x y < s.fb.size := bytes ▸ pixelIndex_lt dims onSurface
    exact ⟨exists_byte, pixel_eq_read (p := (x, y)) exists_byte⟩
  · obtain ⟨p, onSurface, index, bit⟩ := exists_pixel dims (bytes ▸ hi) hb
    exact ⟨p, ⟨onSurface, index, bit⟩, fun q ⟨onSurface', index', bit'⟩ =>
      pixel_injective onSurface' onSurface (index'.trans index.symm) (bit'.trans bit.symm)⟩

/-- Framebuffers of one surface with the same pixels are equal. -/
theorem fb_eq_of_pixels {s t : State} (dims : dimsLegal s.w s.h) (bytes : s.fb.size = surfaceBytes s.w s.h)
    (wf : s.fb.wf) (wf' : t.fb.wf) (size : t.fb.size = s.fb.size) (w : t.w = s.w)
    (pixels : ∀ q, inSurface s.w s.h q → t.pixel q = s.pixel q) : t.fb = s.fb := by
  refine Memory.eq_of_read wf' wf size fun i => ?_
  by_cases hi : i < s.fb.size
  · rw [Memory.read_of_lt hi, Memory.read_of_lt (size ▸ hi), Option.some.injEq]
    refine BitVec.eq_of_getLsbD_eq fun b hb => ?_
    obtain ⟨p, onSurface, rfl, rfl⟩ := exists_pixel dims (bytes ▸ hi) hb
    have same := pixels p onSurface
    rwa [State.pixel, w] at same
  · simp [Memory.read, size, hi]

@[simp] theorem complete_pixel (s : State) (q : Pixel) : (complete s).pixel q = s.pixel q := rfl

section
variable {s : State} (inv : s.Inv) (ready : s.st = .ready)
include inv ready

theorem drawPixels_pixel_session (ps : List Pixel) (c : Bit) {q : Pixel} (hq : inSurface s.w s.h q) :
    (drawPixels ps c s).pixel q = if q ∈ ps then decide (c = 1) else s.pixel q :=
  drawPixels_pixel (inv.session ready).dims (inv.session ready).bytes inv.memory ps c hq

/-- Within one colour neither the order nor the repetition of plots is observable (rule R77). -/
theorem drawPixels_congr {ps qs : List Pixel} (same : ∀ p, p ∈ ps ↔ p ∈ qs) (c : Bit) :
    drawPixels ps c s = drawPixels qs c s := by
  have inv' := drawPixels_inv inv ready qs c
  have session' := inv'.session ((drawPixels_st ..).trans ready)
  have fb : (drawPixels ps c s).fb = (drawPixels qs c s).fb := by
    refine fb_eq_of_pixels session'.dims session'.bytes inv'.memory ((drawPixels_frame ps c s).2.2 inv.memory) (by simp)
      (by simp) fun q hq => ?_
    simp only [drawPixels_w, drawPixels_h] at hq
    rw [drawPixels_pixel_session inv ready ps c hq, drawPixels_pixel_session inv ready qs c hq]
    simp only [same q]
  rw [(drawPixels_frame ps c s).1, fb, ← (drawPixels_frame qs c s).1]

end

/-- Settles O21: both lists leave the same pixels. -/
theorem drawingOrderIsUnobservable : Obligations.DrawingOrderIsUnobservable :=
  fun _ _ _ c inv ready same => drawPixels_congr inv ready same c

/-! ## Which bytes are stored to -/

section
variable {s t u : State} {ps qs : List Pixel}

theorem onlyBytesOf_of_fb_eq (fb : t.fb = s.fb) : s.OnlyBytesOf ps t := ⟨by rw [fb], fun _ _ => by rw [fb]⟩

theorem State.OnlyBytesOf.mono (h : s.OnlyBytesOf qs t) (sub : ∀ q ∈ qs, q ∈ ps) : s.OnlyBytesOf ps t :=
  ⟨h.size, fun a other => h.byte a fun q hq => other q (sub q hq)⟩

theorem State.OnlyBytesOf.trans (first : s.OnlyBytesOf ps t) (second : t.OnlyBytesOf ps u) (w : t.w = s.w)
    (h : t.h = s.h) : s.OnlyBytesOf ps u :=
  ⟨second.size.trans first.size, fun a other => (second.byte a (by rwa [w, h])).trans (first.byte a other)⟩

end

theorem plotPixel_onlyBytesOf {s : State} (wf : s.fb.wf) (c : Bit) (p : Pixel) :
    s.OnlyBytesOf [p] (plotPixel c s p) := by
  rcases plotPixel_eq c s p with ⟨-, e⟩ | ⟨onSurface, e⟩
  · exact onlyBytesOf_of_fb_eq (by rw [e])
  · refine ⟨plotPixel_size .., fun a other => ?_⟩
    have index : pixelIndex s.w p.1 p.2 ≠ a := other p (List.mem_singleton_self p) onSurface
    rw [e]
    exact (Memory.read_putPixel wf ..).trans (if_neg index.symm)

theorem drawPixels_onlyBytesOf {s : State} (wf : s.fb.wf) (ps : List Pixel) (c : Bit) :
    s.OnlyBytesOf ps (drawPixels ps c s) := by
  induction ps generalizing s with
  | nil => exact onlyBytesOf_of_fb_eq rfl
  | cons p ps ih =>
    have first := (plotPixel_onlyBytesOf wf c p).mono (ps := p :: ps) (by simp)
    have others := (ih ((plotPixel_frame c s p).2.2 wf)).mono (ps := p :: ps) (by simp +contextual)
    exact first.trans others (by simp) (by simp)

/-- The erase pass of RECT lies within its fill pass. -/
theorem mem_fillPixels_of_mem_interiorPixels {x y : Extent} {q : Pixel} (h : q ∈ interiorPixels x y) :
    q ∈ fillPixels x y := by
  simp only [interiorPixels, fillPixels, mem_boxPixels] at *
  omega

theorem drawRect_onlyBytesOf {s : State} (wf : s.fb.wf) (x y w h : Int) (c f : Bit) :
    s.OnlyBytesOf (fillPixels (clip x w s.w) (clip y h s.h)) (drawRect x y w h c f s) := by
  have fill := drawPixels_onlyBytesOf wf (fillPixels (clip x w s.w) (clip y h s.h)) c
  unfold drawRect
  by_cases outline : f = 0
  · simp only [if_pos outline]
    have wf' := (drawPixels_frame (fillPixels (clip x w s.w) (clip y h s.h)) c s).2.2 wf
    exact fill.trans ((drawPixels_onlyBytesOf wf' _ 0).mono fun q => mem_fillPixels_of_mem_interiorPixels)
      (by simp) (by simp)
  · simp only [if_neg outline]
    exact fill

/-- A text operation stores to the bytes of the pixels it lays out. -/
theorem drawText_onlyBytesOf {size : TextSize} {table : Fin 96 → List Byte} {codes : List Int} {v : Bit} {s t : State}
    {gs : List (List Byte)} (wf : s.fb.wf) (glyphs : glyphsOf table codes = some gs)
    (e : drawText size table codes v s = .next t) :
    s.OnlyBytesOf (layout size s.w s.h v gs s.cx s.cy).pixels t := by
  by_cases empty : codes = []
  · obtain ⟨-, rfl⟩ | ⟨l, nonempty, -⟩ := drawText_next e
    · exact onlyBytesOf_of_fb_eq rfl
    · exact absurd empty nonempty
  · rw [drawText_some empty glyphs] at e
    cases e
    obtain ⟨size, byte⟩ := drawPixels_onlyBytesOf wf (layout size s.w s.h v gs s.cx s.cy).pixels 1
    exact ⟨size, byte⟩

/-- Settles O35: each operation draws the pixels its rule computes, by `drawPixels`. -/
theorem drawingLeavesOtherBytesAlone : Obligations.DrawingLeavesOtherBytesAlone := by
  intro s t inv ready
  have wf := inv.memory
  refine ⟨fun x y c e => ?_, fun a b d f k c e => ?_, fun a b r c f e => ?_, fun x y w h c f e => ?_,
    fun codes v gs glyphs e => drawText_onlyBytesOf wf glyphs ((textWith_ready ready ..).symm.trans e),
    fun codes v gs glyphs e => drawText_onlyBytesOf wf glyphs ((text2xWith_ready ready ..).symm.trans e)⟩
  · obtain ⟨size, byte⟩ := plotPixel_onlyBytesOf wf c (x, y)
    exact (exec_plot_next e).2 ▸ ⟨size, byte⟩
  · obtain ⟨size, byte⟩ := drawPixels_onlyBytesOf wf (linePixels Config.lineRoundsUp a b d f k) c
    exact (exec_line_next e).2 ▸ ⟨size, byte⟩
  · obtain ⟨size, byte⟩ :=
      drawPixels_onlyBytesOf wf (circlePixels Config.sin Config.cos Config.circleTieUp a b r f) c
    exact (exec_circle_next e).2 ▸ ⟨size, byte⟩
  · obtain ⟨size, byte⟩ := drawRect_onlyBytesOf wf x y w h c f
    exact (exec_rect_next e).2 ▸ ⟨size, byte⟩

end Sys2Proof.Machine

/-! # PLOT, CLEAR and RECT (40_raster.md sections 2, 5 and 6) -/

namespace Sys2Proof.Machine

/-- Settles O22: one bit of one byte, or none. -/
theorem plotResult : Obligations.PlotResult := by
  intro s x y c inv ready
  have e := exec_plot_ready ready x y c
  refine ⟨_, e, exec_plot_drawingFrame e, fun off => ?_, fun onSurface => ?_⟩
  · have out : ¬ inSurface s.w s.h (x, y) := by simp only [inSurface]; omega
    rw [complete_fb, plotPixel, if_neg out]
  · have inside : pixelIndex s.w x y < s.fb.size :=
      (inv.session ready).bytes ▸ pixelIndex_lt (p := (x, y)) (inv.session ready).dims onSurface
    have read := Memory.read_of_lt inside
    rw [complete_fb, plotPixel, if_pos (show inSurface s.w s.h (x, y) from onSurface)]
    refine ⟨_, read, ?_, fun a other => ?_⟩
    · exact (Memory.read_putPixel inv.memory ..).trans ((if_pos rfl).trans (congrArg (Option.map _) read))
    · exact (Memory.read_putPixel inv.memory ..).trans (if_neg other)

/-- After PLOT in a session, pixel by pixel. -/
theorem plotPixel_pixel_session {s : State} (inv : s.Inv) (ready : s.st = .ready) (c : Bit) (p : Pixel) {q : Pixel}
    (hq : inSurface s.w s.h q) : (plotPixel c s p).pixel q = if q = p then decide (c = 1) else s.pixel q :=
  plotPixel_pixel (inv.session ready).dims (inv.session ready).bytes inv.memory c p hq

/-- Settles O23: after both plots every pixel is as it was. -/
theorem setThenClearRestores : Obligations.SetThenClearRestores := by
  intro s x y inv ready onSurface clear
  have e := exec_plot_ready ready x y 1
  have inv' := (exec_nextInv inv _).inv e
  have ready' : (complete (plotPixel 1 s (x, y))).st = .ready := by simp [ready]
  have e' := exec_plot_ready ready' x y 0
  have inv'' := (exec_nextInv inv' _).inv e'
  obtain ⟨dims, bytes, -, -⟩ := inv.session ready
  refine ⟨_, _, e, e', ?_, fb_eq_of_pixels dims bytes inv.memory inv''.memory (by simp) (by simp) fun q hq => ?_⟩
  · rw [complete_pixel, plotPixel_pixel_session inv ready 1 _ onSurface, if_pos rfl]
    rfl
  · rw [complete_pixel, plotPixel_pixel_session inv' ready' 0 _ (by simpa using hq), complete_pixel,
      plotPixel_pixel_session inv ready 1 _ hq]
    by_cases target : q = (x, y)
    · simp [target, clear]
    · simp [target]

/-- Settles O34: CLEAR empties the list of bytes that are not zero. -/
theorem clearResult : Obligations.ClearResult := by
  intro s ready
  have e := exec_clear_ready ready
  exact ⟨_, e, exec_clear_drawingFrame e, fun a ha => (Memory.read_clear s.fb a).trans (if_pos ha)⟩

/-- After RECT's two passes, pixel by pixel (rule R73). -/
theorem drawRect_pixel {s : State} (inv : s.Inv) (ready : s.st = .ready) (x y w h : Int) (c f : Bit) {q : Pixel}
    (hq : inSurface s.w s.h q) : (drawRect x y w h c f s).pixel q =
      if f = 0 ∧ q ∈ interiorPixels (clip x w s.w) (clip y h s.h) then false
      else if q ∈ fillPixels (clip x w s.w) (clip y h s.h) then decide (c = 1) else s.pixel q := by
  have fill := drawPixels_pixel_session inv ready (fillPixels (clip x w s.w) (clip y h s.h)) c hq
  unfold drawRect
  by_cases outline : f = 0
  · have inv' := drawPixels_inv inv ready (fillPixels (clip x w s.w) (clip y h s.h)) c
    simp only [if_pos outline]
    rw [drawPixels_pixel_session inv' (by simp [ready]) _ 0 (by simpa using hq), fill]
    simp [outline]
  · simp only [if_neg outline]
    rw [if_neg fun erased => outline erased.1]
    exact fill

/-- Settles O32: the two passes, by membership in their boxes. -/
theorem rectResult : Obligations.RectResult := by
  intro s x y w h c f inv ready
  have e := exec_rect_ready ready x y w h c f
  refine ⟨_, e, exec_rect_drawingFrame e, fun q hq => ?_⟩
  rw [complete_pixel, drawRect_pixel inv ready x y w h c f hq]
  simp only [interiorPixels, fillPixels, mem_boxPixels, clip]
  refine ⟨fun outside => ?_, fun inside border => ?_, fun interior => ?_⟩
  · rw [if_neg (by omega), if_neg (by omega)]
  · rw [if_neg (by omega), if_pos (by omega)]
  · obtain rfl | rfl := f.eq_zero_or_eq_one
    · rw [if_pos ⟨rfl, by omega⟩]
      simp
    · rw [if_neg (by simp), if_pos (by omega)]
      simp

end Sys2Proof.Machine

/-! # LINE (40_raster.md section 3) -/

namespace Sys2Proof.Machine

theorem intRange_eq_nil {a b : Int} (h : b < a) : intRange a b = [] :=
  List.eq_nil_iff_forall_not_mem.2 fun j member => by
    rw [mem_intRange] at member
    omega

theorem mem_verticalPixels {x y0 y1 k : Int} {q : Pixel} :
    q ∈ verticalPixels x y0 y1 k ↔ x ≤ q.1 ∧ q.1 < x + k ∧ min y0 y1 ≤ q.2 ∧ q.2 ≤ max y0 y1 := by
  obtain ⟨u, v⟩ := q
  simp only [verticalPixels, List.mem_flatMap, List.mem_map, mem_intRange, Prod.mk.injEq]
  constructor
  · rintro ⟨i, hi, j, hj, rfl, rfl⟩
    omega
  · rintro ⟨h1, h2, h3, h4⟩
    exact ⟨u - x, by omega, v, ⟨h3, h4⟩, by omega, rfl⟩

theorem mem_slopePixels {up : Rat → Bool} {x0 y0 x1 y1 k : Int} {q : Pixel} :
    q ∈ slopePixels up x0 y0 x1 y1 k ↔ x0 ≤ q.1 ∧ q.1 ≤ x1 ∧ ∃ i, 0 ≤ i ∧ i < k ∧
      q.2 = y0 + lineRound up ((y1 - y0) * (q.1 - x0)) (x1 - x0) + i := by
  obtain ⟨u, v⟩ := q
  simp only [slopePixels, List.mem_flatMap, List.mem_map, mem_intRange, Prod.mk.injEq]
  constructor
  · rintro ⟨i, hi, j, ⟨h0, h1⟩, rfl, rfl⟩
    exact ⟨h0, h1, i, hi.1, by omega, rfl⟩
  · rintro ⟨h0, h1, i, i0, ik, rfl⟩
    exact ⟨i, by omega, u, ⟨h0, h1⟩, rfl, rfl⟩

/-- The branch is chosen by `x0 = x1` alone, and the sloped one ascends (rule R71). -/
theorem mem_linePixels {up : Rat → Bool} {x0 y0 x1 y1 k : Int} {q : Pixel} :
    q ∈ linePixels up x0 y0 x1 y1 k ↔
      (x0 = x1 ∧ y0 ≠ y1 ∧ x0 ≤ q.1 ∧ q.1 < x0 + k ∧ min y0 y1 ≤ q.2 ∧ q.2 ≤ max y0 y1) ∨
      (x0 < x1 ∧ x0 ≤ q.1 ∧ q.1 ≤ x1 ∧ ∃ i, 0 ≤ i ∧ i < k ∧
        q.2 = y0 + lineRound up ((y1 - y0) * (q.1 - x0)) (x1 - x0) + i) ∨
      (x1 < x0 ∧ x1 ≤ q.1 ∧ q.1 ≤ x0 ∧ ∃ i, 0 ≤ i ∧ i < k ∧
        q.2 = y1 + lineRound up ((y0 - y1) * (q.1 - x1)) (x0 - x1) + i) := by
  unfold linePixels
  rcases lt_trichotomy x0 x1 with lt | rfl | gt
  · simp [lt.ne, lt.not_gt, lt, mem_slopePixels]
  · by_cases point : y0 = y1
    · simp [point]
    · simp [point, mem_verticalPixels]
  · simp [gt.ne', gt.not_gt, gt, mem_slopePixels]

theorem linePixels_comm (up : Rat → Bool) (a b c d k : Int) : linePixels up a b c d k = linePixels up c d a b k := by
  unfold linePixels
  rcases lt_trichotomy a c with lt | rfl | gt
  · simp [lt.ne, lt.ne', lt.not_gt, lt]
  · simp [verticalPixels, eq_comm, min_comm, max_comm]
  · simp [gt.ne, gt.ne', gt.not_gt, gt]

/-- A point and a line without thickness have no pixels (D19). -/
theorem linePixels_degenerate {up : Rat → Bool} {x0 y0 x1 y1 k : Int} (h : (x0 = x1 ∧ y0 = y1) ∨ k ≤ 0) :
    linePixels up x0 y0 x1 y1 k = [] := by
  unfold linePixels
  obtain ⟨rfl, rfl⟩ | thin := h
  · simp
  · have none : intRange 0 (k - 1) = [] := intRange_eq_nil (by omega)
    simp [verticalPixels, slopePixels, none]

/-- Settles O25: exchanging the ends gives the same list of pixels. -/
theorem lineDirectionDoesNotMatter : Obligations.LineDirectionDoesNotMatter := fun s a b c d k col =>
  congrArg (drawOperation · col s) (linePixels_comm Config.lineRoundsUp a b c d k)

/-- Settles O26: there is nothing to draw. -/
theorem degenerateLinesDrawNothing : Obligations.DegenerateLinesDrawNothing := by
  intro s x0 y0 x1 y1 k c ready degenerate
  rw [exec_line_ready ready, linePixels_degenerate degenerate]
  rfl

/-- Drawing a list of pixels in a session, pixel by pixel, where the list is known by its members. -/
theorem complete_drawPixels_pixel {s : State} (inv : s.Inv) (ready : s.st = .ready) {ps : List Pixel} (c : Bit)
    {q : Pixel} (hq : inSurface s.w s.h q) {drawn : Prop} (mem : q ∈ ps ↔ drawn) :
    (drawn → (complete (drawPixels ps c s)).pixel q = decide (c = 1)) ∧
      (¬ drawn → (complete (drawPixels ps c s)).pixel q = s.pixel q) := by
  rw [complete_pixel, drawPixels_pixel_session inv ready ps c hq, ← mem]
  exact ⟨fun h => if_pos h, fun h => if_neg h⟩

/-! ## The roundings (rules R71, R72) -/

/-- A quotient is its floor and the remainder's share, which lies in `[0, 1)`. -/
theorem div_eq_floor_add {num den : Int} (pos : 0 < den) :
    (num : Rat) / den = (num / den : Int) + ((num % den : Int) : Rat) / den ∧
      0 ≤ ((num % den : Int) : Rat) / den ∧ ((num % den : Int) : Rat) / den < 1 := by
  have den0 : (0 : Rat) < den := by exact_mod_cast pos
  refine ⟨?_, ?_, ?_⟩
  · have split : ((den * (num / den) + num % den : Int) : Rat) = num := by rw [Int.mul_ediv_add_emod]
    rw [← split]
    push_cast
    field_simp
  · exact div_nonneg (by exact_mod_cast Int.emod_nonneg num pos.ne') den0.le
  · rw [div_lt_one den0]
    exact_mod_cast Int.emod_lt_of_pos num pos

theorem floor_div {num den : Int} (pos : 0 < den) : ⌊(num : Rat) / den⌋ = num / den := by
  obtain ⟨split, low, high⟩ := div_eq_floor_add (num := num) pos
  rw [Int.floor_eq_iff, split]
  constructor <;> linarith

theorem mkRat_toNat {num den : Int} (pos : 0 < den) : mkRat num den.toNat = num / den := by
  rw [Rat.mkRat_eq_div]
  congr 1
  exact_mod_cast Int.toNat_of_nonneg pos.le

/-- `LINE_RND` is within 1, and exact on integers. -/
theorem lineRound_near (up : Rat → Bool) {num den : Int} (pos : 0 < den) :
    |(lineRound up num den : Rat) - num / den| < 1 := by
  obtain ⟨split, low, high⟩ := div_eq_floor_add (num := num) pos
  have den0 : (0 : Rat) < den := by exact_mod_cast pos
  rw [split, abs_lt]
  unfold lineRound
  by_cases exact_ : num % den = 0
  · simp [exact_]
  · have positive : 0 < ((num % den : Int) : Rat) / den :=
      div_pos (by exact_mod_cast (Int.emod_nonneg num pos.ne').lt_of_ne' exact_) den0
    rw [if_neg exact_]
    split
    · push_cast
      constructor <;> linarith
    · constructor <;> linarith

theorem lineRound_mul (up : Rat → Bool) (z : Int) {den : Int} (pos : 0 < den) : lineRound up (z * den) den = z := by
  rw [lineRound, if_pos (Int.mul_emod_left ..), Int.mul_ediv_cancel _ pos.ne']

/-- Settles O24: LINE's pixels by membership, and the bound of its rounding. -/
theorem lineResult : Obligations.LineResult := by
  refine ⟨fun s x0 y0 x1 y1 k c inv ready => ?_, fun num den pos => ⟨lineRound_near _ pos, ?_⟩⟩
  · have e := exec_line_ready ready x0 y0 x1 y1 k c
    exact ⟨_, e, exec_line_drawingFrame e, fun q hq => complete_drawPixels_pixel inv ready c hq mem_linePixels⟩
  · rintro z rfl
    exact lineRound_mul _ z pos

end Sys2Proof.Machine

/-! # CIRCLE (40_raster.md section 4) -/

namespace Sys2Proof.Machine

/-- `CIRCLE_ROUND` is within 1/2. -/
theorem circleRound_near (up : Rat → Bool) (num : Int) {den : Nat} (pos : 0 < den) :
    |(circleRound up num den : Rat) - num / den| ≤ 1 / 2 := by
  obtain ⟨split, low, high⟩ := div_eq_floor_add (num := num) (den := den) (by exact_mod_cast pos)
  have den0 : (0 : Rat) < den := by exact_mod_cast pos
  push_cast at split low high
  rw [split, abs_le]
  unfold circleRound
  by_cases below : 2 * (num % den) < den
  · have half : ((num % den : Int) : Rat) / den < 1 / 2 := by
      rw [div_lt_div_iff₀ den0 two_pos]
      exact_mod_cast by omega
    rw [if_pos below]
    constructor <;> linarith
  · have half : 1 / 2 ≤ ((num % den : Int) : Rat) / den := by
      rw [div_le_div_iff₀ two_pos den0]
      exact_mod_cast by omega
    rw [if_neg below]
    by_cases above : 2 * (num % den) > den
    · rw [if_pos above]
      push_cast
      constructor <;> linarith
    · have tie : ((num % den : Int) : Rat) / den = 1 / 2 := by
        rw [div_eq_div_iff den0.ne' two_ne_zero]
        exact_mod_cast by omega
      rw [if_neg above]
      split
      · push_cast
        constructor <;> linarith
      · constructor <;> linarith

theorem mul_eq_num_div_den (r : Int) (v : Rat) : (r * v : Rat) = ((r * v.num : Int) : Rat) / v.den := by
  rw [Int.cast_mul, mul_div_assoc, Rat.num_div_den]

theorem circleOffset_near (up : Rat → Bool) (r : Int) (v : Rat) : |(circleOffset up r v : Rat) - r * v| ≤ 1 / 2 := by
  rw [mul_eq_num_div_den]
  exact circleRound_near up _ v.den_pos

theorem mem_samplePixels {cx : Int} {f : Bit} {p q : Pixel} :
    q ∈ samplePixels cx f p ↔ q.2 = p.2 ∧ (f = 0 → q.1 = p.1) ∧ (f = 1 → min cx p.1 ≤ q.1 ∧ q.1 ≤ max cx p.1) := by
  obtain ⟨u, v⟩ := q
  obtain rfl | rfl := f.eq_zero_or_eq_one
  · simp [samplePixels, Prod.ext_iff, and_comm]
  · simp [samplePixels, Prod.ext_iff, eq_comm (a := v), and_comm]

theorem mem_circlePixels {sin cos : Fin 180 → Rat} {up : Rat → Bool} {cx cy r : Int} {f : Bit} {q : Pixel} :
    q ∈ circlePixels sin cos up cx cy r f ↔ ∃ i : Fin 180,
      q.2 = cy - circleOffset up r (cos i) ∧ (f = 0 → q.1 = cx - circleOffset up r (sin i)) ∧
        (f = 1 → min cx (cx - circleOffset up r (sin i)) ≤ q.1 ∧ q.1 ≤ max cx (cx - circleOffset up r (sin i))) := by
  simp only [circlePixels, List.mem_flatMap, List.mem_finRange, true_and, mem_samplePixels, circleSample]

/-- Settles O27: CIRCLE's pixels by membership, and the bound of its rounding. -/
theorem circleResult : Obligations.CircleResult := by
  refine ⟨fun s cx cy r c f inv ready => ?_, circleOffset_near _⟩
  have e := exec_circle_ready ready cx cy r c f
  exact ⟨_, e, exec_circle_drawingFrame e, fun q hq => complete_drawPixels_pixel inv ready c hq mem_circlePixels⟩

theorem circleOffset_zero (up : Rat → Bool) (v : Rat) : circleOffset up 0 v = 0 := by
  simp [circleOffset, circleRound, v.den_pos]

/-- Settles O28: every sample is the centre, and drawing one pixel often is drawing it once. -/
theorem zeroRadiusCircleIsItsCentre : Obligations.ZeroRadiusCircleIsItsCentre := by
  intro s cx cy c f inv
  by_cases ready : s.st = .ready
  · have centre (q : Pixel) :
        q ∈ circlePixels Config.sin Config.cos Config.circleTieUp cx cy 0 f ↔ q ∈ [((cx, cy) : Pixel)] := by
      simp only [mem_circlePixels, circleOffset_zero, sub_zero, min_self, max_self, exists_const, List.mem_singleton,
        Prod.ext_iff]
      obtain rfl | rfl := f.eq_zero_or_eq_one
      · simp [and_comm]
      · simp [and_comm, le_antisymm_iff]
    rw [exec_circle_ready ready, exec_plot_ready ready, drawPixels_congr inv ready centre]
    rfl
  · have refused := operationsRefusedInTheWrongState.2 s
    exact (refused (.circle cx cy 0 c f) rfl (by simp) ready).trans (refused (.plot cx cy c) rfl (by simp) ready).symm

/-! ## The cardinal samples -/

/-- Two integers less than 1 apart are equal. -/
theorem circleOffset_eq_of_near (up : Rat → Bool) {r n : Int} {v : Rat} (near : |r * v - n| < 1 / 2) :
    circleOffset up r v = n := by
  have apart : |((circleOffset up r v - n : Int) : Rat)| < 1 := by
    have bound := circleOffset_near up r v
    rw [abs_lt] at near
    rw [abs_le] at bound
    push_cast
    rw [abs_lt]
    constructor <;> linarith
  have : |circleOffset up r v - n| < 1 := by exact_mod_cast apart
  linarith [Int.abs_lt_one_iff.1 this]

/-- An entry near an integer gives the exact offset, where the bound is the one of rule R72 (b). -/
theorem circleOffset_cardinal (up : Rat → Bool) {r : Int} (r0 : r ≠ 0) (z : Int) {v : Rat}
    (near : |v - z| < 1 / (2 * |(r : Rat)|)) : circleOffset up r v = r * z := by
  have size : 0 < |(r : Rat)| := abs_pos.2 (by exact_mod_cast r0)
  refine circleOffset_eq_of_near up ?_
  rw [lt_div_iff₀ (by positivity)] at near
  push_cast
  rw [← mul_sub, abs_mul]
  linarith

/-- Settles O29: each of the eight entries is near 0, 1 or -1. -/
theorem cardinalSamples : Obligations.CardinalSamples := by
  intro sin cos up cx cy r r0
  have zero {v : Rat} (near : |v| < 1 / (2 * |(r : Rat)|)) : circleOffset up r v = 0 := by
    simpa using circleOffset_cardinal up r0 0 (by simpa using near)
  have one {v : Rat} (near : |v - 1| < 1 / (2 * |(r : Rat)|)) : circleOffset up r v = r := by
    simpa using circleOffset_cardinal up r0 1 (by simpa using near)
  have minusOne {v : Rat} (near : |v + 1| < 1 / (2 * |(r : Rat)|)) : circleOffset up r v = -r := by
    simpa using circleOffset_cardinal up r0 (-1) (by simpa using near)
  refine ⟨fun ⟨s, c⟩ => ?_, fun ⟨s, c⟩ => ?_, fun ⟨s, c⟩ => ?_, fun ⟨s, c⟩ => ?_⟩
  · simp [circleSample, zero s, one c]
  · simp [circleSample, one s, zero c]
  · simp [circleSample, zero s, minusOne c]
  · simp [circleSample, minusOne s, zero c]

/-- A bound to an integer value of the true function is a bound between rationals. -/
theorem abs_sub_le_of_real {v eps : Rat} {x : Real} (near : |(v : Real) - x| ≤ eps) (z : Int) (value : x = z) :
    |v - z| ≤ eps := by
  rw [value] at near
  exact_mod_cast near

/-- Settles O30: at 0, 90, 180 and 270 degrees the true sine and cosine are 0, 1 or -1. -/
theorem accurateTablesGiveCardinalPoints : Obligations.AccurateTablesGiveCardinalPoints := by
  intro eps sin cos up cx cy r tables r0 small
  obtain ⟨top, left, bottom, right⟩ := cardinalSamples sin cos up cx cy r r0
  have near {v : Rat} {x : Real} (entry : |(v : Real) - x| ≤ eps) (z : Int) (value : x = z) :
      |v - z| < 1 / (2 * |(r : Rat)|) := (abs_sub_le_of_real entry z value).trans_lt small
  have angle90 : (45 : Real) * (Real.pi / 90) = Real.pi / 2 := by ring
  have angle180 : (90 : Real) * (Real.pi / 90) = Real.pi := by ring
  have angle270 : (135 : Real) * (Real.pi / 90) = Real.pi / 2 + Real.pi := by ring
  refine ⟨top ⟨?_, ?_⟩, left ⟨?_, ?_⟩, bottom ⟨?_, ?_⟩, right ⟨?_, ?_⟩⟩
  · simpa using near (tables 0).1 0 (by simp)
  · simpa using near (tables 0).2 1 (by simp)
  · simpa using near (tables 45).1 1 (by simp [angle90])
  · simpa using near (tables 45).2 0 (by simp [angle90])
  · simpa using near (tables 90).1 0 (by simp [angle180])
  · simpa using near (tables 90).2 (-1) (by simp [angle180])
  · simpa using near (tables 135).1 (-1) (by simp [angle270, Real.sin_add])
  · simpa using near (tables 135).2 0 (by simp [angle270, Real.cos_add])

/-! ## The open roundings (92_eei_decisions.md) -/

/-- The choice of the open parameter that makes the model's rounding the given one: up where it goes up. -/
def goesUp (f : Rat → Int) (v : Rat) : Bool := decide (f v = ⌊v⌋ + 1)

theorem goesUp_eq {f : Rat → Int} {v : Rat} (neighbour : f v = ⌊v⌋ ∨ f v = ⌊v⌋ + 1) :
    (if goesUp f v then ⌊v⌋ + 1 else ⌊v⌋) = f v := by
  rcases neighbour with down | up
  · simp [goesUp, down]
  · simp [goesUp, up]

/-- An integer less than 1 away is one of the two neighbours. -/
theorem eq_floor_or_of_near {v : Rat} {z : Int} (near : |(z : Rat) - v| < 1) : z = ⌊v⌋ ∨ z = ⌊v⌋ + 1 := by
  obtain ⟨low, high⟩ := abs_lt.1 near
  have above : ⌊v⌋ - 1 < z := by
    have : ((⌊v⌋ - 1 : Int) : Rat) < z := by push_cast; linarith [Int.floor_le v]
    exact_mod_cast this
  have below : z < ⌊v⌋ + 2 := by
    have : (z : Rat) < ((⌊v⌋ + 2 : Int) : Rat) := by push_cast; linarith [Int.lt_floor_add_one v]
    exact_mod_cast this
  omega

/-- `LINE_RND`'s property leaves a choice between the two neighbours, except on integers. -/
theorem lineRound_goesUp {f : Rat → Int} (near : ∀ v, |(f v : Rat) - v| < 1) (exact_ : ∀ z : Int, f z = z)
    {num den : Int} (pos : 0 < den) : lineRound (goesUp f) num den = f (num / den) := by
  unfold lineRound
  by_cases whole : num % den = 0
  · obtain ⟨split, -, -⟩ := div_eq_floor_add (num := num) pos
    rw [if_pos whole, split, whole]
    simp [exact_]
  · rw [if_neg whole, mkRat_toNat pos, ← floor_div pos]
    exact goesUp_eq (eq_floor_or_of_near (near _))

/-- `CIRCLE_ROUND`'s property leaves a choice between the two neighbours on an exact tie only. -/
theorem circleRound_goesUp {f : Rat → Int} (near : ∀ v, |(f v : Rat) - v| ≤ 1 / 2) (num : Int) {den : Nat}
    (pos : 0 < den) : circleRound (goesUp f) num den = f (num / den) := by
  have pos' : (0 : Int) < den := by exact_mod_cast pos
  have den0 : (0 : Rat) < den := by exact_mod_cast pos
  obtain ⟨split, -, -⟩ := div_eq_floor_add (num := num) pos'
  have floor := floor_div (num := num) pos'
  push_cast at split floor
  obtain ⟨low, high⟩ := abs_le.1 (near (num / den))
  have neighbour := eq_floor_or_of_near ((near (num / den)).trans_lt (by norm_num))
  rw [floor] at neighbour
  unfold circleRound
  by_cases down : 2 * (num % den) < den
  · have half : ((num % den : Int) : Rat) / den < 1 / 2 := by
      rw [div_lt_div_iff₀ den0 two_pos]
      exact_mod_cast by omega
    have notUp : f (num / den) ≠ num / den + 1 := by
      intro up
      rw [up, split] at high
      push_cast at high
      linarith
    rw [if_pos down]
    exact (neighbour.resolve_right notUp).symm
  · rw [if_neg down]
    by_cases up : 2 * (num % den) > den
    · have half : 1 / 2 < ((num % den : Int) : Rat) / den := by
        rw [div_lt_div_iff₀ two_pos den0]
        exact_mod_cast by omega
      have notDown : f (num / den) ≠ num / den := by
        intro down
        rw [down, split] at low
        linarith
      rw [if_pos up]
      exact (neighbour.resolve_left notDown).symm
    · rw [if_neg up, Rat.mkRat_eq_div, ← floor]
      exact goesUp_eq (floor ▸ neighbour)

/-- Settles O31: the choice goes up where the given function does. -/
theorem openRoundingsCoverAllTheSpecAllows : Obligations.OpenRoundingsCoverAllTheSpecAllows := by
  refine ⟨fun f near exact_ => ⟨goesUp f, fun num den pos => lineRound_goesUp near exact_ pos⟩,
    fun f near => ⟨goesUp f, fun r q => ?_⟩⟩
  rw [mul_eq_num_div_den]
  exact circleRound_goesUp near _ q.den_pos

end Sys2Proof.Machine

/-! # Smoothing (41_text.md section 1, D26) -/

namespace Sys2Proof.Machine

theorem or_and_left_absorb (a b : BitVec 16) : (a ||| b) &&& a = a := by
  ext i
  simp only [BitVec.getElem_and, BitVec.getElem_or]
  cases a[i] <;> simp

theorem or_eq_right_of_and_eq {a b : BitVec 16} (sub : b &&& a = a) : a ||| b = b := by
  ext i
  have bit : (b &&& a)[i] = a[i] := by rw [sub]
  simp only [BitVec.getElem_and] at bit
  simp only [BitVec.getElem_or]
  cases ha : a[i] <;> simp_all

theorem smooth2x_plain {left : Option Byte} {v : Byte} {right : Option Byte}
    (plain : (left = none ∧ right = none) ∨ (left = some v ∧ right = some v))
    (extra : Option Byte → Byte → Option Byte → BitVec 16 × BitVec 16) :
    smooth2x extra left v right = (stretch16 v, stretch16 v) := if_pos plain

/-- Smoothing only adds pixels to the stretched column (rule R97 (a)). -/
theorem smooth2x_and_stretch16 (extra : Option Byte → Byte → Option Byte → BitVec 16 × BitVec 16) (left : Option Byte)
    (v : Byte) (right : Option Byte) : (smooth2x extra left v right).1 &&& stretch16 v = stretch16 v ∧
      (smooth2x extra left v right).2 &&& stretch16 v = stretch16 v := by
  unfold smooth2x
  split
  · exact ⟨BitVec.and_self, BitVec.and_self⟩
  · exact ⟨or_and_left_absorb .., or_and_left_absorb ..⟩

/-- Settles O40: a function with the two properties is its own choice of the added pixels. -/
theorem smoothingIsExactlyTheOpenParameter : Obligations.SmoothingIsExactlyTheOpenParameter := by
  refine ⟨smooth2x_and_stretch16, fun extra v => ⟨smooth2x_plain (.inr ⟨rfl, rfl⟩) extra,
    smooth2x_plain (.inl ⟨rfl, rfl⟩) extra⟩, fun f adds plain => ⟨f, fun l v r => ?_⟩⟩
  unfold smooth2x
  split
  · obtain ⟨rfl, rfl⟩ | ⟨rfl, rfl⟩ := ‹_ ∨ _›
    · exact (plain v).2.symm
    · exact (plain v).1.symm
  · exact Prod.ext (or_eq_right_of_and_eq (adds l v r).1) (or_eq_right_of_and_eq (adds l v r).2)

end Sys2Proof.Machine

/-! # The course of a text (41_text.md sections 2 and 3)

What the wrap step does, what the character loop lays out, and the text operations in a session. -/

namespace Sys2Proof.Machine

/-! ## The wrap step (rule R95) -/

/-- Everything the wrap step can do, with its reasons. -/
theorem wrapStep_spec (w h x y wpx row : Int) (wrap : Bit) :
    ((x + wpx ≤ w ∨ (wrap = 0 ∧ x < w)) ∧ wrapStep w h x y wpx row wrap = (x, y, .go)) ∨
      (w < x + wpx ∧ wrap = 1 ∧ y + 2 * row ≤ h ∧ wrapStep w h x y wpx row wrap = (0, y + row, .go)) ∨
      (w < x + wpx ∧ (wrap = 1 → h < y + 2 * row) ∧ (wrap = 0 → w ≤ x) ∧
        wrapStep w h x y wpx row wrap = (x, y, .stop)) := by
  unfold wrapStep
  by_cases fits : x + wpx > w
  · rw [if_pos fits]
    obtain rfl | rfl := wrap.eq_zero_or_eq_one
    · by_cases edge : x ≥ w
      · exact .inr (.inr ⟨fits, by simp, fun _ => edge, by simp [edge]⟩)
      · exact .inl ⟨.inr ⟨rfl, by omega⟩, by simp [edge]⟩
    · by_cases room : y + 2 * row ≤ h
      · exact .inr (.inl ⟨fits, rfl, room, by simp [room]⟩)
      · exact .inr (.inr ⟨fits, fun _ => by omega, by simp, by simp [room]⟩)
  · exact .inl ⟨.inl (by omega), if_neg fits⟩

/-! ## The character loop -/

/-- The pixels of a character drawn at `(x, y)`. -/
theorem mem_map_offset {ps : List Pixel} {x y : Int} {q : Pixel} :
    q ∈ ps.map (fun p => (x + p.1, y + p.2)) ↔ (q.1 - x, q.2 - y) ∈ ps := by
  simp only [List.mem_map]
  constructor
  · rintro ⟨p, hp, rfl⟩
    simpa using hp
  · exact fun h => ⟨_, h, by simp⟩

section
variable {size : TextSize} {w h : Int} {wrap : Bit} {g : List Byte} {gs : List (List Byte)} {x y : Int}

theorem layout_stop (stop : wrapStep w h x y (size.width g) size.row wrap = (x, y, .stop)) :
    layout size w h wrap (g :: gs) x y = ⟨[], x, y⟩ := by rw [layout, stop]

/-- A character that is drawn is drawn where the wrap step puts it, and the rest follows its advance. -/
theorem layout_go {x' y' : Int} (go : wrapStep w h x y (size.width g) size.row wrap = (x', y', .go)) :
    (layout size w h wrap (g :: gs) x y).x = (layout size w h wrap gs (x' + size.advance g) y').x ∧
      (layout size w h wrap (g :: gs) x y).y = (layout size w h wrap gs (x' + size.advance g) y').y ∧
      ∀ q, q ∈ (layout size w h wrap (g :: gs) x y).pixels ↔ (q.1 - x', q.2 - y') ∈ size.cell g ∨
        q ∈ (layout size w h wrap gs (x' + size.advance g) y').pixels := by
  rw [layout, go]
  exact ⟨rfl, rfl, fun q => by rw [List.mem_append, mem_map_offset]⟩

end

/-- A sequence of positions with one more in front. -/
def inFront (p : Pixel) (f : Nat → Pixel) : Nat → Pixel
  | 0 => p
  | n + 1 => f n

section
variable {w h : Int} {wrap : Bit} {scale row spacing : Int} {g : List Byte} {gs : List (List Byte)} {start o : Pixel}

/-- A text that ends before its first character. -/
theorem textRun_none (stop : ∀ g, gs[0]? = some g →
      w < start.1 + scale * g.length ∧ (wrap = 1 → h < start.2 + 2 * row) ∧ (wrap = 0 → w ≤ start.1)) :
    TextRun w h wrap scale row spacing gs start 0 (fun _ => start) (fun _ => start) where
  first := rfl
  count := Nat.zero_le _
  place _ _ hn := absurd hn (Nat.not_lt_zero _)
  next _ _ hn := absurd hn (Nat.not_lt_zero _)
  stop := stop

/-- A text whose first character is drawn at `o`, and whose course goes on from there. -/
theorem TextRun.cons {m : Nat} {position origin : Nat → Pixel}
    (placed : (o = start ∧ (start.1 + scale * g.length ≤ w ∨ (wrap = 0 ∧ start.1 < w))) ∨
      (o = (0, start.2 + row) ∧ w < start.1 + scale * g.length ∧ wrap = 1 ∧ start.2 + 2 * row ≤ h))
    (run : TextRun w h wrap scale row spacing gs (o.1 + scale * g.length + spacing, o.2) m position origin) :
    TextRun w h wrap scale row spacing (g :: gs) start (m + 1) (inFront start position) (inFront o origin) where
  first := rfl
  count := Nat.succ_le_succ run.count
  place
    | 0, _, _, found => by cases found; exact placed
    | n + 1, g', hn, found => run.place n g' (Nat.lt_of_succ_lt_succ hn) found
  next
    | 0, _, _, found => by cases found; exact run.first
    | n + 1, g', hn, found => run.next n g' (Nat.lt_of_succ_lt_succ hn) found
  stop := run.stop

end

/-- A size is `scale` pixels to a column, with `spacing` between characters and rows of `row`. -/
structure TextSize.Scaled (size : TextSize) (scale row spacing : Int) : Prop where
  width   : ∀ g, size.width g = scale * (g.length : Int)
  advance : ∀ g, size.advance g = scale * (g.length : Int) + spacing
  row     : size.row = row

theorem singleSize_scaled : singleSize.Scaled 1 8 1 := ⟨by simp [singleSize], by simp [singleSize], rfl⟩

theorem doubleSize_scaled (extra : Option Byte → Byte → Option Byte → BitVec 16 × BitVec 16) :
    (doubleSize extra).Scaled 2 16 4 := ⟨by simp [doubleSize], by simp [doubleSize], rfl⟩

/-- The layout is the course of a text: its end is the running position, its pixels those of the characters drawn. -/
theorem layout_textRun {size : TextSize} {scale row spacing : Int} (scaled : size.Scaled scale row spacing) (w h : Int)
    (wrap : Bit) (gs : List (List Byte)) (x y : Int) : ∃ (m : Nat) (position origin : Nat → Pixel),
      TextRun w h wrap scale row spacing gs (x, y) m position origin ∧
      (layout size w h wrap gs x y).x = (position m).1 ∧ (layout size w h wrap gs x y).y = (position m).2 ∧
      ∀ q : Pixel, q ∈ (layout size w h wrap gs x y).pixels ↔ ∃ (n : Nat) (g : List Byte), n < m ∧ gs[n]? = some g ∧
        (q.1 - (origin n).1, q.2 - (origin n).2) ∈ size.cell g := by
  induction gs generalizing x y with
  | nil => exact ⟨0, _, _, textRun_none (by simp), rfl, rfl, by simp [layout]⟩
  | cons g gs ih =>
    have goes {x' y' : Int} (go : wrapStep w h x y (size.width g) size.row wrap = (x', y', .go))
        (placed : ((x', y') = (x, y) ∧ (x + scale * g.length ≤ w ∨ (wrap = 0 ∧ x < w))) ∨
          ((x', y') = (0, y + row) ∧ w < x + scale * g.length ∧ wrap = 1 ∧ y + 2 * row ≤ h)) :
        ∃ (m : Nat) (position origin : Nat → Pixel),
          TextRun w h wrap scale row spacing (g :: gs) (x, y) m position origin ∧
          (layout size w h wrap (g :: gs) x y).x = (position m).1 ∧
          (layout size w h wrap (g :: gs) x y).y = (position m).2 ∧
          ∀ q : Pixel, q ∈ (layout size w h wrap (g :: gs) x y).pixels ↔ ∃ (n : Nat) (g' : List Byte), n < m ∧
            (g :: gs)[n]? = some g' ∧ (q.1 - (origin n).1, q.2 - (origin n).2) ∈ size.cell g' := by
      obtain ⟨m, position, origin, run, endX, endY, pixels⟩ := ih (x' + size.advance g) y'
      obtain ⟨nextX, nextY, drawn⟩ := layout_go (gs := gs) go
      rw [scaled.advance, ← add_assoc] at run
      refine ⟨m + 1, _, _, TextRun.cons placed run, nextX.trans endX, nextY.trans endY, fun q => ?_⟩
      rw [drawn, pixels]
      constructor
      · rintro (own | ⟨n, g', hn, found, later⟩)
        · exact ⟨0, g, Nat.succ_pos m, rfl, own⟩
        · exact ⟨n + 1, g', Nat.succ_lt_succ hn, found, later⟩
      · rintro ⟨n, g', hn, found, member⟩
        cases n with
        | zero => cases found; exact .inl member
        | succ n => exact .inr ⟨n, g', Nat.lt_of_succ_lt_succ hn, found, member⟩
    have spec := wrapStep_spec w h x y (size.width g) size.row wrap
    simp only [scaled.width, scaled.row] at spec goes
    obtain ⟨fits, go⟩ | ⟨wide, wraps, room, go⟩ | ⟨wide, noRoom, edge, stop⟩ := spec
    · exact goes go (.inl ⟨rfl, fits⟩)
    · exact goes go (.inr ⟨rfl, wide, wraps, room⟩)
    · have nothing := layout_stop (size := size) (gs := gs) (by rw [scaled.width, scaled.row]; exact stop)
      refine ⟨0, _, _, textRun_none ?_, by rw [nothing], by rw [nothing], by simp [nothing]⟩
      rintro g' found
      cases found
      exact ⟨wide, noRoom, edge⟩

/-! ## Text in a session -/

section
variable {s : State} (inv : s.Inv) (ready : s.st = .ready)
include inv ready

/-- Text is transparent: it sets the laid-out pixels and clears none (D23). -/
theorem placeText_pixel (l : Layout) {q : Pixel} (hq : inSurface s.w s.h q) :
    (complete (placeText l s)).pixel q = true ↔ s.pixel q = true ∨ q ∈ l.pixels := by
  have drawn : (complete (placeText l s)).pixel q = (drawPixels l.pixels 1 s).pixel q := by
    rw [placeText_frame]
    simp [State.pixel]
  rw [drawn, drawPixels_pixel_session inv ready l.pixels 1 hq]
  by_cases member : q ∈ l.pixels <;> simp [member]

end

@[simp] theorem placeText_cx (l : Layout) (s : State) : (placeText l s).cx = min l.x (s.w - 1) := rfl
@[simp] theorem placeText_cy (l : Layout) (s : State) : (placeText l s).cy = l.y := rfl

theorem textWith_next {s : State} (ready : s.st = .ready) {table : Fin 96 → List Byte} {codes : List Int}
    {gs : List (List Byte)} (nonempty : codes ≠ []) (glyphs : glyphsOf table codes = some gs) (v : Bit) :
    textWith table codes v s = .next (complete (placeText (layout singleSize s.w s.h v gs s.cx s.cy) s)) :=
  (textWith_ready ready ..).trans (drawText_some nonempty glyphs v s)

theorem text2xWith_next {s : State} (ready : s.st = .ready)
    (extra : Option Byte → Byte → Option Byte → BitVec 16 × BitVec 16) {table : Fin 96 → List Byte} {codes : List Int}
    {gs : List (List Byte)} (nonempty : codes ≠ []) (glyphs : glyphsOf table codes = some gs) (v : Bit) :
    text2xWith extra table codes v s =
      .next (complete (placeText (layout (doubleSize extra) s.w s.h v gs s.cx s.cy) s)) :=
  (text2xWith_ready ready ..).trans (drawText_some nonempty glyphs v s)

/-- Settles O58: the course of the layout, for each size. -/
theorem textFollowsTheWrapStep : Obligations.TextFollowsTheWrapStep := by
  refine ⟨fun _ _ _ => rfl, fun _ _ _ => rfl, fun extra table s codes v gs inv ready nonempty glyphs => ⟨?_, ?_⟩⟩
  · obtain ⟨m, position, origin, run, endX, endY, pixels⟩ :=
      layout_textRun singleSize_scaled s.w s.h v gs s.cx s.cy
    obtain ⟨session, silent, ends⟩ := complete_placeText_frame (layout singleSize s.w s.h v gs s.cx s.cy) s
    refine ⟨_, m, position, origin, textWith_next ready nonempty glyphs v, session, silent, ends, run,
      by simp [endX], by simp [endY], fun q hq => ?_⟩
    rw [placeText_pixel inv ready _ hq, pixels]
    simp only [singleSize, mem_glyphPixels_iff]
  · obtain ⟨m, position, origin, run, endX, endY, pixels⟩ :=
      layout_textRun (doubleSize_scaled extra) s.w s.h v gs s.cx s.cy
    obtain ⟨session, silent, ends⟩ := complete_placeText_frame (layout (doubleSize extra) s.w s.h v gs s.cx s.cy) s
    refine ⟨_, m, position, origin, text2xWith_next ready extra nonempty glyphs v, session, silent, ends, run,
      by simp [endX], by simp [endY], fun q hq => ?_⟩
    rw [placeText_pixel inv ready _ hq, pixels]
    simp only [doubleSize, mem_glyph2xPixels_iff]

end Sys2Proof.Machine

/-! # Text results (41_text.md sections 1 to 3) -/

namespace Sys2Proof.Machine

/-- A non-empty text whose glyphs exist completes in a session, whatever its size: the cursor by the invariant of the
next state and by `layout_bounds`. -/
theorem text_completes {size : TextSize} (sane : size.Sane) {i : Instr} {s : State} {v : Bit} {gs : List (List Byte)}
    (inv : s.Inv) (ready : s.st = .ready)
    (e : exec i s = .next (complete (placeText (layout size s.w s.h v gs s.cx s.cy) s))) :
    ∃ t, exec i s = .next t ∧ s.SameSession t ∧ s.Silent t ∧ s.EndsOk t ∧ t.fb.size = s.fb.size ∧
      inSurface t.w t.h (t.cx, t.cy) ∧ s.cy ≤ t.cy ∧
      ∀ q : Pixel, inSurface s.w s.h q → s.pixel q = true → t.pixel q = true := by
  obtain ⟨session, silent, ends⟩ := complete_placeText_frame (layout size s.w s.h v gs s.cx s.cy) s
  have cursor := (((exec_nextInv inv i).inv e).session (session.st.trans ready)).cursor
  obtain ⟨cx0, -, cy0, cyh⟩ := (inv.session ready).cursor
  obtain ⟨-, down, -⟩ := layout_bounds sane v gs cx0 cy0 cyh (w := s.w)
  exact ⟨_, e, session, silent, ends, by simp [placeText_frame], cursor, by simpa using down,
    fun q hq set => (placeText_pixel inv ready _ hq).2 (.inl set)⟩

/-- Settles O36: the common result of the two sizes. -/
theorem textCompletes : Obligations.TextCompletes := by
  intro s codes v i inv ready nonempty printable text
  have glyphs := glyphsOf_some (table := Config.glyph) printable
  obtain rfl | rfl := text
  · exact text_completes singleSize_sane inv ready (textWith_next ready nonempty glyphs v)
  · exact text_completes (doubleSize_sane _) inv ready (text2xWith_next ready _ nonempty glyphs v)

/-! ## A text on one row -/

/-- Where every character fits, the loop lays them out one after the other on one row. -/
theorem layout_fits {size : TextSize} {scale row spacing : Int} (scaled : size.Scaled scale row spacing)
    (scale0 : 0 ≤ scale) (spacing0 : 0 ≤ spacing) {w : Int} (h : Int) (wrap : Bit) (gs : List (List Byte)) (x y : Int)
    (fits : x + (gs.map size.advance).sum ≤ w + spacing) :
    (layout size w h wrap gs x y).x = x + (gs.map size.advance).sum ∧ (layout size w h wrap gs x y).y = y ∧
      ∀ q : Pixel, q ∈ (layout size w h wrap gs x y).pixels ↔ ∃ (n : Nat) (g : List Byte), gs[n]? = some g ∧
        (q.1 - (x + ((gs.take n).map size.advance).sum), q.2 - y) ∈ size.cell g := by
  induction gs generalizing x with
  | nil => simp [layout]
  | cons g gs ih =>
    have advance0 (g : List Byte) : 0 ≤ size.advance g := by
      rw [scaled.advance]
      positivity
    have others : 0 ≤ (gs.map size.advance).sum := List.sum_nonneg (by simpa using fun g _ => advance0 g)
    rw [List.map_cons, List.sum_cons] at fits ⊢
    have room : x + size.width g ≤ w := by
      have := scaled.width g
      have := scaled.advance g
      omega
    obtain ⟨endX, endY, pixels⟩ := ih (x + size.advance g) (by omega)
    obtain ⟨nextX, nextY, drawn⟩ := layout_go (gs := gs)
      (wrapStep_fits (h := h) (y := y) (row := size.row) (wrap := wrap) room)
    refine ⟨by rw [nextX, endX, add_assoc], nextY.trans endY, fun q => ?_⟩
    rw [drawn, pixels]
    constructor
    · rintro (own | ⟨n, g', found, later⟩)
      · exact ⟨0, g, rfl, by simpa using own⟩
      · exact ⟨n + 1, g', found, by simpa [add_assoc] using later⟩
    · rintro ⟨n, g', found, member⟩
      cases n with
      | zero => cases found; exact .inl (by simpa using member)
      | succ n => exact .inr ⟨n, g', found, by simpa [add_assoc] using member⟩

/-- Settles O37: the single-size text on one row. -/
theorem textOnOneRow : Obligations.TextOnOneRow := by
  refine ⟨fun _ _ _ => rfl, fun table s codes v gs inv ready nonempty glyphs fits => ?_⟩
  obtain ⟨endX, endY, pixels⟩ := layout_fits singleSize_scaled (by decide) (by decide) s.h v gs s.cx s.cy fits
  refine ⟨_, textWith_next ready nonempty glyphs v, congrArg (min · (s.w - 1)) endX, endY, fun q hq => ?_⟩
  rw [placeText_pixel inv ready _ hq, pixels]
  refine or_congr_right (exists_congr fun n => ?_)
  simp only [singleSize, mem_glyphPixels, Prod.ext_iff, sub_eq_iff_eq_add']
  constructor
  · rintro ⟨g, found, j, k, b, column, low, place, set⟩
    exact ⟨j, k, g, b, found, column, low, place, set⟩
  · rintro ⟨j, k, g, b, found, column, low, place, set⟩
    exact ⟨g, found, j, k, b, column, low, place, set⟩

/-! ### Double size -/

/-- A bit of a smoothed column is set where the stretched column's is. -/
theorem smooth2x_bit (extra : Option Byte → Byte → Option Byte → BitVec 16 × BitVec 16) (left : Option Byte) {v : Byte}
    (right : Option Byte) {k : Nat} (set : (stretch16 v).getLsbD k = true) :
    (smooth2x extra left v right).1.getLsbD k = true ∧ (smooth2x extra left v right).2.getLsbD k = true := by
  obtain ⟨first, second⟩ := smooth2x_and_stretch16 extra left v right
  rw [← first] at set
  have set' : (stretch16 v).getLsbD k = true := by simpa [first] using set
  rw [← second] at set'
  simp only [BitVec.getLsbD_and, Bool.and_eq_true] at set set'
  exact ⟨set.1, set'.1⟩

/-- The pixels of the plain enlargement are among those of a double-size character (rule R93 (a)). -/
theorem doubleSizePixel_of_enlarged (extra : Option Byte → Byte → Option Byte → BitVec 16 × BitVec 16) {g : List Byte}
    {j k : Nat} {b : Byte} (column : g[j]? = some b) (low : k < 8) (set : b.getLsbD (7 - k) = true) {dx dy : Int}
    (hx : dx = 0 ∨ dx = 1) (hy : dy = 0 ∨ dy = 1) : DoubleSizePixel extra g (2 * j + dx) (2 * k + dy) := by
  obtain ⟨row, rowLow, half, place⟩ : ∃ row : Nat, row < 16 ∧ row / 2 = k ∧ (2 * k + dy : Int) = row := by
    rcases hy with rfl | rfl
    · exact ⟨2 * k, by omega, by omega, by omega⟩
    · exact ⟨2 * k + 1, by omega, by omega, by omega⟩
  have stretched : (stretch16 (flip8 b)).getLsbD row = true := by
    rw [stretch16_getLsbD _ rowLow, half, flip8_getLsbD _ low, set]
  have smoothed := smooth2x_bit extra (if j = 0 then none else g[j - 1]?.map flip8) (g[j + 1]?.map flip8) stretched
  refine ⟨j, row, b, column, rowLow, place, ?_⟩
  rcases hx with rfl | rfl
  · exact .inl ⟨by omega, smoothed.1⟩
  · exact .inr ⟨rfl, smoothed.2⟩

/-- A double-size character lies in its cell of 16 rows. -/
theorem DoubleSizePixel.bounds {extra : Option Byte → Byte → Option Byte → BitVec 16 × BitVec 16} {g : List Byte}
    {dx dy : Int} (h : DoubleSizePixel extra g dx dy) : 0 ≤ dx ∧ dx < 2 * g.length ∧ 0 ≤ dy ∧ dy < 16 := by
  obtain ⟨j, k, b, column, low, row, place⟩ := h
  have inside : j < g.length := (List.getElem?_eq_some_iff.1 column).1
  rcases place with ⟨rfl, -⟩ | ⟨rfl, -⟩ <;> omega

/-- Settles O39: the double-size text on one row, the enlargement and the cells. -/
theorem doubleTextOnOneRow : Obligations.DoubleTextOnOneRow := by
  refine ⟨fun _ _ _ => rfl, fun extra table s codes v gs inv ready nonempty glyphs fits => ?_⟩
  obtain ⟨endX, endY, pixels⟩ :=
    layout_fits (doubleSize_scaled extra) (by decide) (by decide) s.h v gs s.cx s.cy fits
  have drawn {q : Pixel} (hq : inSurface s.w s.h q) :
      (complete (placeText (layout (doubleSize extra) s.w s.h v gs s.cx s.cy) s)).pixel q = true ↔
        s.pixel q = true ∨ ∃ (n : Nat) (g : List Byte), gs[n]? = some g ∧
          DoubleSizePixel extra g (q.1 - (s.cx + ((gs.take n).map fun g => 2 * (g.length : Int) + 4).sum))
            (q.2 - s.cy) := by
    rw [placeText_pixel inv ready _ hq, pixels]
    simp only [doubleSize, mem_glyph2xPixels_iff]
  refine ⟨_, text2xWith_next ready extra nonempty glyphs v, congrArg (min · (s.w - 1)) endX, endY,
    fun q => drawn, ?_, ?_⟩
  · rintro n j k g b q hq found column low set ⟨dx, dy, hx, hy, rfl⟩
    refine (drawn hq).2 (.inr ⟨n, g, found, ?_⟩)
    convert doubleSizePixel_of_enlarged extra column low set hx hy using 1 <;> omega
  · intro q hq outside
    rw [Bool.eq_iff_iff, drawn hq, or_iff_left]
    rintro ⟨n, g, found, member⟩
    have bounds := member.bounds
    exact outside n g found (by omega)

/-! ## One character that does not fit -/

section
variable {size : TextSize} {scale row spacing w h x y : Int} {g : List Byte} {wrap : Bit}

/-- One character drawn at `(x', y')`: its pixels, and the running position after it. -/
theorem layout_single_go {x' y' : Int} (go : wrapStep w h x y (size.width g) size.row wrap = (x', y', .go)) :
    (layout size w h wrap [g] x y).x = x' + size.advance g ∧ (layout size w h wrap [g] x y).y = y' ∧
      ∀ q, q ∈ (layout size w h wrap [g] x y).pixels ↔ (q.1 - x', q.2 - y') ∈ size.cell g := by
  obtain ⟨nextX, nextY, drawn⟩ := layout_go (gs := []) go
  exact ⟨nextX, nextY, fun q => (drawn q).trans (or_iff_left (List.not_mem_nil))⟩

theorem wrapStep_unwrapped (onSurface : x < w) : wrapStep w h x y (size.width g) size.row 0 = (x, y, .go) := by
  obtain ⟨-, go⟩ | ⟨-, wraps, -, -⟩ | ⟨-, -, edge, -⟩ := wrapStep_spec w h x y (size.width g) size.row 0
  · exact go
  · cases wraps
  · have := edge rfl
    omega

variable (wide : w < x + size.width g)
include wide

theorem wrapStep_wraps (room : y + 2 * size.row ≤ h) :
    wrapStep w h x y (size.width g) size.row 1 = (0, y + size.row, .go) := by
  obtain ⟨fits | ⟨unwrapped, -⟩, -⟩ | ⟨-, -, -, go⟩ | ⟨-, noRoom, -, -⟩ :=
    wrapStep_spec w h x y (size.width g) size.row 1
  · omega
  · cases unwrapped
  · exact go
  · have := noRoom rfl
    omega

theorem wrapStep_noRoom (full : h < y + 2 * size.row) :
    wrapStep w h x y (size.width g) size.row 1 = (x, y, .stop) := by
  obtain ⟨fits | ⟨unwrapped, -⟩, -⟩ | ⟨-, -, room, -⟩ | ⟨-, -, -, stop⟩ :=
    wrapStep_spec w h x y (size.width g) size.row 1
  · omega
  · cases unwrapped
  · omega
  · exact stop

end

/-- What either size does with one character that does not fit. -/
theorem text_wide_character {size : TextSize} {scale row spacing : Int} (scaled : size.Scaled scale row spacing)
    (spacing0 : 0 ≤ spacing) {s : State} (inv : s.Inv) (ready : s.st = .ready) {g : List Byte}
    (wide : s.w < s.cx + scale * g.length) (v : Bit) {t : State}
    (placed : t = complete (placeText (layout size s.w s.h v [g] s.cx s.cy) s)) :
    (v = 1 → s.cy + 2 * row ≤ s.h → t.cx = min (scale * g.length + spacing) (s.w - 1) ∧ t.cy = s.cy + row ∧
      ∀ q : Pixel, inSurface s.w s.h q →
        (t.pixel q = true ↔ s.pixel q = true ∨ (q.1, q.2 - (s.cy + row)) ∈ size.cell g)) ∧
    (v = 1 → s.h < s.cy + 2 * row → t.cx = s.cx ∧ t.cy = s.cy ∧ t.fb = s.fb) ∧
    (v = 0 → t.cx = s.w - 1 ∧ t.cy = s.cy ∧ ∀ q : Pixel, inSurface s.w s.h q →
      (t.pixel q = true ↔ s.pixel q = true ∨ (q.1 - s.cx, q.2 - s.cy) ∈ size.cell g)) := by
  obtain ⟨cx0, cxw, -, -⟩ := (inv.session ready).cursor
  have overflow := wide
  rw [← scaled.width] at wide
  rw [← scaled.row, ← scaled.advance]
  subst placed
  refine ⟨?_, ?_, ?_⟩
  · rintro rfl room
    obtain ⟨endX, endY, drawn⟩ := layout_single_go (wrapStep_wraps wide room)
    refine ⟨by rw [complete_cx, placeText_cx, endX, zero_add], by rw [complete_cy, placeText_cy, endY], fun q hq => ?_⟩
    rw [placeText_pixel inv ready _ hq, drawn, sub_zero]
  · rintro rfl full
    have nothing := layout_stop (gs := []) (wrapStep_noRoom wide full)
    rw [nothing, placeText_frame]
    exact ⟨min_eq_left (by simp only at cxw ⊢; omega), rfl, rfl⟩
  · rintro rfl
    obtain ⟨endX, endY, drawn⟩ := layout_single_go (h := s.h) (y := s.cy) (wrapStep_unwrapped cxw)
    refine ⟨?_, by rw [complete_cy, placeText_cy, endY], fun q hq => by rw [placeText_pixel inv ready _ hq, drawn]⟩
    have advance := scaled.advance g
    rw [complete_cx, placeText_cx, endX]
    exact min_eq_right (by omega)

theorem glyphsOf_singleton {table : Fin 96 → List Byte} {c : Int} {g : List Byte} (glyph : glyphOf table c = some g) :
    glyphsOf table [c] = some [g] := by simp [glyphsOf, glyph]

/-- Settles O38: the two sizes of `text_wide_character`. -/
theorem textWrapsOneCharacter : Obligations.TextWrapsOneCharacter := by
  refine ⟨fun table s c v g inv ready glyph wide => ?_, fun extra table s c v g inv ready glyph wide => ?_⟩
  · obtain ⟨wraps, stops, unwrapped⟩ := text_wide_character singleSize_scaled (by decide) inv ready (g := g)
      (by simpa using wide) v rfl
    refine ⟨_, textWith_next ready (by simp) (glyphsOf_singleton glyph) v, (complete_placeText_frame _ s).2.2,
      fun hv room => ?_, stops, fun hv => ?_⟩
    · obtain ⟨cx, cy, drawn⟩ := wraps hv room
      refine ⟨by simpa using cx, cy, fun q hq => (drawn q hq).trans (or_congr_right ?_)⟩
      simp only [singleSize, mem_glyphPixels, Prod.ext_iff, sub_eq_iff_eq_add']
    · obtain ⟨cx, cy, drawn⟩ := unwrapped hv
      refine ⟨cx, cy, fun q hq => (drawn q hq).trans (or_congr_right ?_)⟩
      simp only [singleSize, mem_glyphPixels, Prod.ext_iff, sub_eq_iff_eq_add']
  · obtain ⟨wraps, stops, unwrapped⟩ := text_wide_character (doubleSize_scaled extra) (by decide) inv ready wide v rfl
    refine ⟨_, text2xWith_next ready extra (by simp) (glyphsOf_singleton glyph) v, (complete_placeText_frame _ s).2.2,
      fun hv room => ?_, stops, fun hv => ?_⟩
    · obtain ⟨cx, cy, drawn⟩ := wraps hv room
      exact ⟨cx, cy, fun q hq => (drawn q hq).trans (or_congr_right mem_glyph2xPixels_iff)⟩
    · obtain ⟨cx, cy, drawn⟩ := unwrapped hv
      exact ⟨cx, cy, fun q hq => (drawn q hq).trans (or_congr_right mem_glyph2xPixels_iff)⟩

end Sys2Proof.Machine
